-- ==== Sys2Proof/Word.lean ====
section
/-! DEFINITION. The words of the block: bytes, BusLine masks, device addresses. -/

namespace Sys2Proof

/-- One 8-bit cell (10_state R20). -/
abbrev Byte := BitVec 8

/-- A BusLine mask: bit `l` selects line `l` (10_state R38). Its width is `N_LINES`, which 00_scope R9 gives no
upper bound, so a mask is a number whose bits are the lines; that no bit stands above `N_LINES - 1` is part of
the invariant (log 4). -/
abbrev BusLine := Nat

/-- A DeviceAddress, 64 bits in wire order: wire position `p` is bit `p`, so byte `i` is bits
`8*i+7` to `8*i` (30_encoding R112, 10_state R24). -/
abbrev DeviceAddress := BitVec 64

/-- The nine bytes of a ScratchpadImage inside a device, byte `i` in bits `8*i+7` to `8*i`
(10_state R25). -/
abbrev Scratchpad := BitVec 72

end Sys2Proof
end

