-- ==== Sys2Proof/Config.lean ====
section
/-! DEFINITION. What an implementation fixes (the parameters of 00_scope R9, plain data) and the values
the spec leaves open (opaque, no body). -/

namespace Sys2Proof

/-- The CRC feedback constant, the source's own (00_scope R9 `CRC_POLY`, 43_crc8 R190). -/
def Config.crcPoly : Byte := 0x8C

/-- The parameters of 00_scope R9. A State carries them as data that no step changes, so a statement
about every state holds for every value of every parameter. DESIGN CHOICE (log 3): safe. -/
structure Params where
  /-- `N_LINES`, 1 or more: no upper bound (00_scope R9) -/
  nLines : Nat
  /-- `REGISTRY_CAPACITY`, 1 to 255 -/
  registryCapacity : Nat
  /-- `MAX_BUSES`, 1 to 64 -/
  maxBuses : Nat
  /-- `GUARD_MAX`, 2 to 7 -/
  guardMax : Nat
  /-- `CMD_SEARCH_ROM` -/
  cmdSearchRom : Byte
  /-- `SEARCH_SENDS_COMMAND` (44_rom_search R204) -/
  searchSendsCommand : Bool
  /-- `CMD_READ_ROM` -/
  cmdReadRom : Byte
  /-- `CMD_MATCH_ROM` -/
  cmdMatchRom : Byte
  /-- `CMD_SKIP_ROM` -/
  cmdSkipRom : Byte
  /-- `CMD_CONVERT_T` -/
  cmdConvertT : Byte
  /-- `CMD_WRITE_SCRATCHPAD` -/
  cmdWriteScratchpad : Byte
  /-- `CMD_READ_SCRATCHPAD` -/
  cmdReadScratchpad : Byte
  /-- `CMD_COPY_SCRATCHPAD` -/
  cmdCopyScratchpad : Byte
  /-- `CRC_INIT` -/
  crcInit : Byte
  /-- `T_RSTL`, µs -/
  tRstl : Nat
  /-- `T_PDS`, µs -/
  tPds : Nat
  /-- `T_PDH`, µs -/
  tPdh : Nat
  /-- `T_W1L`, µs -/
  tW1l : Nat
  /-- `T_SLOT_W`, µs -/
  tSlotW : Nat
  /-- `T_RL`, µs -/
  tRl : Nat
  /-- `T_RS`, µs -/
  tRs : Nat
  /-- `T_SLOT_R`, µs -/
  tSlotR : Nat
  /-- `T_REC`, µs -/
  tRec : Nat
  /-- `T_SPU`, µs: an upper bound on a latency the model does not show (log 17) -/
  tSpu : Nat
  deriving DecidableEq, Repr

/-- The defaults of 00_scope R9. -/
def Params.default : Params where
  nLines := 8
  registryCapacity := 8
  maxBuses := 8
  guardMax := 7
  cmdSearchRom := 0xF0
  searchSendsCommand := true
  cmdReadRom := 0x33
  cmdMatchRom := 0x55
  cmdSkipRom := 0xCC
  cmdConvertT := 0x44
  cmdWriteScratchpad := 0x4E
  cmdReadScratchpad := 0xBE
  cmdCopyScratchpad := 0x48
  crcInit := 0x00
  tRstl := 480
  tPds := 60
  tPdh := 420
  tW1l := 6
  tSlotW := 60
  tRl := 6
  tRs := 9
  tSlotR := 45
  tRec := 1
  tSpu := 10

/-- The lines that exist: bits `N_LINES-1` to 0 (10_state R41). -/
def Params.lineMask (p : Params) : BusLine := 2 ^ p.nLines - 1

/-- FREE VALUE (log 5): whether some device pulls line `l` low at the `n`-th sample, on a line whose
environment is unconstrained (20_memory section 5, 93 U4 U8 U9 U28), and whether a busy device holds its
line low outside slots (20_memory R80, log 9). Nothing constrains it; safe. -/
opaque Config.drawPull : (n l : Nat) → Bool

/-- FREE VALUE (log 6): the level of line `l` at the `n`-th sample where 20_memory R72 says `draw()`
(contention with a strong pull-up; a line nobody drives with no pull-up; 93 U10, U11); safe. -/
opaque Config.drawLevel : (n l : Nat) → Bool

/-- FREE VALUE (log 13): HOST_IE after a reset that hit inside a guarded primitive (70 R311, 93 U25), applied
to the sample counter; safe. -/
opaque Config.drawIe : (n : Nat) → Bool

end Sys2Proof
end

