-- ==== Sys2Proof/Syntax.lean ====
section
/-! DEFINITION. The commands (one constructor per row of spec/opcode_table.json), the fields of a command
word, the host's accesses, and the inputs from outside the block. -/

namespace Sys2Proof

/-- Bit `A` of an addressed command (30_encoding R102): the source's optional device identifier. -/
inductive Addressing where
  /-- `A = 0`: no identifier, skip addressing -/
  | skip
  /-- `A = 1`: the identifier in `ADDR[0..7]`, match addressing -/
  | matched
  deriving DecidableEq, Repr

/-- The 25 host commands (30_encoding R104), in the table's order. Operands are never in the word (R103)
but for the addressing flag of the five addressed commands. -/
inductive Instr where
  | configureOutput
  | driveLow
  | releaseHigh
  | readLevel
  | configureInput
  | driveHigh
  | guardEnter
  | guardExit
  | reset
  | writeBit
  | readBit
  | writeByte
  | readByte
  | crc8
  | validate
  | searchInit
  | searchPass
  | discover
  | convert (a : Addressing)
  | readScratchpad (a : Addressing)
  | writeScratchpad (a : Addressing)
  | copyScratchpad (a : Addressing)
  | readRom
  | decodeTemperature
  | readTemperature (a : Addressing)
  deriving DecidableEq, Repr

/-- The fields of format C8 (30_encoding R101): `OP` in bits 4:0, `Z` in bits 6:5, `A` in bit 7. -/
structure CommandWord where
  op : BitVec 5
  z : BitVec 2
  a : Bool
  deriving DecidableEq, Repr

/-- The host's two accesses to the register space (46_common_semantics R356). A value is a number, because a
BusLine cell is `N_LINES` bits wide (10_state R41); a narrower cell takes the low bits (log 4). -/
inductive HostAccess where
  /-- `R n` -/
  | read (n : Byte)
  /-- `W n v`; `W 0 v` starts command `v` -/
  | write (n : Byte) (v : Nat)
  deriving DecidableEq, Repr

/-- What the world outside the block can do to it, one input a step (log 1). -/
inductive Input where
  /-- a register access of the host (46 R356) -/
  | access (h : HostAccess)
  /-- the host changes its interrupt enable (10_state R44) -/
  | setHostIe (b : Bool)
  /-- the preempting collaborator runs (41 R155, 60 R281) -/
  | preempt
  /-- the reset input, between commands (70 R310) -/
  | reset
  /-- the host writes `w` to CMD, and the reset input hits while that command runs: after `k` of its primitives
  have ended, inside the next one if `torn` (70 R310, R311; log 13) -/
  | resetInside (w : Byte) (k : Nat) (torn : Bool)
  /-- a device is connected to a line (70 R325; log 26) -/
  | attach (line : Nat) (addr : DeviceAddress) (sp : Scratchpad)
  /-- the `i`-th device leaves (70 R325; log 26) -/
  | detach (i : Nat)
  /-- the environment's choice of the instant at which a conversion of the `i`-th device ends, and of its reading: now
  for `n = 0`; else, for the first conversion without one, running or still to start, right after its `n`-th slot, also
  inside the command that starts it (20_memory R84; log 26) -/
  | conversionEnds (i n : Nat) (reading : BitVec 16)
  deriving DecidableEq, Repr

end Sys2Proof
end

