-- ==== Sys2Proof/WellFormed.lean ====
section
/-! DEFINITION. The checks on syntax: legal command words (30_encoding R101 to R106), host accesses
(46 R356), parameters (00_scope R9, 70 R330). -/

namespace Sys2Proof

/-- `Z` must be 00 (30_encoding R101). -/
def CommandWord.zClear (c : CommandWord) : Bool := c.z == 0

/-- `OP` is none of the seven reserved opcodes (30_encoding R106). -/
def CommandWord.opAssigned (c : CommandWord) : Bool :=
  !([0x0D, 0x0E, 0x0F, 0x12, 0x13, 0x17, 0x1F].contains c.op)

/-- `OP` is one of the five addressed commands (30_encoding R102). -/
def CommandWord.opAddressed (c : CommandWord) : Bool :=
  [0x18, 0x19, 0x1A, 0x1B, 0x1E].contains c.op

/-- `A = 1` stands only on an addressed command (30_encoding R106). -/
def CommandWord.flagAllowed (c : CommandWord) : Bool := !c.a || c.opAddressed

/-- A legal command word: none of the three grounds of 30_encoding R106 applies. -/
def CommandWord.wf (c : CommandWord) : Bool := c.zClear && c.opAssigned && c.flagAllowed

/-- Register numbers run 0x00 to 0x7F (10_state R41, 46 R356). -/
def HostAccess.wf : HostAccess → Bool
  | .read n => decide (n.toNat < 0x80)
  | .write n _ => decide (n.toNat < 0x80)

/-- The ranges of 00_scope R9; `N_LINES` has no upper bound. -/
def Params.sizesWf (p : Params) : Bool :=
  decide (1 ≤ p.nLines) &&
  decide (1 ≤ p.registryCapacity) && decide (p.registryCapacity ≤ 255) &&
  decide (1 ≤ p.maxBuses) && decide (p.maxBuses ≤ 64) &&
  decide (2 ≤ p.guardMax) && decide (p.guardMax ≤ 7)

/-- The constraints on the time parameters that 70 R330 states as bounds, and that the phases of a slot
fit the slot. DESIGN CHOICE (log 17): the figures that R330 gives as approximate and without a tolerance, `T_SLOT_W`
"~60", `T_SLOT_R` "~45" and `T_RS` "a few microseconds", get no bound of their own beyond the slot's fit, and
`T_SPU`, for which the source has nothing, gets none; safe: statements hold for every value. -/
def Params.timesWf (p : Params) : Bool :=
  decide (480 ≤ p.tRstl) && decide (15 ≤ p.tPds) && decide (p.tPds ≤ 60) &&
  decide (300 ≤ p.tPds + p.tPdh) &&
  decide (1 ≤ p.tW1l) && decide (p.tW1l ≤ 15) && decide (p.tW1l ≤ p.tSlotW) &&
  decide (1 ≤ p.tRl) && decide (p.tRl ≤ 15) && decide (p.tRl + p.tRs < p.tSlotR) &&
  decide (1 ≤ p.tRec)

/-- Parameters inside the ranges the spec gives them. -/
def Params.wf (p : Params) : Bool := p.sizesWf && p.timesWf

end Sys2Proof
end

