-- ==== Sys2Proof/Decode.lean ====
section
/-! DEFINITION. The decoder, total on all 256 command words, rejecting by name (30_encoding R101 to R106),
and after it the encoder, written from the opcode map (R104). -/

namespace Sys2Proof

/-- Why a command word is illegal (30_encoding R106). The step answers each of them with the same
outcome, IllegalCommand; the name only says which ground it was. -/
inductive DecodeError where
  /-- `Z` is not 00 -/
  | zNotClear
  /-- `OP` is a reserved opcode -/
  | reservedOpcode
  /-- `A = 1` on a command that is not addressed -/
  | flagNotAllowed
  deriving DecidableEq, Repr

/-- The fields of a word, format C8 (30_encoding R101). -/
def commandFields (w : Byte) : CommandWord where
  op := w.extractLsb' 0 5
  z := w.extractLsb' 5 2
  a := w.getLsbD 7

/-- `A` as the addressing of an addressed command (30_encoding R102). -/
def addressingOf (a : Bool) : Addressing := if a then .matched else .skip

/-- The row of the opcode map (30_encoding R104) with this opcode; `none` for a reserved opcode. -/
def opcodeRow (op : BitVec 5) (a : Addressing) : Option Instr :=
  match op.toNat with
  | 0x00 => some .configureOutput
  | 0x01 => some .driveLow
  | 0x02 => some .releaseHigh
  | 0x03 => some .readLevel
  | 0x04 => some .configureInput
  | 0x05 => some .driveHigh
  | 0x06 => some .guardEnter
  | 0x07 => some .guardExit
  | 0x08 => some .reset
  | 0x09 => some .writeBit
  | 0x0A => some .readBit
  | 0x0B => some .writeByte
  | 0x0C => some .readByte
  | 0x10 => some .crc8
  | 0x11 => some .validate
  | 0x14 => some .searchInit
  | 0x15 => some .searchPass
  | 0x16 => some .discover
  | 0x18 => some (.convert a)
  | 0x19 => some (.readScratchpad a)
  | 0x1A => some (.writeScratchpad a)
  | 0x1B => some (.copyScratchpad a)
  | 0x1C => some .readRom
  | 0x1D => some .decodeTemperature
  | 0x1E => some (.readTemperature a)
  | _ => none

/-- Decoding of the fields: the three grounds of 30_encoding R106, then the row. -/
def decodeFields (c : CommandWord) : Except DecodeError Instr :=
  if c.zClear then
    match opcodeRow c.op (addressingOf c.a) with
    | none => .error .reservedOpcode
    | some i => if c.flagAllowed then .ok i else .error .flagNotAllowed
  else .error .zNotClear

/-- Decoding of a command word (30_encoding R105): total. -/
def decode (w : Byte) : Except DecodeError Instr := decodeFields (commandFields w)

/-- The instruction of a word numbered as spec/opcode_table.json numbers it: one byte, written to CMD
(30_encoding R100). A row of the table has `nbits = 8`. -/
def decodeTableWord (nbits w : Nat) : Option Instr :=
  match decode (BitVec.ofNat 8 (w % 2 ^ nbits)) with
  | .ok i => some i
  | .error _ => none

/-- The opcode of a command (30_encoding R104, column OP). -/
def opcodeOf : Instr → BitVec 5
  | .configureOutput => 0x00
  | .driveLow => 0x01
  | .releaseHigh => 0x02
  | .readLevel => 0x03
  | .configureInput => 0x04
  | .driveHigh => 0x05
  | .guardEnter => 0x06
  | .guardExit => 0x07
  | .reset => 0x08
  | .writeBit => 0x09
  | .readBit => 0x0A
  | .writeByte => 0x0B
  | .readByte => 0x0C
  | .crc8 => 0x10
  | .validate => 0x11
  | .searchInit => 0x14
  | .searchPass => 0x15
  | .discover => 0x16
  | .convert _ => 0x18
  | .readScratchpad _ => 0x19
  | .writeScratchpad _ => 0x1A
  | .copyScratchpad _ => 0x1B
  | .readRom => 0x1C
  | .decodeTemperature => 0x1D
  | .readTemperature _ => 0x1E

/-- The addressing flag of a command (30_encoding R102); 0 where the command has none. -/
def flagOf : Instr → Bool
  | .convert a | .readScratchpad a | .writeScratchpad a | .copyScratchpad a | .readTemperature a =>
    match a with
    | .skip => false
    | .matched => true
  | .configureOutput | .driveLow | .releaseHigh | .readLevel | .configureInput | .driveHigh
  | .guardEnter | .guardExit | .reset | .writeBit | .readBit | .writeByte | .readByte
  | .crc8 | .validate | .searchInit | .searchPass | .discover | .readRom | .decodeTemperature => false

/-- The fields of a command's word: `Z` is 00 (30_encoding R101). -/
def fieldsOf (i : Instr) : CommandWord := { op := opcodeOf i, z := 0, a := flagOf i }

/-- The word of given fields: `A` in bit 7, `Z` in 6:5, `OP` in 4:0 (30_encoding R101). -/
def wordOf (c : CommandWord) : Byte := BitVec.ofBool c.a ++ c.z ++ c.op

/-- The word of a command. -/
def encode (i : Instr) : Byte := wordOf (fieldsOf i)

end Sys2Proof
end

