-- ==== Sys2Proof/Machine/State.lean ====
section
/-! DEFINITION. The state of the block and of its environment as plain data (10_state), the stops, and the
state after reset (10_state R48, 70 R310). -/

namespace Sys2Proof.Machine

/-- A storage space: (index, value) pairs, indices strictly rising, no pair with the value 0, which is what an
unlisted cell reads as: the spec's reset value of every cell (10_state R48; log 18). -/
abbrev Store (α : Type) := List (Nat × α)

/-- A storage space of byte cells: a list of `Host.Cell` (20_memory R61). -/
abbrev Memory := Store Byte

/-- A storage space of BusLine cells, `N_LINES` bits wide each (10_state R41, 20_memory R63). -/
abbrev LineStore := Store BusLine

/-- The sequencer position SEQ (10_state R33). -/
structure Seq where
  /-- opcode of the running command; keeps the last one when idle (log 15) -/
  op : BitVec 5
  idle : Bool
  bitcnt : BitVec 3
  bytecnt : BitVec 4
  pos : BitVec 7
  deriving DecidableEq, Repr

/-- The operand and result registers of the register space (10_state R21 to R24, R26, R38, R39). -/
structure Regs where
  txd : Byte
  rxd : Byte
  argTh : Byte
  argTl : Byte
  argCfg : Byte
  /-- `ADDR[0..7]` in wire order -/
  addr : DeviceAddress
  temp : BitVec 16
  bussel : BusLine
  regidx : Byte
  /-- `LEN`, four bits; bits 7:4 of the cell read 0 (10_state R39) -/
  len : BitVec 4
  nbus : Byte
  deriving DecidableEq, Repr

/-- The stored fields of STATUS (10_state R36); SPU, GRD and BUSY are computed. -/
structure StatusBits where
  /-- the code of the last completed command (60 R271) -/
  err : BitVec 3
  pres : Bool
  last : Bool
  deriving DecidableEq, Repr

/-- The search state (LDISC, PREV_ID) of 10_state R27 and R40. -/
structure SearchState where
  /-- `VALID` in bit 6, `POS` in bits 5:0 (10_state R40); bit 7 of the cell reads 0 -/
  ldisc : BitVec 7
  /-- `PREV_ID[0..7]` in wire order -/
  prevId : DeviceAddress
  deriving DecidableEq, Repr

/-- The line drivers (10_state R42). -/
structure Lines where
  dir : BusLine
  out : BusLine
  strong : BusLine
  deriving DecidableEq, Repr

/-- GUARD (10_state R43). -/
structure Guard where
  depth : BitVec 3
  savedIe : Bool
  deriving DecidableEq, Repr

/-- The discovery registry (20_memory R62): COUNT and the entries. Entry `j` has its BusLine in cell `j` of
`lines` and its eight address bytes in the cells of `addrs` from `8*j` on (log 19). -/
structure Registry where
  count : Byte
  lines : LineStore
  addrs : Memory
  deriving DecidableEq, Repr

/-- The driver state of a line (10_state R42), and what `LineDrive` sets (41 R141). -/
inductive Drive where
  /-- driven low -/
  | low
  /-- released to the pull-up -/
  | rel
  /-- driven actively high: strong pull-up -/
  | high
  deriving DecidableEq, Repr

/-- Why a line is sampled: the devices answer a bus reset, a read slot, and a raw level read
differently (20_memory R75, R76, R80). -/
inductive SampleKind where
  /-- READ_LEVEL, outside any slot -/
  | idle
  /-- the presence sample of RESET -/
  | presence
  /-- the sample of a read slot -/
  | slot
  deriving DecidableEq, Repr

/-- The transaction mode of an ideal responder (20_memory R84). -/
inductive DeviceMode where
  /-- receiving a ROM command: `n` bits so far in `acc` -/
  | romCmd (n : Nat) (acc : Byte)
  /-- comparing written bits with its address, next position `p` -/
  | matchRom (p : Nat)
  /-- in a search, position `p`: phase 0 sends the bit, 1 its complement, 2 awaits the written bit -/
  | search (p phase : Nat)
  /-- sending the low `left` bits of `bits`, then 1s -/
  | send (bits : BitVec 72) (left : Nat)
  /-- receiving a function command: `n` bits so far in `acc` -/
  | funcCmd (n : Nat) (acc : Byte)
  /-- after the convert command: read slots tell busy -/
  | convert
  /-- receiving the three scratchpad bytes: `n` bits so far in `acc` -/
  | recv (n : Nat) (acc : BitVec 24)
  /-- silent until the next bus reset -/
  | off
  deriving DecidableEq, Repr

/-- An ideal responder (20_memory R84); environment, not block. -/
structure Device where
  line : Nat
  addr : DeviceAddress
  sp : Scratchpad
  /-- the nonvolatile copy of scratchpad bytes 2, 3 and 4 -/
  nv : BitVec 24
  busy : Bool
  /-- the ends the environment has chosen for conversions to come, the running one's first: each is how many slots the
  device hears before the one right after which the conversion ends, and the reading (log 26) -/
  due : List (Nat × BitVec 16)
  mode : DeviceMode
  deriving DecidableEq, Repr

/-- One event of the wire history (42 R173). -/
inductive Slot where
  /-- a bus reset, and whether presence was sampled -/
  | rst (presence : Bool)
  /-- a write slot carrying this bit -/
  | w (bit : Bool)
  /-- a read slot that sampled this bit -/
  | r (sample : Bool)
  /-- a primitive that the reset input cut short: no event of R173, marks where it stood (log 13) -/
  | cut
  deriving DecidableEq, Repr

/-- A slot and the lines it ran on. -/
structure WireEvent where
  mask : BusLine
  slot : Slot
  deriving DecidableEq, Repr

/-- The bus as the block meets it: electrical parameters, devices, history (20_memory R72 to R84). -/
structure BusEnv where
  /-- `pullup(l)`: a launch parameter (20_memory R72) -/
  pullup : BusLine
  /-- the lines whose environment is unconstrained: every answer is a free value (log 5) -/
  oracle : BusLine
  /-- the ideal responders on the other lines (20_memory R84) -/
  devices : List Device
  /-- how many samples have been taken: the argument of the free values (log 7) -/
  samples : Nat
  /-- the wire history, oldest first (42 R173; log 20) -/
  wire : List WireEvent
  deriving DecidableEq, Repr

/-- The host's side: its interrupt enable (10_state R44), what the world will do next (log 1), and the
value its last register read returned (log 21). -/
structure HostSide where
  ie : Bool
  inputs : List Input
  rdata : Nat
  deriving DecidableEq, Repr

/-- The machine: everything 10_state and 20_memory give the block, its parameters, and its environment. -/
structure State where
  params : Params
  seq : Seq
  regs : Regs
  status : StatusBits
  search : SearchState
  lines : Lines
  guard : Guard
  /-- `BUF[0..8]` (20_memory R61) -/
  buf : Memory
  registry : Registry
  /-- `BUSLIST`, one BusLine an entry (20_memory R63) -/
  buslist : LineStore
  env : BusEnv
  host : HostSide
  deriving DecidableEq, Repr

/-- The outcome of a command (60 R271). Code 6 is reserved and has no name. -/
inductive ErrCode where
  | ok
  | noPresence
  | commError
  | crcError
  | pullupMissing
  | discoveryError
  | illegalCommand
  deriving DecidableEq, Repr

/-- What an operation inside a command answers: a value and the state, or a `raise` and the state the
pseudocode had reached, nothing rolled back (60 R276). -/
inductive Run (α : Type) where
  | ok (a : α) (s : State)
  | raised (e : ErrCode) (s : State)
  deriving Repr

/-- Stops. -/
inductive Fault where
  /-- Raised by a host access (`perform`) to a register number above 0x7F, which "does not exist in the
  interface" (46 R356). Safe: the machine stops where the spec gives no access (log 23). -/
  | noSuchRegister (n : Byte)
  deriving DecidableEq, Repr

/-- Actions without a move. None is raised by a command. -/
inductive Refusal where
  /-- Raised by an arm of `exec` whose instruction has no meaning yet; no arm does. Safe. -/
  | notModelled (mnemonic : String)
  /-- Raised by `step` for an input other than the reset while a command runs (70 R320, 93 U14). Safe. -/
  | sequencerBusy
  /-- Raised by `perform` when the host changes HOST_IE inside a guard (70 R323, 93 U26). Safe. -/
  | hostIeInsideGuard
  /-- Raised by `perform` when the collaborator would run while HOST_IE = 0 (41 R155, 60 R281). Safe. -/
  | preemptMasked
  /-- Raised by `perform` when a device that is not converting ends a conversion now, or one that is absent ends one
  at all (log 26). Safe. -/
  | noConversion
  deriving DecidableEq, Repr

/-- The machine right after reset, for every launch input of 70 R310, 10_state R44, R46: the parameters,
the bus environment, HOST_IE and the inputs to come. Every block register has the value of 10_state R48. -/
def State.launch (p : Params) (env : BusEnv) (host : HostSide) : State where
  params := p
  seq := { op := 0, idle := true, bitcnt := 0, bytecnt := 0, pos := 0 }
  regs :=
    { txd := 0, rxd := 0, argTh := 0, argTl := 0, argCfg := 0, addr := 0, temp := 0, bussel := 0,
      regidx := 0, len := 0, nbus := 0 }
  status := { err := 0, pres := false, last := true }
  search := { ldisc := 0, prevId := 0 }
  lines := { dir := 0, out := p.lineMask, strong := 0 }
  guard := { depth := 0, savedIe := false }
  buf := []
  registry := { count := 0, lines := [], addrs := [] }
  buslist := []
  env := env
  host := host

/-- The bus environment at launch: every pull-up present, every line's environment unconstrained.
DESIGN CHOICE (log 12): unsafe for the pull-ups, which are a launch parameter. -/
def BusEnv.atLaunch (p : Params) : BusEnv where
  pullup := p.lineMask
  oracle := p.lineMask
  devices := []
  samples := 0
  wire := []

/-- The host at launch: no input pending, and HOST_IE = 0. DESIGN CHOICE (log 11): unsafe, HOST_IE is a
launch input (10_state R44). -/
def HostSide.atLaunch : HostSide where
  ie := false
  inputs := []
  rdata := 0

/-- The state after reset: the reset values of 10_state R48, the default parameters of 00_scope R9, and
the launch inputs the log names (log 3, 11, 12). -/
def State.reset : State := State.launch Params.default (BusEnv.atLaunch Params.default) HostSide.atLaunch

end Sys2Proof.Machine
end

