-- ==== Sys2Proof/Machine/Ops.lean ====
section
/-! DEFINITION. The named operations over storage, lines, guard and sequencer that the meanings share:
storage cells, the line driver, the guard, the search state, `raise` and the end of a command, reset. -/

namespace Sys2Proof.Machine

/-! Bit fields. -/

/-- `v` with bit `k` set to `b`. -/
def setBit {w : Nat} (v : BitVec w) (k : Nat) (b : Bool) : BitVec w :=
  (v &&& ~~~(BitVec.twoPow w k)) ||| (if b then BitVec.twoPow w k else 0)

/-- Byte `i` of a value, least-significant byte first (20_memory R66, 30_encoding R112). -/
def byteAt {w : Nat} (v : BitVec w) (i : Nat) : Byte := v.extractLsb' (8 * i) 8

/-- `v` with byte `i` replaced. -/
def setByte {w : Nat} (v : BitVec w) (i : Nat) (b : Byte) : BitVec w :=
  (v &&& ~~~((0xFF : Byte).setWidth w <<< (8 * i))) ||| (b.setWidth w <<< (8 * i))

/-- The bits of `m` that are not bits of `k`. -/
def clearBits (m k : BusLine) : BusLine := m ^^^ (m &&& k)

/-! Storage (20_memory R61 to R63). -/

/-- `MemRead` of one cell: the listed value, 0 where nothing is listed (10_state R48). -/
def Store.read {α : Type} [OfNat α 0] : Store α → Nat → α
  | [], _ => 0
  | (k, v) :: m, a => if a = k then v else Store.read m a

/-- `MemWrite` of one cell, keeping the canonical form: writing 0 unlists the cell. -/
def Store.write {α : Type} [OfNat α 0] [DecidableEq α] : Store α → Nat → α → Store α
  | [], a, b => if b = 0 then [] else [(a, b)]
  | (k, v) :: m, a, b =>
    if a < k then (if b = 0 then (k, v) :: m else (a, b) :: (k, v) :: m)
    else if a = k then (if b = 0 then m else (a, b) :: m)
    else (k, v) :: Store.write m a b

/-- The canonical form from index `lo` on: indices strictly rising, no 0 listed. -/
def Store.wfFrom {α : Type} [OfNat α 0] [DecidableEq α] : Store α → Nat → Bool
  | [], _ => true
  | (k, v) :: m, lo => decide (lo ≤ k) && decide (v ≠ 0) && Store.wfFrom m (k + 1)

/-- The canonical form of a storage space. -/
def Store.wf {α : Type} [OfNat α 0] [DecidableEq α] (m : Store α) : Bool := m.wfFrom 0

/-! The registry (20_memory R62). -/

/-- The BusLine of entry `j`. -/
def Registry.lineOf (r : Registry) (j : Nat) : BusLine := r.lines.read j

/-- Address byte `i` of entry `j`. -/
def Registry.addrByte (r : Registry) (j i : Nat) : Byte := r.addrs.read (8 * j + i)

/-- `MemWrite(REGISTRY, j, 1, {line, addr})`. -/
def Registry.writeEntry (r : Registry) (j : Nat) (line : BusLine) (addr : DeviceAddress) : Registry :=
  { r with
    lines := r.lines.write j line,
    addrs := (List.range 8).foldl (fun m i => m.write (8 * j + i) (byteAt addr i)) r.addrs }

/-! Line drivers (10_state R42, 41 R141). -/

/-- `drv(l)` (10_state R42). -/
def Lines.drv (ln : Lines) (l : Nat) : Drive :=
  if ln.dir.testBit l then
    if ln.out.testBit l then (if ln.strong.testBit l then .high else .rel) else .low
  else .rel

/-- `LineDrive(mask, s)` on the latches (41 R141). -/
def Lines.drive (ln : Lines) (m : BusLine) : Drive → Lines
  | .low => { dir := ln.dir ||| m, out := clearBits ln.out m, strong := clearBits ln.strong m }
  | .rel => { dir := ln.dir ||| m, out := ln.out ||| m, strong := clearBits ln.strong m }
  | .high => { dir := ln.dir ||| m, out := ln.out ||| m, strong := ln.strong ||| m }

/-- `LineDrive(mask, s)` (41 R141). -/
def State.lineDrive (m : BusLine) (d : Drive) (s : State) : State :=
  { s with lines := s.lines.drive m d }

/-- `Delay(t)`: "a step with no effect on state" (60 R295). -/
def State.delay (_us : Nat) (s : State) : State := s

/-! The guard (41 R149, R150). -/

/-- `GuardEnter()` (41 R149). -/
def State.guardEnter (s : State) : State :=
  { s with
    guard := { depth := s.guard.depth + 1,
               savedIe := if s.guard.depth = 0 then s.host.ie else s.guard.savedIe },
    host := { s.host with ie := false } }

/-- `GuardExit()` (41 R150). -/
def State.guardExit (s : State) : State :=
  { s with
    guard := { s.guard with depth := s.guard.depth - 1 },
    host := { s.host with
              ie := if s.guard.depth - 1 = 0 then s.guard.savedIe else s.host.ie } }

/-! The search state (44 R200). -/

/-- `SearchStateInit()`: the body of 44_rom_search R200. -/
def State.searchInit (s : State) : State :=
  { s with
    search := { ldisc := 0, prevId := 0 },
    status := { s.status with last := true } }

/-! The sequencer counters (10_state R33, R34). -/

/-- `SEQ.BITCNT <- k`. -/
def State.setBitcnt (k : Nat) (s : State) : State :=
  { s with seq := { s.seq with bitcnt := BitVec.ofNat 3 k } }

/-- `SEQ.BYTECNT <- i`. -/
def State.setBytecnt (i : Nat) (s : State) : State :=
  { s with seq := { s.seq with bytecnt := BitVec.ofNat 4 i } }

/-- `SEQ.POS <- p`. -/
def State.setPos (p : Nat) (s : State) : State :=
  { s with seq := { s.seq with pos := BitVec.ofNat 7 p } }

/-! Results. -/

/-- `x[RXD] <- v`. -/
def State.setRxd (v : Byte) (s : State) : State := { s with regs := { s.regs with rxd := v } }

/-- `MemWrite(BUF, i, 1, v)`. -/
def State.setBuf (i : Nat) (v : Byte) (s : State) : State := { s with buf := s.buf.write i v }

/-- `x[COUNT] <- v`. -/
def State.setCount (v : Byte) (s : State) : State :=
  { s with registry := { s.registry with count := v } }

/-! The frame around every command, and `raise` (46 R350, 60 R276). -/

/-- The codes of 60_exceptions R271. -/
def ErrCode.code : ErrCode → BitVec 3
  | .ok => 0
  | .noPresence => 1
  | .commError => 2
  | .crcError => 3
  | .pullupMissing => 4
  | .discoveryError => 5
  | .illegalCommand => 7

/-- The start of a command: `SEQ.IDLE <- 0; SEQ.OP <- w[4:0]` (46 R350). -/
def State.start (op : BitVec 5) (s : State) : State :=
  { s with seq := { s.seq with op := op, idle := false } }

/-- The end of a command with outcome `e`, normal or by `raise`: `STATUS.ERR <- e`, the sequencer idle,
its counters 0 (46 R350, 60 R276 (3) and (4)). Nothing is saved and control goes nowhere. -/
def State.finish (e : ErrCode) (s : State) : State :=
  { s with
    status := { s.status with err := e.code },
    seq := { s.seq with idle := true, bitcnt := 0, bytecnt := 0, pos := 0 } }

/-- Go on after an operation that may have raised; a `raise` propagates unchanged (60 R283). -/
def Run.bind {α β : Type} (r : Run α) (f : α → State → Run β) : Run β :=
  match r with
  | .ok a s => f a s
  | .raised e s => .raised e s

/-- The end of a command whose rule gave `r`. -/
def Run.close (r : Run Unit) : State :=
  match r with
  | .ok _ s => s.finish .ok
  | .raised e s => s.finish e

/-- The frame of 46_common_semantics R350 around a command's rule. -/
def runCommand (op : BitVec 5) (rule : State → Run Unit) (s : State) :
    Host.Outcome State Fault Refusal :=
  .next (rule (s.start op)).close

/-! Reset (70 R310, R311). -/

/-- The reset input: every block register to 10_state R48. Parameters, devices, HOST_IE and what the world
will do next are not the block's to reset (70 R310, R311). -/
def State.blockReset (s : State) : State := State.launch s.params s.env s.host

end Sys2Proof.Machine
end

