-- ==== Sys2Proof/Machine/Operands.lean ====
section
/-! DEFINITION. The operand forms of the commands (30_encoding R104, 46 R357): bits and bytes of registers,
the buffer window, identifier bits, registry addresses. -/

namespace Sys2Proof.Machine

/-- `zext_8` of one bit (46 R352). -/
def zext8 (b : Bool) : Byte := if b then 1 else 0

/-- `BUF[0 .. n-1]` (43_crc8 R191). -/
def State.bufWindow (s : State) (n : Nat) : List Byte := (List.range n).map s.buf.read

/-- `idbit(ID, p)`: bit `p & 7` of byte `ID[p >> 3]` (30_encoding R112). -/
def idBit (id : DeviceAddress) (p : Nat) : Bool := id.getLsbD p

/-- The first `n` bytes of an identifier, byte 0 first. -/
def addrBytes (id : DeviceAddress) (n : Nat) : List Byte := (List.range n).map (byteAt id)

/-- `LDISC.VALID` (10_state R40). -/
def SearchState.valid (x : SearchState) : Bool := x.ldisc.getLsbD 6

/-- `LDISC.POS` (10_state R40). -/
def SearchState.discPos (x : SearchState) : Nat := (x.ldisc.extractLsb' 0 6).toNat

/-- The value of LDISC for a candidate: 0x40 | cand, or 0x00 for "none" (44 R203). -/
def ldiscOf : Option Nat → BitVec 7
  | none => 0
  | some p => 0x40 ||| BitVec.ofNat 7 p

/-- The first `n` address bytes of registry entry `j`. -/
def Registry.addrBytes (r : Registry) (j n : Nat) : List Byte := (List.range n).map (r.addrByte j)

end Sys2Proof.Machine
end

