-- ==== Sys2Proof/Machine/Flags.lean ====
section
/-! DEFINITION. STATUS: the computed fields and the byte the host reads (10_state R36); GUARD as read
(10_state R43). -/

namespace Sys2Proof.Machine

/-- `STATUS.SPU`: some line with DIR, OUT and STRONG all 1 (10_state R36). -/
def State.spu (s : State) : Bool := decide (s.lines.dir &&& s.lines.out &&& s.lines.strong ≠ 0)

/-- `STATUS.GRD`: `GUARD.DEPTH != 0` (10_state R36). -/
def State.grd (s : State) : Bool := decide (s.guard.depth ≠ 0)

/-- `STATUS.BUSY`: a command is running (10_state R36). -/
def State.busy (s : State) : Bool := !s.seq.idle

/-- STATUS as the host reads it: BUSY, GRD, SPU, LAST, PRES in bits 7 to 3, ERR in 2:0 (10_state R36). -/
def State.statusByte (s : State) : Byte :=
  BitVec.ofBool s.busy ++ BitVec.ofBool s.grd ++ BitVec.ofBool s.spu ++
    BitVec.ofBool s.status.last ++ BitVec.ofBool s.status.pres ++ s.status.err

/-- GUARD as the host reads it: SAVED_IE in bit 7, DEPTH in 2:0, bits 6:3 zero (10_state R43). -/
def State.guardByte (s : State) : Byte :=
  BitVec.ofBool s.guard.savedIe ++ (0 : BitVec 4) ++ s.guard.depth

/-- `STATUS.PRES <- p` (42 R160). -/
def State.setPres (p : Bool) (s : State) : State := { s with status := { s.status with pres := p } }

end Sys2Proof.Machine
end

