-- ==== Sys2Proof/Machine/Crc.lean ====
section
/-! DEFINITION. The CRC-8 function (43_crc8 R190) and the commands CRC8 and VALIDATE (R191, R193). -/

namespace Sys2Proof.Machine

/-- One bit step of 43_crc8 R190: `f <- c[0] ^ bit; c <- c >> 1; if f then c <- c ^ 0x8C`. -/
def crcBit (c : Byte) (bit : Bool) : Byte :=
  if c.getLsbD 0 ^^ bit then (c >>> 1) ^^^ Config.crcPoly else c >>> 1

/-- One byte, bit 0 first: the inner loop of 43_crc8 R190, the `step` of R192. -/
def crcByte (c b : Byte) : Byte := (List.range 8).foldl (fun c k => crcBit c (b.getLsbD k)) c

/-- `crc8` over a byte sequence from the initial value `init` = CRC_INIT (43_crc8 R190). -/
def crc8 (init : Byte) (bytes : List Byte) : Byte := bytes.foldl crcByte init

/-- CRC8 (43_crc8 R191). -/
def crcCommand (s : State) : Run Unit :=
  if 9 < s.regs.len.toNat then .raised .illegalCommand s
  else .ok () (s.setRxd (crc8 s.params.crcInit (s.bufWindow s.regs.len.toNat)))

/-- VALIDATE (43_crc8 R193): a mismatch is a result, not an error. -/
def validateCommand (s : State) : Run Unit :=
  if 9 < s.regs.len.toNat then .raised .illegalCommand s
  else
    .ok () (s.setRxd (zext8 (decide
      (crc8 s.params.crcInit (s.bufWindow s.regs.len.toNat) = s.regs.txd))))

/-- CRC8, word 0x10 (43_crc8 R191). -/
def execCrc8 (s : State) : Host.Outcome State Fault Refusal := runCommand 0x10 crcCommand s

/-- VALIDATE, word 0x11 (43_crc8 R193). -/
def execValidate (s : State) : Host.Outcome State Fault Refusal := runCommand 0x11 validateCommand s

end Sys2Proof.Machine
end

