-- ==== Sys2Proof/Machine/Bus.lean ====
section
/-! DEFINITION. The bus as an electrical space (20_memory R72, R73, 41 R142) and what the devices on it do
(20_memory R75 to R84): the ideal responder, or a free value on a line whose environment is unconstrained. -/

namespace Sys2Proof.Machine

/-! The ideal responder (20_memory R84). -/

/-- The mode after a ROM command byte (20_memory R84). DESIGN CHOICE (log 28): R84 needs the command bytes pairwise
distinct (30_encoding R114) and they are parameters; where two coincide the first of skip, match, search, read in
this order is taken; unsafe only for claims about ideal responders under such parameters. -/
def Device.romFunction (p : Params) (d : Device) (cmd : Byte) : DeviceMode :=
  if cmd = p.cmdSkipRom then .funcCmd 0 0
  else if cmd = p.cmdMatchRom then .matchRom 0
  else if cmd = p.cmdSearchRom then .search 0 0
  else if cmd = p.cmdReadRom then .send (d.addr.setWidth 72) 64
  else .off

/-- The bytes 0 to 7 of a scratchpad, for its CRC. -/
def scratchpadCrc (init : Byte) (sp : Scratchpad) : Byte :=
  crc8 init ((List.range 8).map (byteAt sp))

/-- The scratchpad with byte 8 recomputed: `sp[8] <- crc8(sp[0..7])`. -/
def sealScratchpad (init : Byte) (sp : Scratchpad) : Scratchpad :=
  setByte sp 8 (scratchpadCrc init sp)

/-- What a device does with a function command byte (20_memory R84). After COPY it is silent until the
next reset (log 8). DESIGN CHOICE (log 28): where two of the parameters coincide, the first of convert, read, write,
copy in this order is taken; unsafe as there. DESIGN CHOICE (log 26): a device that is converting has one conversion,
so a further convert command starts no second one; safe: the instant of its end is free all the same. -/
def Device.function (p : Params) (d : Device) (cmd : Byte) : Device :=
  if cmd = p.cmdConvertT then { d with busy := true, mode := .convert }
  else if cmd = p.cmdReadScratchpad then { d with mode := .send d.sp 72 }
  else if cmd = p.cmdWriteScratchpad then { d with mode := .recv 0 0 }
  else if cmd = p.cmdCopyScratchpad then { d with nv := d.sp.extractLsb' 16 24, mode := .off }
  else { d with mode := .off }

/-- The three received bytes go to `sp[2], sp[3], sp[4]` and `sp[8]` is recomputed (20_memory R81, R84). -/
def Device.store (p : Params) (d : Device) (three : BitVec 24) : Device :=
  { d with
    sp := sealScratchpad p.crcInit
      (setByte (setByte (setByte d.sp 2 (byteAt three 0)) 3 (byteAt three 1)) 4 (byteAt three 2)),
    mode := .off }

/-- A bus reset: "goes to mode ROM_CMD" (20_memory R84). -/
def Device.onReset (d : Device) : Device := { d with mode := .romCmd 0 0 }

/-- A write slot carrying `b` (20_memory R77, R84). A write inside a search triplet's read phases is not in
R84: the device goes silent (log 8). -/
def Device.onWrite (p : Params) (b : Bool) (d : Device) : Device :=
  match d.mode with
  | .romCmd n acc =>
    if n = 7 then { d with mode := d.romFunction p (setBit acc 7 b) }
    else { d with mode := .romCmd (n + 1) (setBit acc n b) }
  | .matchRom q =>
    if b = d.addr.getLsbD q then
      { d with mode := if q = 63 then .funcCmd 0 0 else .matchRom (q + 1) }
    else { d with mode := .off }
  | .search q phase =>
    if phase = 2 ∧ b = d.addr.getLsbD q ∧ q < 63 then { d with mode := .search (q + 1) 0 }
    else { d with mode := .off }
  | .funcCmd n acc =>
    if n = 7 then d.function p (setBit acc 7 b)
    else { d with mode := .funcCmd (n + 1) (setBit acc n b) }
  | .recv n acc =>
    if n = 23 then d.store p (setBit acc 23 b)
    else { d with mode := .recv (n + 1) (setBit acc n b) }
  | .send _ _ => d
  | .convert => d
  | .off => d

/-- The bit a device sends in a read slot; `true` is a line left released (20_memory R76, R78, R80, R84). DESIGN CHOICE
(log 9): R80 leaves open in which slots a converting device holds its line low; it answers 0 for busy only in the mode
of the convert command, and after a later bus reset, which ends that mode, it answers as an idle device does, in ROM_CMD,
MATCH and FUNC_CMD with 1; unsafe for claims about a device still converting then. -/
def Device.sends (d : Device) : Bool :=
  match d.mode with
  | .search q phase =>
    if phase = 0 then d.addr.getLsbD q else if phase = 1 then !d.addr.getLsbD q else true
  | .send bits left => decide (left = 0) || bits.getLsbD 0
  | .convert => !d.busy
  | .romCmd _ _ => true
  | .matchRom _ => true
  | .funcCmd _ _ => true
  | .recv _ _ => true
  | .off => true

/-- A read slot consumes one bit of what the device sends (20_memory R71, R84). -/
def Device.onRead (d : Device) : Device :=
  match d.mode with
  | .search q phase => { d with mode := .search q (if phase < 2 then phase + 1 else phase) }
  | .send bits left => { d with mode := .send (bits >>> 1) (left - 1) }
  | .convert => d
  | .romCmd _ _ => d
  | .matchRom _ => d
  | .funcCmd _ _ => d
  | .recv _ _ => d
  | .off => d

/-- The end of a conversion: `sp[0..1] <-` the reading, `sp[8]` recomputed, `busy <- false` (20_memory R84). What was
chosen for it is used up. -/
def Device.endConversion (p : Params) (reading : BitVec 16) (d : Device) : Device :=
  { d with
    sp := sealScratchpad p.crcInit (setByte (setByte d.sp 0 (byteAt reading 0)) 1 (byteAt reading 1)),
    busy := false, due := d.due.tail }

/-- One more slot has passed on the line of a device, the one that started its conversion among them: the end the
environment has chosen for a running conversion comes nearer, or is now (20_memory R84; log 26). -/
def Device.tick (p : Params) (d : Device) : Device :=
  if d.busy then
    match d.due with
    | [] => d
    | (0, reading) :: _ => d.endConversion p reading
    | (n + 1, reading) :: rest => { d with due := (n, reading) :: rest }
  else d

/-- What a slot does to a device that hears it (20_memory R75 to R84). A primitive cut short moves nothing here:
what it does to the devices is open (log 13). -/
def Device.react (p : Params) (x : Slot) (d : Device) : Device :=
  match x with
  | .rst _ => d.onReset
  | .w b => d.onWrite p b
  | .r _ => d.onRead
  | .cut => d

/-- A device hears a slot: its reaction, and the time the slot takes. -/
def Device.hear (p : Params) (x : Slot) (d : Device) : Device := (d.react p x).tick p

/-- Whether a device pulls its line low at a sample: a presence pulse (20_memory R75), a 0 in a read slot
(R76); outside slots a busy device "may" (R80): the free value `may` (log 9). -/
def Device.pulls (k : SampleKind) (may : Bool) (d : Device) : Bool :=
  match k with
  | .presence => true
  | .slot => !d.sends
  | .idle => d.busy && may

/-! The lines (20_memory R72, R73). -/

/-- A device hears the slots on its line when the line is selected and has its pull-up (20_memory R84; log 8). -/
def BusEnv.hears (e : BusEnv) (m : BusLine) (d : Device) : Bool :=
  m.testBit d.line && e.pullup.testBit d.line

/-- Whether any device pulls line `l` low at this sample. -/
def BusEnv.pulled (e : BusEnv) (k : SampleKind) (l : Nat) : Bool :=
  if e.oracle.testBit l then Config.drawPull e.samples l
  else
    e.devices.any fun d =>
      decide (d.line = l) && e.pullup.testBit l && d.pulls k (Config.drawPull e.samples l)

/-- `level(l)` of a line in the driver state `d` (20_memory R72). -/
def BusEnv.level (e : BusEnv) (d : Drive) (k : SampleKind) (l : Nat) : Bool :=
  match d with
  | .low => false
  | .rel =>
    if e.pulled k l then false
    else if e.pullup.testBit l then true else Config.drawLevel e.samples l
  | .high => if e.pulled k l then Config.drawLevel e.samples l else true

/-- `LineSample(mask)`: the AND over the selected lines, 1 for the empty mask (41 R142, 20_memory R73). -/
def State.lineSample (k : SampleKind) (m : BusLine) (s : State) : Bool :=
  (List.range s.params.nLines).all fun l => !m.testBit l || s.env.level (s.lines.drv l) k l

/-- How many samples an event takes: a reset and a read slot one, a write slot none (42 R160, R163, R166). -/
def Slot.samples : Slot → Nat
  | .rst _ => 1
  | .w _ => 0
  | .r _ => 1
  | .cut => 1

/-- The bus after one event of the wire: the devices on its lines hear it, its sample is counted (log 7), the
history records it (42 R161, R164, R167, R173). -/
def BusEnv.hear (p : Params) (e : BusEnv) (x : WireEvent) : BusEnv :=
  { e with
    devices := e.devices.map fun d => if e.hears x.mask d then d.hear p x.slot else d,
    samples := e.samples + x.slot.samples,
    wire := e.wire ++ [x] }

/-- The bus after a sequence of events. -/
def BusEnv.replay (p : Params) (e : BusEnv) (tr : List WireEvent) : BusEnv := tr.foldl (BusEnv.hear p) e

/-- The wire event `x` on the lines `m`. -/
def State.wireEvent (m : BusLine) (x : Slot) (s : State) : State :=
  { s with env := s.env.hear s.params { mask := m, slot := x } }

/-- One more sample outside the wire's events has been taken (the model's own counter, log 7). -/
def State.countSample (s : State) : State :=
  { s with env := { s.env with samples := s.env.samples + 1 } }

/-- The lines among `m` that carry a device. -/
def BusEnv.deviceLines (e : BusEnv) (m : BusLine) : BusLine :=
  e.devices.foldl (fun k d => if m.testBit d.line then k ||| 2 ^ d.line else k) 0

/-- From here on the environment of the lines `m` that carry a device is unconstrained (93 U30; log 10, 13). -/
def BusEnv.disturb (m : BusLine) (e : BusEnv) : BusEnv := { e with oracle := e.oracle ||| e.deviceLines m }

end Sys2Proof.Machine
end

