-- ==== Sys2Proof/Machine/Line.lean ====
section
/-! DEFINITION. The Line Interface commands (41_line_interface). -/

namespace Sys2Proof.Machine

/-- The lines the host drives low (10_state R42). -/
def Lines.lowMask (ln : Lines) : BusLine := clearBits ln.dir ln.out

/-- A raw line command: the latches become `ln`. Where a line is newly driven low, what its devices make
of it is open (93 U30): their environment becomes unconstrained. DESIGN CHOICE (log 10): U30 leaves open what devices
make of any raw command inside a transaction; a command that drives no line newly low (RELEASE_HIGH, CONFIGURE_INPUT,
DRIVE_HIGH, and a low line kept low) leaves ideal responders as they are; unsafe for claims about ideal responders
after such a command inside a transaction. -/
def State.setLatches (ln : Lines) (s : State) : State :=
  { s with lines := ln, env := s.env.disturb (clearBits ln.lowMask s.lines.lowMask) }

/-- CONFIGURE_OUTPUT: `for l in BUSSEL: DIR[l] <- 1` (41 R143). -/
def State.configureOutput (s : State) : State :=
  s.setLatches { s.lines with dir := s.lines.dir ||| s.regs.bussel }

/-- CONFIGURE_INPUT: `for l in BUSSEL: DIR[l] <- 0` (41 R147). -/
def State.configureInput (s : State) : State :=
  s.setLatches { s.lines with dir := clearBits s.lines.dir s.regs.bussel }

/-- DRIVE_LOW: `OUT[l] <- 0; STRONG[l] <- 0` (41 R144). -/
def State.driveLow (s : State) : State :=
  s.setLatches { s.lines with
    out := clearBits s.lines.out s.regs.bussel, strong := clearBits s.lines.strong s.regs.bussel }

/-- RELEASE_HIGH: `OUT[l] <- 1; STRONG[l] <- 0` (41 R145). -/
def State.releaseHigh (s : State) : State :=
  s.setLatches { s.lines with
    out := s.lines.out ||| s.regs.bussel, strong := clearBits s.lines.strong s.regs.bussel }

/-- DRIVE_HIGH: `OUT[l] <- 1; STRONG[l] <- 1` (41 R148). -/
def State.driveHigh (s : State) : State :=
  s.setLatches { s.lines with
    out := s.lines.out ||| s.regs.bussel, strong := s.lines.strong ||| s.regs.bussel }

/-- READ_LEVEL: `x[RXD] <- zext_8(LineSample(x[BUSSEL]))` (41 R146). -/
def State.readLevel (s : State) : State :=
  s.countSample.setRxd (zext8 (s.lineSample .idle s.regs.bussel))

/-- GUARD_ENTER (41 R151): one level is kept free for the primitive a body may call. -/
def guardEnterCommand (s : State) : Run Unit :=
  if s.params.guardMax - 1 ≤ s.guard.depth.toNat then .raised .illegalCommand s
  else .ok () s.guardEnter

/-- GUARD_EXIT (41 R152). -/
def guardExitCommand (s : State) : Run Unit :=
  if s.guard.depth = 0 then .raised .illegalCommand s else .ok () s.guardExit

/-- CONFIGURE_OUTPUT, word 0x00 (41 R143). -/
def execConfigureOutput (s : State) : Host.Outcome State Fault Refusal :=
  runCommand 0x00 (fun s => .ok () s.configureOutput) s

/-- DRIVE_LOW, word 0x01 (41 R144). -/
def execDriveLow (s : State) : Host.Outcome State Fault Refusal :=
  runCommand 0x01 (fun s => .ok () s.driveLow) s

/-- RELEASE_HIGH, word 0x02 (41 R145). -/
def execReleaseHigh (s : State) : Host.Outcome State Fault Refusal :=
  runCommand 0x02 (fun s => .ok () s.releaseHigh) s

/-- READ_LEVEL, word 0x03 (41 R146). -/
def execReadLevel (s : State) : Host.Outcome State Fault Refusal :=
  runCommand 0x03 (fun s => .ok () s.readLevel) s

/-- CONFIGURE_INPUT, word 0x04 (41 R147). -/
def execConfigureInput (s : State) : Host.Outcome State Fault Refusal :=
  runCommand 0x04 (fun s => .ok () s.configureInput) s

/-- DRIVE_HIGH, word 0x05 (41 R148). -/
def execDriveHigh (s : State) : Host.Outcome State Fault Refusal :=
  runCommand 0x05 (fun s => .ok () s.driveHigh) s

/-- GUARD_ENTER, word 0x06 (41 R151). -/
def execGuardEnter (s : State) : Host.Outcome State Fault Refusal :=
  runCommand 0x06 guardEnterCommand s

/-- GUARD_EXIT, word 0x07 (41 R152). -/
def execGuardExit (s : State) : Host.Outcome State Fault Refusal :=
  runCommand 0x07 guardExitCommand s

end Sys2Proof.Machine
end

