-- ==== Sys2Proof/Machine/Transport.lean ====
section
/-! DEFINITION. The Bit Transport primitives and commands (42_bit_transport): reset, slots, bytes. -/

namespace Sys2Proof.Machine

/-- One phase of a primitive's signal (42 R160, R163, R166). -/
inductive Phase where
  /-- `LineDrive(m, d)` -/
  | drive (d : Drive)
  /-- `Delay(us)` -/
  | delay (us : Nat)
  /-- `s <- LineSample(m)` -/
  | sample
  deriving DecidableEq, Repr

/-- The phases of RESET (42 R160). -/
def resetPhases (p : Params) : List Phase :=
  [.drive .low, .delay p.tRstl, .drive .rel, .delay p.tPds, .sample, .delay p.tPdh]

/-- The phases of a write slot (42 R163), without the recovery gap. -/
def writeSlotPhases (p : Params) : Bool → List Phase
  | true => [.drive .low, .delay p.tW1l, .drive .rel, .delay (p.tSlotW - p.tW1l)]
  | false => [.drive .low, .delay p.tSlotW, .drive .rel]

/-- The phases of a read slot (42 R166), without the recovery gap. -/
def readSlotPhases (p : Params) : List Phase :=
  [.drive .low, .delay p.tRl, .drive .rel, .delay p.tRs, .sample,
    .delay (p.tSlotR - p.tRl - p.tRs)]

/-- The recovery gap that follows a slot and is no part of it (42 R163, R166, 70 R331). -/
def recoveryPhases (p : Params) : List Phase := [.delay p.tRec]

/-- The time the phases' delays take at least, µs (70 R331). -/
def phaseTime (ps : List Phase) : Nat :=
  (ps.map fun
    | .delay us => us
    | .drive _ => 0
    | .sample => 0).sum

/-- The lower bound of an event's duration on the wire, µs (70 R332). -/
def slotTime (p : Params) : Slot → Nat
  | .rst _ => phaseTime (resetPhases p)
  | .w b => phaseTime (writeSlotPhases p b ++ recoveryPhases p)
  | .r _ => phaseTime (readSlotPhases p ++ recoveryPhases p)
  | .cut => 0

/-- Run phases on the lines `m`; answers the last sample taken (`bit` if there was none) and the state. The sample
is counted by the primitive's wire event. -/
def runPhases (k : SampleKind) (m : BusLine) : List Phase → Bool → State → Bool × State
  | [], bit, s => (bit, s)
  | .drive d :: ps, bit, s => runPhases k m ps bit (s.lineDrive m d)
  | .delay us :: ps, bit, s => runPhases k m ps bit (s.delay us)
  | .sample :: ps, _, s => runPhases k m ps (s.lineSample k m) s

/-- A primitive: its phases inside the guard, entered first and left last on every path (41 R153). -/
def guarded (k : SampleKind) (ps : List Phase) (s : State) : Bool × State :=
  let r := runPhases k s.regs.bussel ps true s.guardEnter
  (r.1, r.2.guardExit)

/-- RESET (42 R160, R161): the wire event RST, PRES, and NoPresence when the sample was high. -/
def busReset (s : State) : Run Unit :=
  let r := guarded .presence (resetPhases s.params) s
  let s' := (r.2.wireEvent s.regs.bussel (.rst (!r.1))).setPres (!r.1)
  if r.1 then .raised .noPresence s' else .ok () s'

/-- WRITE_BIT of a given bit (42 R163, R164): the wire event W(bit). -/
def writeSlot (bit : Bool) (s : State) : State :=
  let r := guarded .slot (writeSlotPhases s.params bit ++ recoveryPhases s.params) s
  r.2.wireEvent s.regs.bussel (.w bit)

/-- READ_BIT (42 R166, R167): the wire event R and the sampled bit. RXD is the host command's to write. -/
def readSlot (s : State) : Bool × State :=
  let r := guarded .slot (readSlotPhases s.params ++ recoveryPhases s.params) s
  (r.1, r.2.wireEvent s.regs.bussel (.r r.1))

/-- WRITE_BYTE of a given byte: eight write slots, bit 0 first (42 R169). -/
def writeByte (b : Byte) (s : State) : State :=
  (List.range 8).foldl (fun s k => writeSlot (b.getLsbD k) (s.setBitcnt k)) s

/-- One round of READ_BYTE: `v[k] <- READ_BIT` (42 R170). -/
def readByteBit (vs : Byte × State) (k : Nat) : Byte × State :=
  let r := readSlot (vs.2.setBitcnt k)
  (setBit vs.1 k r.1, r.2)

/-- READ_BYTE: eight read slots, bit 0 first (42 R170). RXD is the host command's to write. -/
def readByte (s : State) : Byte × State := (List.range 8).foldl readByteBit (0, s)

/-- The bytes of a list, in order, each by WRITE_BYTE. -/
def writeBytes (bs : List Byte) (s : State) : State := bs.foldl (fun s b => writeByte b s) s

/-- One round of a read into the buffer: `SEQ.BYTECNT = i`, `v <- READ_BYTE`, `BUF[i] <- v` (45 R236, R244). -/
def readIntoBuf (s : State) (i : Nat) : State :=
  let r := readByte (s.setBytecnt i)
  r.2.setBuf i r.1

/-- `n` bytes from the wire into `BUF[0 .. n-1]` (45 R236, R244). -/
def readBytes (n : Nat) (s : State) : State := (List.range n).foldl readIntoBuf s

/-- RESET, word 0x08 (42 R160). -/
def execReset (s : State) : Host.Outcome State Fault Refusal := runCommand 0x08 busReset s

/-- WRITE_BIT, word 0x09: the bit is TXD[0] (42 R163). -/
def execWriteBit (s : State) : Host.Outcome State Fault Refusal :=
  runCommand 0x09 (fun s => .ok () (writeSlot (s.regs.txd.getLsbD 0) s)) s

/-- READ_BIT, word 0x0A: `x[RXD] <- zext_8(s)` (42 R166). -/
def execReadBit (s : State) : Host.Outcome State Fault Refusal :=
  runCommand 0x0A (fun s => .ok () ((readSlot s).2.setRxd (zext8 (readSlot s).1))) s

/-- WRITE_BYTE, word 0x0B: the byte is TXD (42 R169). -/
def execWriteByte (s : State) : Host.Outcome State Fault Refusal :=
  runCommand 0x0B (fun s => .ok () (writeByte s.regs.txd s)) s

/-- READ_BYTE, word 0x0C: RXD is written once, at the end (42 R170). -/
def execReadByte (s : State) : Host.Outcome State Fault Refusal :=
  runCommand 0x0C (fun s => .ok () ((readByte s).2.setRxd (readByte s).1)) s

end Sys2Proof.Machine
end

