-- ==== Sys2Proof/Machine/Search.lean ====
section
/-! DEFINITION. The Device Discovery Engine commands (44_rom_search). -/

namespace Sys2Proof.Machine

/-- The choice at a collision (44 R202): before LD.POS replay PREV_ID's bit, at LD.POS take 1, after it or
with no LD take 0. `ld` is the search state at the start of the pass. -/
def searchChoice (ld : SearchState) (p : Nat) : Bool :=
  if ld.valid ∧ p < ld.discPos then idBit ld.prevId p
  else if ld.valid ∧ p = ld.discPos then true
  else false

/-- The working values of a pass: the identifier so far and the candidate discrepancy (44 R203). -/
structure SearchWork where
  id : DeviceAddress
  cand : Option Nat
  deriving DecidableEq, Repr

/-- The bit a triplet takes from its two reads (44 R203). -/
def tripletBit (ld : SearchState) (p : Nat) (b c : Bool) : Bool :=
  if b = c then searchChoice ld p else b

/-- The candidate after a triplet: `p` when 0 was chosen at a collision (44 R202, R203). -/
def tripletCand (ld : SearchState) (p : Nat) (b c : Bool) (cand : Option Nat) : Option Nat :=
  if b = false ∧ c = false ∧ searchChoice ld p = false then some p else cand

/-- One position of a pass: two reads, the choice, one write; (1,1) raises CommError and re-initialises the
search state (44 R203). -/
def searchTriplet (ld : SearchState) (p : Nat) (w : SearchWork) (s : State) : Run SearchWork :=
  let r1 := readSlot (s.setPos p)
  let r2 := readSlot r1.2
  if r1.1 ∧ r2.1 then .raised .commError r2.2.searchInit
  else
    .ok { id := setBit w.id p (tripletBit ld p r1.1 r2.1),
          cand := tripletCand ld p r1.1 r2.1 w.cand }
      (writeSlot (tripletBit ld p r1.1 r2.1) r2.2)

/-- The positions of a list in order (44 R203). -/
def searchWalk (ld : SearchState) : List Nat → SearchWork → State → Run SearchWork
  | [], w, s => .ok w s
  | p :: ps, w, s => (searchTriplet ld p w s).bind (searchWalk ld ps)

/-- The end of a completed pass: PREV_ID, LDISC, LAST (44 R203), and SEQ.POS = 64 (10_state R33). -/
def searchDone (w : SearchWork) (s : State) : State :=
  { s.setPos 64 with
    search := { ldisc := ldiscOf w.cand, prevId := w.id },
    status := { s.status with last := w.cand.isNone } }

/-- `CMD_SEARCH_ROM` after the reset, unless the switch is off (44 R203, R204). -/
def searchCommand (s : State) : State :=
  if s.params.searchSendsCommand then writeByte s.params.cmdSearchRom s else s

/-- SEARCH_PASS (44 R203). -/
def searchPass (s : State) : Run Unit :=
  match busReset s with
  | .raised e s1 => .raised e s1.searchInit
  | .ok _ s1 =>
    (searchWalk s1.search (List.range 64) { id := s1.search.prevId, cand := none }
      (searchCommand s1)).bind fun w s2 => .ok () (searchDone w s2)

/-- The registration of the identifier a pass found (44 R212). -/
def register (s : State) : State :=
  { s with registry :=
      { s.registry.writeEntry s.registry.count.toNat s.regs.bussel s.search.prevId with
        count := s.registry.count + 1 } }

/-- The pass loop of one bus (44 R212). `room` is how many entries the registry still takes,
`REGISTRY_CAPACITY - COUNT`: it is 0 exactly when COUNT = REGISTRY_CAPACITY (log 24). -/
def enumerateBus : (room : Nat) → State → Run Unit
  | room, s =>
    match searchPass s with
    | .raised .noPresence s1 => .ok () s1
    | .raised e s1 => .raised e (s1.setCount 0)
    | .ok _ s1 =>
      match room with
      | 0 => .raised .discoveryError (s1.setCount 0)
      | room + 1 =>
        if (register s1).search.valid then enumerateBus room (register s1)
        else .ok () (register s1)

/-- One bus of the list: BUSSEL from BUSLIST[i], the initial search state, the pass loop (44 R212). -/
def discoverBus (i : Nat) (s : State) : Run Unit :=
  let s1 := { s with regs := { s.regs with bussel := s.buslist.read i } }.searchInit
  enumerateBus (s1.params.registryCapacity - s1.registry.count.toNat) s1

/-- The buses of the list, in list order (44 R212). -/
def discoverBuses : List Nat → State → Run Unit
  | [], s => .ok () s
  | i :: is, s => (discoverBus i s).bind fun _ s1 => discoverBuses is s1

/-- Entry `j` is CRC-clean: `crc8(addr[0..6]) = addr[7]` (44 R214, 10_state R24). -/
def Registry.entryClean (init : Byte) (r : Registry) (j : Nat) : Bool :=
  decide (crc8 init (r.addrBytes j 7) = r.addrByte j 7)

/-- Step 5 of DISCOVER: every registered address is CRC-checked (44 R212, R214). -/
def discoverCheck (s : State) : Run Unit :=
  if (List.range s.registry.count.toNat).all (s.registry.entryClean s.params.crcInit) then .ok () s
  else .raised .discoveryError (s.setCount 0)

/-- DISCOVER (44 R212). -/
def discover (s : State) : Run Unit :=
  if s.params.maxBuses < s.regs.nbus.toNat then .raised .illegalCommand s
  else
    (discoverBuses (List.range s.regs.nbus.toNat) (s.setCount 0)).bind fun _ s1 => discoverCheck s1

/-- SEARCH_INIT, word 0x14 (44 R200). -/
def execSearchInit (s : State) : Host.Outcome State Fault Refusal :=
  runCommand 0x14 (fun s => .ok () s.searchInit) s

/-- SEARCH_PASS, word 0x15 (44 R203). -/
def execSearchPass (s : State) : Host.Outcome State Fault Refusal := runCommand 0x15 searchPass s

/-- DISCOVER, word 0x16 (44 R212). -/
def execDiscover (s : State) : Host.Outcome State Fault Refusal := runCommand 0x16 discover s

end Sys2Proof.Machine
end

