-- ==== Sys2Proof/Machine/Sensor.lean ====
section
/-! DEFINITION. The Sensor Protocol commands (45_sensor_protocol). -/

namespace Sys2Proof.Machine

/-- The bytes `Address(A)` sends after its reset (45 R230). -/
def addressBytes (a : Addressing) (s : State) : List Byte :=
  match a with
  | .skip => [s.params.cmdSkipRom]
  | .matched => s.params.cmdMatchRom :: addrBytes s.regs.addr 8

/-- One byte of `Address(1)`: `SEQ.BYTECNT = i`, then WRITE_BYTE of ADDR[i] (45 R230). -/
def sendAddrByte (s : State) (i : Nat) : State :=
  writeByte (byteAt s.regs.addr i) (s.setBytecnt i)

/-- `Address(A)` (45 R230): the reset, then skip addressing or match addressing with ADDR[0..7]. -/
def address (a : Addressing) (s : State) : Run Unit :=
  (busReset s).bind fun _ s1 =>
    .ok () (match a with
      | .skip => writeByte s1.params.cmdSkipRom s1
      | .matched => (List.range 8).foldl sendAddrByte (writeByte s1.params.cmdMatchRom s1))

/-- CONVERT (45 R232). -/
def convert (a : Addressing) (s : State) : Run Unit :=
  (address a s).bind fun _ s1 => .ok () (writeByte s1.params.cmdConvertT s1)

/-- `BUF[0..8] are all 0x00` (45 R236). -/
def State.bufAllZero (s : State) : Bool := (s.bufWindow 9).all (fun b => decide (b = 0))

/-- The two checks on a received scratchpad, in the order of 45 R236 and R238. -/
def checkScratchpad (s : State) : Run Unit :=
  if s.bufAllZero then .raised .pullupMissing s
  else if crc8 s.params.crcInit (s.bufWindow 8) = s.buf.read 8 then .ok () s
  else .raised .crcError s

/-- READ_SCRATCHPAD (45 R236). -/
def readScratchpad (a : Addressing) (s : State) : Run Unit :=
  (address a s).bind fun _ s1 => checkScratchpad (readBytes 9 (writeByte s1.params.cmdReadScratchpad s1))

/-- WRITE_SCRATCHPAD (45 R240): the command byte, then th, tl, config. -/
def writeScratchpad (a : Addressing) (s : State) : Run Unit :=
  (address a s).bind fun _ s1 =>
    .ok () (writeBytes [s1.params.cmdWriteScratchpad, s1.regs.argTh, s1.regs.argTl, s1.regs.argCfg] s1)

/-- COPY_SCRATCHPAD (45 R242): the command byte, then the selected lines driven high and left so. -/
def copyScratchpad (a : Addressing) (s : State) : Run Unit :=
  (address a s).bind fun _ s1 =>
    .ok () ((writeByte s1.params.cmdCopyScratchpad s1).lineDrive s1.regs.bussel .high)

/-- Cells 0 to 7 of BUF zeroed (45 R244). -/
def State.zeroRom (s : State) : State := (List.range 8).foldl (fun s i => s.setBuf i 0) s

/-- The check of READ_ROM (45 R244). -/
def checkRom (s : State) : Run Unit :=
  if crc8 s.params.crcInit (s.bufWindow 7) = s.buf.read 7 then .ok () s
  else .raised .crcError s.zeroRom

/-- READ_ROM (45 R244). -/
def readRom (s : State) : Run Unit :=
  (busReset s).bind fun _ s1 => checkRom (readBytes 8 (writeByte s1.params.cmdReadRom s1))

/-- DECODE_TEMPERATURE: `x[TEMP] <- BUF[1] ++ BUF[0]` (45 R248). -/
def State.decodeTemperature (s : State) : State :=
  { s with regs := { s.regs with temp := s.buf.read 1 ++ s.buf.read 0 } }

/-- READ_TEMPERATURE (45 R250). -/
def readTemperature (a : Addressing) (s : State) : Run Unit :=
  (readScratchpad a s).bind fun _ s1 => .ok () s1.decodeTemperature

/-- CONVERT, words 0x18 and 0x98 (45 R232). -/
def execConvert (a : Addressing) (s : State) : Host.Outcome State Fault Refusal :=
  runCommand 0x18 (convert a) s

/-- READ_SCRATCHPAD, words 0x19 and 0x99 (45 R236). -/
def execReadScratchpad (a : Addressing) (s : State) : Host.Outcome State Fault Refusal :=
  runCommand 0x19 (readScratchpad a) s

/-- WRITE_SCRATCHPAD, words 0x1A and 0x9A (45 R240). -/
def execWriteScratchpad (a : Addressing) (s : State) : Host.Outcome State Fault Refusal :=
  runCommand 0x1A (writeScratchpad a) s

/-- COPY_SCRATCHPAD, words 0x1B and 0x9B (45 R242). -/
def execCopyScratchpad (a : Addressing) (s : State) : Host.Outcome State Fault Refusal :=
  runCommand 0x1B (copyScratchpad a) s

/-- READ_ROM, word 0x1C (45 R244). -/
def execReadRom (s : State) : Host.Outcome State Fault Refusal := runCommand 0x1C readRom s

/-- DECODE_TEMPERATURE, word 0x1D (45 R248). -/
def execDecodeTemperature (s : State) : Host.Outcome State Fault Refusal :=
  runCommand 0x1D (fun s => .ok () s.decodeTemperature) s

/-- READ_TEMPERATURE, words 0x1E and 0x9E (45 R250). -/
def execReadTemperature (a : Addressing) (s : State) : Host.Outcome State Fault Refusal :=
  runCommand 0x1E (readTemperature a) s

end Sys2Proof.Machine
end

