-- ==== Sys2Proof/Machine/Dispatch.lean ====
section
/-! DEFINITION. One arm per command, each one direct call of its meaning. -/

namespace Sys2Proof.Machine

def exec (i : Instr) (s : State) : Host.Outcome State Fault Refusal :=
  match i with
  | .configureOutput => Sys2Proof.Machine.execConfigureOutput s
  | .driveLow => Sys2Proof.Machine.execDriveLow s
  | .releaseHigh => Sys2Proof.Machine.execReleaseHigh s
  | .readLevel => Sys2Proof.Machine.execReadLevel s
  | .configureInput => Sys2Proof.Machine.execConfigureInput s
  | .driveHigh => Sys2Proof.Machine.execDriveHigh s
  | .guardEnter => Sys2Proof.Machine.execGuardEnter s
  | .guardExit => Sys2Proof.Machine.execGuardExit s
  | .reset => Sys2Proof.Machine.execReset s
  | .writeBit => Sys2Proof.Machine.execWriteBit s
  | .readBit => Sys2Proof.Machine.execReadBit s
  | .writeByte => Sys2Proof.Machine.execWriteByte s
  | .readByte => Sys2Proof.Machine.execReadByte s
  | .crc8 => Sys2Proof.Machine.execCrc8 s
  | .validate => Sys2Proof.Machine.execValidate s
  | .searchInit => Sys2Proof.Machine.execSearchInit s
  | .searchPass => Sys2Proof.Machine.execSearchPass s
  | .discover => Sys2Proof.Machine.execDiscover s
  | .convert a => Sys2Proof.Machine.execConvert a s
  | .readScratchpad a => Sys2Proof.Machine.execReadScratchpad a s
  | .writeScratchpad a => Sys2Proof.Machine.execWriteScratchpad a s
  | .copyScratchpad a => Sys2Proof.Machine.execCopyScratchpad a s
  | .readRom => Sys2Proof.Machine.execReadRom s
  | .decodeTemperature => Sys2Proof.Machine.execDecodeTemperature s
  | .readTemperature a => Sys2Proof.Machine.execReadTemperature a s

end Sys2Proof.Machine
end

