-- ==== Sys2Proof/Machine/HostPort.lean ====
section
/-! DEFINITION. The register space as the host reads and writes it (10_state R41, 46 R356), the write to CMD
that runs a command, and the other inputs of the world. -/

namespace Sys2Proof.Machine

/-- `R n`: the value of register number `n`, 0 for CMD and for reserved locations (10_state R41, 46 R356). A BusLine
cell is `N_LINES` bits wide, every other cell a byte. Reads have no side effect (20_memory R71). -/
def State.readReg (s : State) (n : Nat) : Nat :=
  match n with
  | 0x00 => 0
  | 0x01 => s.statusByte.toNat
  | 0x02 => s.regs.bussel
  | 0x03 => s.regs.txd.toNat
  | 0x04 => s.regs.rxd.toNat
  | 0x05 => s.regs.len.toNat
  | 0x06 => s.regs.argTh.toNat
  | 0x07 => s.regs.argTl.toNat
  | 0x08 => s.regs.argCfg.toNat
  | 0x09 => (byteAt s.regs.temp 0).toNat
  | 0x0A => (byteAt s.regs.temp 1).toNat
  | 0x0B => s.registry.count.toNat
  | 0x0C => s.regs.nbus.toNat
  | 0x0D => s.search.ldisc.toNat
  | 0x0E => s.lines.dir
  | 0x0F => s.lines.out
  | 0x10 => s.lines.strong
  | 0x11 => s.guardByte.toNat
  | 0x12 => s.regs.regidx.toNat
  | 0x13 =>
    if s.regs.regidx.toNat < s.params.registryCapacity then
      s.registry.lineOf s.regs.regidx.toNat else 0
  | n =>
    if 0x18 ≤ n ∧ n ≤ 0x1F then
      if s.regs.regidx.toNat < s.params.registryCapacity then
        (s.registry.addrByte s.regs.regidx.toNat (n - 0x18)).toNat else 0
    else if 0x20 ≤ n ∧ n ≤ 0x27 then (byteAt s.regs.addr (n - 0x20)).toNat
    else if 0x28 ≤ n ∧ n ≤ 0x2F then (byteAt s.search.prevId (n - 0x28)).toNat
    else if 0x30 ≤ n ∧ n ≤ 0x38 then (s.buf.read (n - 0x30)).toNat
    else if 0x40 ≤ n ∧ n < 0x40 + s.params.maxBuses then s.buslist.read (n - 0x40)
    else 0

/-- `W n v` to a location other than CMD: an RW location keeps `v` less its reserved bits, an RO or reserved
one ignores it; a write to LDISC also sets STATUS.LAST to `not v[6]` (10_state R40, R41, 46 R356). A cell keeps as
many of the low bits of `v` as it is wide (log 4). -/
def State.writeReg (s : State) (n : Nat) (v : Nat) : State :=
  match n with
  | 0x02 => { s with regs := { s.regs with bussel := v &&& s.params.lineMask } }
  | 0x03 => { s with regs := { s.regs with txd := BitVec.ofNat 8 v } }
  | 0x05 => { s with regs := { s.regs with len := BitVec.ofNat 4 v } }
  | 0x06 => { s with regs := { s.regs with argTh := BitVec.ofNat 8 v } }
  | 0x07 => { s with regs := { s.regs with argTl := BitVec.ofNat 8 v } }
  | 0x08 => { s with regs := { s.regs with argCfg := BitVec.ofNat 8 v } }
  | 0x0C => { s with regs := { s.regs with nbus := BitVec.ofNat 8 v } }
  | 0x0D =>
    { s with
      search := { s.search with ldisc := BitVec.ofNat 7 v },
      status := { s.status with last := !v.testBit 6 } }
  | 0x12 => { s with regs := { s.regs with regidx := BitVec.ofNat 8 v } }
  | n =>
    if 0x20 ≤ n ∧ n ≤ 0x27 then
      { s with regs := { s.regs with addr := setByte s.regs.addr (n - 0x20) (BitVec.ofNat 8 v) } }
    else if 0x28 ≤ n ∧ n ≤ 0x2F then
      { s with search := { s.search with prevId := setByte s.search.prevId (n - 0x28) (BitVec.ofNat 8 v) } }
    else if 0x30 ≤ n ∧ n ≤ 0x38 then s.setBuf (n - 0x30) (BitVec.ofNat 8 v)
    else if 0x40 ≤ n ∧ n < 0x40 + s.params.maxBuses then
      { s with buslist := s.buslist.write (n - 0x40) (v &&& s.params.lineMask) }
    else s

/-- An illegal command word: it completes at once with IllegalCommand, and nothing else changes (30_encoding
R106, 60 R274); SEQ.OP takes `w[4:0]` as for every word (46 R350). -/
def illegalWord (w : Byte) (s : State) : Host.Outcome State Fault Refusal :=
  runCommand (commandFields w).op (fun s => .raised .illegalCommand s) s

/-- A host write of `w` to CMD (46 R350): the command the word decodes to runs to its end. -/
def runWord (w : Byte) (s : State) : Host.Outcome State Fault Refusal :=
  match decode w with
  | .ok i => exec i s
  | .error _ => illegalWord w s

/-- A host access (46 R356). A number above 0x7F does not exist in the interface (log 23). -/
def hostAccess (h : HostAccess) (s : State) : Host.Outcome State Fault Refusal :=
  match h with
  | .read n =>
    if n.toNat < 0x80 then .next { s with host := { s.host with rdata := s.readReg n.toNat } }
    else .fault (.noSuchRegister n)
  | .write n v =>
    if n = 0 then runWord (BitVec.ofNat 8 v) s
    else if n.toNat < 0x80 then .next (s.writeReg n.toNat v)
    else .fault (.noSuchRegister n)

/-- The bus of `s` when the first `k` primitives of a command that ends in `t` have run and no other: the events of
those, or all that the command did where it has no more of them (42 R173). -/
def cutShort (k : Nat) (s t : State) : BusEnv :=
  let tr := t.env.wire.drop s.env.wire.length
  if k < tr.length then s.env.replay s.params (tr.take k) else t.env

/-- The mask of the primitive that a command from `s` to `t` runs after its first `k`, if there is one. -/
def nextMask (k : Nat) (s t : State) : Option BusLine :=
  ((t.env.wire.drop s.env.wire.length)[k]?).map fun x => x.mask

/-- The reset input hits inside a command that would have ended in `t`, after `k` of its primitives (70 R310, R311;
log 13): the block's state is that of 10_state R48, the devices and the history are where those primitives left them.
Between two primitives HOST_IE is restored (41 R153). Inside one (`torn`) it is not and its value is open (93 U25), and
what the devices on its lines saw of it is open. -/
def resetAfter (k : Nat) (torn : Bool) (s t : State) : State :=
  match torn, nextMask k s t with
  | true, some m =>
    State.launch s.params (((cutShort k s t).disturb m).hear s.params { mask := m, slot := .cut })
      { s.host with ie := Config.drawIe (cutShort k s t).samples }
  | _, _ => State.launch s.params (cutShort k s t) { s.host with ie := t.host.ie }

/-- The host writes `w` to CMD and the reset input hits inside that command (70 R310, R311; log 13). -/
def resetInside (w : Byte) (k : Nat) (torn : Bool) (s : State) : Host.Outcome State Fault Refusal :=
  match runWord w s with
  | .next t => .next (resetAfter k torn s t)
  | .fault f => .fault f
  | .refused r => .refused r

/-- A device is connected: silent until the next bus reset (log 26). DESIGN CHOICE (log 10): what it makes of a line
that the host already holds low, and of the release, is open (70 R324, 93 U30): that line's environment becomes
unconstrained; safe. -/
def State.attach (line : Nat) (addr : DeviceAddress) (sp : Scratchpad) (s : State) : State :=
  let e := { s.env with devices := s.env.devices ++
      [{ line := line, addr := addr, sp := sp, nv := 0, busy := false, due := [], mode := .off }] }
  { s with env := if s.lines.drv line = .low then e.disturb (2 ^ line) else e }

/-- The `i`-th device is now `d`. -/
def State.setDevice (i : Nat) (d : Device) (s : State) : State :=
  { s with env := { s.env with devices := s.env.devices.set i d } }

/-- The environment chooses when a conversion of the `i`-th device ends and with which reading (20_memory R84; log 26):
the running one now, or, for the first conversion that has no end chosen yet, be it running or still to start, right
after the `n`-th slot that the device hears of it, the one that starts it counted. -/
def conversionEnds (i n : Nat) (reading : BitVec 16) (s : State) : Host.Outcome State Fault Refusal :=
  match s.env.devices[i]?, n with
  | none, _ => .refused .noConversion
  | some d, 0 => if d.busy then .next (s.setDevice i (d.endConversion s.params reading)) else .refused .noConversion
  | some d, n + 1 => .next (s.setDevice i { d with due := d.due ++ [(n, reading)] })

/-- One input of the world, between commands. The collaborator touches neither the block nor the lines
(00_scope R13). -/
def perform (x : Input) (s : State) : Host.Outcome State Fault Refusal :=
  match x with
  | .access h => hostAccess h s
  | .setHostIe b =>
    if s.guard.depth = 0 then .next { s with host := { s.host with ie := b } }
    else .refused .hostIeInsideGuard
  | .preempt => if s.host.ie then .next s else .refused .preemptMasked
  | .reset => .next s.blockReset
  | .resetInside w k torn => resetInside w k torn s
  | .attach line addr sp => .next (s.attach line addr sp)
  | .detach i => .next { s with env := { s.env with devices := s.env.devices.eraseIdx i } }
  | .conversionEnds i n reading => conversionEnds i n reading s

/-- Whether an input is the reset, which alone may come while a command runs (70 R310, R320). `resetInside` is no
such input: it stands for a whole command that is yet to start. -/
def isReset : Input → Bool
  | .reset => true
  | .resetInside _ _ _ => false
  | .access _ => false
  | .setHostIe _ => false
  | .preempt => false
  | .attach _ _ _ => false
  | .detach _ => false
  | .conversionEnds _ _ _ => false

/-- `s` with its first pending input taken from the queue. -/
def State.takeInput (rest : List Input) (s : State) : State :=
  { s with host := { s.host with inputs := rest } }

/-- The next input of the world, in order (log 1). With none pending nothing happens: "Nothing runs until
the host issues a command" (70 R313). -/
def nextInput (s : State) : Host.Outcome State Fault Refusal :=
  match s.host.inputs with
  | [] => .next s
  | x :: rest =>
    if s.seq.idle ∨ isReset x then perform x (s.takeInput rest) else .refused .sequencerBusy

/-- `s` with the host's write of the word `w` to CMD as the next input, and the sequencer idle to take it. -/
def State.withCommand (s : State) (w : Byte) : State :=
  { s with
    seq := { s.seq with idle := true },
    host := { s.host with inputs := .access (.write 0 w.toNat) :: s.host.inputs } }

end Sys2Proof.Machine
end

