-- ==== Sys2Proof/Machine/Step.lean ====
section
/-! DEFINITION. The step of the machine. -/

namespace Sys2Proof.Machine

/-- One step: the next input of the world, a command from its start to its end (10_state R34; log 1, 2). -/
def step : State → Host.Outcome State Fault Refusal := fun s => nextInput s

/-- `s` with the host's write of this command word to CMD as its next input. The block fetches nothing
(20_memory R90): this write is what its next instruction is (log 1). -/
def State.withFetchWord (s : State) (nbits w : Nat) : State :=
  s.withCommand (BitVec.ofNat 8 (w % 2 ^ nbits))

end Sys2Proof.Machine
end

