-- ==== Sys2Proof/Safety.lean ====
section
/-! DEFINITION. What counts as a safe state and a final one, and the terms the statements use: the presence
a reset would sample, wire traces, primitive counts. -/

namespace Sys2Proof.Machine

/-- A mask selects only lines that exist (10_state R38, R41). -/
def BusLine.within (p : Params) (m : BusLine) : Prop := m < 2 ^ p.nLines

/-- What every state between two inputs satisfies. -/
structure State.Inv (s : State) : Prop where
  /-- the parameters are in the ranges of 00_scope R9 -/
  params : s.params.wf = true
  /-- no command runs and the counters are 0 (10_state R34, 46 R350) -/
  idle : s.seq.idle = true ∧ s.seq.bitcnt = 0 ∧ s.seq.bytecnt = 0 ∧ s.seq.pos = 0
  /-- the reserved error code is never written (60 R271) -/
  err : s.status.err ≠ 6
  /-- STATUS.LAST and LDISC.VALID never disagree (10_state R40) -/
  last : s.status.last = !s.search.valid
  /-- every mask selects only lines that exist (10_state R38, R42, 20_memory R63) -/
  bussel : BusLine.within s.params s.regs.bussel
  dir : BusLine.within s.params s.lines.dir
  out : BusLine.within s.params s.lines.out
  strong : BusLine.within s.params s.lines.strong
  buslist : ∀ i, BusLine.within s.params (s.buslist.read i)
  /-- one guard level is kept free for a primitive (41 R151, R153) -/
  guardRoom : s.guard.depth.toNat ≤ s.params.guardMax - 1
  /-- while a guard is open the host's interrupts are masked (10_state R44) -/
  masked : s.guard.depth ≠ 0 → s.host.ie = false
  /-- COUNT is 0 to REGISTRY_CAPACITY (10_state R39) -/
  count : s.registry.count.toNat ≤ s.params.registryCapacity
  /-- the storage spaces keep their canonical form -/
  bufWf : s.buf.wf = true
  linesWf : s.registry.lines.wf = true
  addrsWf : s.registry.addrs.wf = true
  buslistWf : s.buslist.wf = true

/-- A run is final only when no guard is open (41 R154). -/
def State.final (s : State) : Prop := s.guard.depth = 0

/-- The sequencer after a command of opcode `op` (46 R350). -/
def Seq.ended (op : BitVec 5) : Seq :=
  { op := op, idle := true, bitcnt := 0, bytecnt := 0, pos := 0 }

/-- The sample of kind `k` that the lines `m`, all released, give on the bus `e`: 1 exactly when each is high
(41 R142, 42 R160, R166). -/
def BusEnv.sample (p : Params) (k : SampleKind) (m : BusLine) (e : BusEnv) : Bool :=
  (List.range p.nLines).all fun l => !m.testBit l || e.level .rel k l

/-- The presence a bus reset issued now would sample: the selected lines, once released, are not all high
(42 R160). -/
def State.presence (s : State) : Bool := !s.env.sample s.params .presence s.regs.bussel

/-- What an event records is what its lines, released, give on the bus it meets: the presence of a reset, the bit of
a read slot (42 R160, R166). -/
def BusEnv.gives (p : Params) (e : BusEnv) (x : WireEvent) : Prop :=
  match x.slot with
  | .rst presence => presence = !e.sample p .presence x.mask
  | .w _ => True
  | .r bit => bit = e.sample p .slot x.mask
  | .cut => True

/-- Every event of a trace records what the bus gives at its instant, the events before it having been heard. -/
def BusEnv.givesAll (p : Params) : BusEnv → List WireEvent → Prop
  | _, [] => True
  | e, x :: tr => e.gives p x ∧ (e.hear p x).givesAll p tr

/-- The wire events of a written byte on the lines `m`: bit 0 first (20_memory R65). -/
def writtenByte (m : BusLine) (b : Byte) : List WireEvent :=
  (List.range 8).map fun k => { mask := m, slot := .w (b.getLsbD k) }

/-- The wire events of written bytes in order. -/
def writtenBytes (m : BusLine) (bs : List Byte) : List WireEvent := bs.flatMap (writtenByte m)

/-- The wire events of a byte read on the lines `m`: bit 0 first (20_memory R65). -/
def receivedByte (m : BusLine) (b : Byte) : List WireEvent :=
  (List.range 8).map fun k => { mask := m, slot := .r (b.getLsbD k) }

/-- The wire events of received bytes in order. -/
def receivedBytes (m : BusLine) (bs : List Byte) : List WireEvent := bs.flatMap (receivedByte m)

/-- The wire events of the triplet at position `p` of a pass, for the reads `b p` and `c p`: two read slots and the
write of the bit chosen (44 R203). -/
def tripletEvents (ld : SearchState) (m : BusLine) (b c : Nat → Bool) (p : Nat) : List WireEvent :=
  [{ mask := m, slot := .r (b p) }, { mask := m, slot := .r (c p) },
    { mask := m, slot := .w (tripletBit ld p (b p) (c p)) }]

/-- The candidate after the triplets at the positions `ps` (44 R203). -/
def candAfter (ld : SearchState) (b c : Nat → Bool) (ps : List Nat) (cand : Option Nat) : Option Nat :=
  ps.foldl (fun k p => tripletCand ld p (b p) (c p) k) cand

/-- The wire events of the search command, if it is sent (44 R203, R204). -/
def searchCommandEvents (p : Params) (m : BusLine) : List WireEvent :=
  if p.searchSendsCommand then writtenByte m p.cmdSearchRom else []

/-- The wire event of a bus reset. -/
def resetEvent (m : BusLine) (presence : Bool) : WireEvent := { mask := m, slot := .rst presence }

/-- What the host puts on the wire that a device takes in: a bus reset that found presence, and a write slot. -/
def Slot.sent : Slot → Bool
  | .rst presence => presence
  | .w _ => true
  | .r _ => false
  | .cut => false

/-- Those among the events of a completed pass on the lines `m` that found the identifier with the bits `bit`: its
reset, the search command, and the 64 bits it wrote (44 R203). -/
def foundEvents (p : Params) (m : BusLine) (bit : Nat → Bool) : List WireEvent :=
  resetEvent m true :: (searchCommandEvents p m ++ (List.range 64).map fun k => { mask := m, slot := .w (bit k) })

/-- `idbit` of the address of registry entry `j` (30_encoding R112, 20_memory R62). -/
def Registry.entryBit (r : Registry) (j p : Nat) : Bool := (r.addrByte j (p / 8)).getLsbD (p % 8)

/-- Entry `j` of two registries is the same. -/
def Registry.SameEntry (r r' : Registry) (j : Nat) : Prop :=
  r'.lineOf j = r.lineOf j ∧ ∀ i, i < 8 → r'.addrByte j i = r.addrByte j i

/-- The events `ev`, all on the lines `m`, are those of an enumeration that registered the entries `lo` to `hi - 1` of
`r`: the first is a bus reset, every completed pass is one entry, in pass order, whose line is `m` and whose address is
the identifier the pass wrote (44 R212). -/
structure Registry.Registers (r : Registry) (p : Params) (m : BusLine) (ev : List WireEvent) (lo hi : Nat) : Prop where
  order : lo ≤ hi
  reset : ∃ presence, ev.head? = some (resetEvent m presence)
  masks : ∀ x, x ∈ ev → x.mask = m
  lines : ∀ j, lo ≤ j → j < hi → r.lineOf j = m
  passes : (ev.filter fun x => x.slot.sent) =
    (List.range' lo (hi - lo)).flatMap fun j => foundEvents p m (r.entryBit j)

/-- A bus reset. -/
def Slot.isRst : Slot → Bool
  | .rst _ => true
  | .w _ => false
  | .r _ => false
  | .cut => false

/-- A write slot. -/
def Slot.isW : Slot → Bool
  | .rst _ => false
  | .w _ => true
  | .r _ => false
  | .cut => false

/-- A read slot. -/
def Slot.isR : Slot → Bool
  | .rst _ => false
  | .w _ => false
  | .r _ => true
  | .cut => false

/-- How many bus resets, write slots and read slots a trace has, in this order (46 R355). -/
def slotCounts (tr : List WireEvent) : Nat × Nat × Nat :=
  (tr.countP fun x => x.slot.isRst, tr.countP fun x => x.slot.isW, tr.countP fun x => x.slot.isR)

/-- The lower bound of a trace's duration, µs (70 R332). -/
def traceTime (p : Params) (tr : List WireEvent) : Nat := (tr.map fun x => slotTime p x.slot).sum

/-- What the host sees of one line of the history (42 R173). -/
def lineTrace (l : Nat) (tr : List WireEvent) : List Slot :=
  (tr.filter fun x => x.mask.testBit l).map fun x => x.slot

/-- The ideal responder `d` is the only device, on a line with its pull-up whose environment is not
unconstrained (20_memory R84). -/
structure State.Alone (s : State) (d : Device) : Prop where
  devices : s.env.devices = [d]
  line : d.line < s.params.nLines
  pullup : s.env.pullup.testBit d.line = true
  ideal : s.env.oracle.testBit d.line = false

/-- `t` is `s` after a raw line command of opcode `op` (41 R143 to R148): Ok, and nothing else changes but the
three latches and, for lines that carry a device, whether their environment is constrained (log 10). -/
def State.onlyLatches (s t : State) (op : BitVec 5) : Prop :=
  t = { s with
    seq := Seq.ended op,
    status := { s.status with err := 0 },
    lines := t.lines,
    env := { s.env with oracle := t.env.oracle } }

/-- `t` is `s` after a command of opcode `op` that ran the slots `tr` and ended with `e`: STATUS.PRES is `pres`; the
registers, the latches and BUF are as given; the history grew by `tr`, the devices heard it, and its samples are what
the bus gave; the guard's depth is unchanged, its latch holds HOST_IE where the primitives opened it from depth 0, and
HOST_IE is restored (41 R149, R150, R153). Everything else is unchanged (46 R350). -/
def State.busResult (s t : State) (op : BitVec 5) (e : ErrCode) (pres : Bool) (regs : Regs) (lines : Lines)
    (buf : Memory) (tr : List WireEvent) : Prop :=
  t = { s with
    seq := Seq.ended op,
    status := { s.status with err := e.code, pres := pres },
    regs := regs,
    lines := lines,
    guard := { s.guard with savedIe := if s.guard.depth = 0 then s.host.ie else s.guard.savedIe },
    buf := buf,
    env := s.env.replay s.params tr,
    host := { s.host with ie := if s.guard.depth = 0 then s.host.ie else false } } ∧
  s.env.givesAll s.params tr

/-- Line `l` is released as a primitive leaves it (42 R174). -/
def Lines.ReleasedAt (ln : Lines) (l : Nat) : Prop :=
  ln.dir.testBit l = true ∧ ln.out.testBit l = true ∧ ln.strong.testBit l = false

/-- The latches of line `l` are the same. -/
def Lines.SameAt (x y : Lines) (l : Nat) : Prop :=
  y.dir.testBit l = x.dir.testBit l ∧ y.out.testBit l = x.out.testBit l ∧ y.strong.testBit l = x.strong.testBit l

/-- The latches once the selected lines are released as a primitive leaves them (42 R174): DIR = 1, OUT = 1,
STRONG = 0 on the selected lines, the other lines unchanged. -/
def State.linesReleased (s : State) : Lines where
  dir := s.lines.dir ||| s.regs.bussel
  out := s.lines.out ||| s.regs.bussel
  strong := clearBits s.lines.strong s.regs.bussel

/-- The outcomes each command has (60 R271, column "raised by"). -/
def outcomesOf : Instr → List ErrCode
  | .configureOutput | .driveLow | .releaseHigh | .readLevel | .configureInput | .driveHigh => [.ok]
  | .guardEnter | .guardExit | .crc8 | .validate => [.ok, .illegalCommand]
  | .writeBit | .readBit | .writeByte | .readByte | .searchInit | .decodeTemperature => [.ok]
  | .reset | .convert _ | .writeScratchpad _ | .copyScratchpad _ => [.ok, .noPresence]
  | .searchPass => [.ok, .noPresence, .commError]
  | .discover => [.ok, .commError, .discoveryError, .illegalCommand]
  | .readScratchpad _ | .readTemperature _ => [.ok, .noPresence, .crcError, .pullupMissing]
  | .readRom => [.ok, .noPresence, .crcError]

/-- The parts of the state a command's rule may write (30_encoding R104, column "results written"). -/
structure Results where
  rxd : Bool := false
  temp : Bool := false
  buf : Bool := false
  /-- LDISC, PREV_ID, STATUS.LAST -/
  search : Bool := false
  /-- BUSSEL, COUNT, REGISTRY -/
  registry : Bool := false
  /-- LINE_DIR, LINE_OUT, LINE_STRONG -/
  lines : Bool := false
  /-- STATUS.PRES -/
  pres : Bool := false
  /-- GUARD's latch and HOST_IE, also by the pairing inside each primitive (41 R153) -/
  guard : Bool := false
  /-- slots on the wire -/
  wire : Bool := false
  deriving DecidableEq, Repr

/-- The column "results written" of 30_encoding R104, with the lines, the guard's latch and the wire for
the commands that call primitives (46 R353). -/
def resultsOf : Instr → Results
  | .configureOutput | .driveLow | .releaseHigh | .configureInput | .driveHigh => { lines := true }
  | .readLevel => { rxd := true }
  | .guardEnter | .guardExit => { guard := true }
  | .reset => { lines := true, pres := true, guard := true, wire := true }
  | .writeBit | .writeByte => { lines := true, guard := true, wire := true }
  | .readBit | .readByte => { rxd := true, lines := true, guard := true, wire := true }
  | .crc8 | .validate => { rxd := true }
  | .searchInit => { search := true }
  | .searchPass => { search := true, lines := true, pres := true, guard := true, wire := true }
  | .discover =>
    { search := true, registry := true, lines := true, pres := true, guard := true, wire := true }
  | .convert _ | .writeScratchpad _ | .copyScratchpad _ =>
    { lines := true, pres := true, guard := true, wire := true }
  | .readScratchpad _ | .readRom => { buf := true, lines := true, pres := true, guard := true, wire := true }
  | .decodeTemperature => { temp := true }
  | .readTemperature _ =>
    { temp := true, buf := true, lines := true, pres := true, guard := true, wire := true }

/-- The commands that end with their selected lines released (42 R174): those that run primitives on the
lines of BUSSEL and do not drive a line high at their end. -/
def releasesLines : Instr → Bool
  | .reset | .writeBit | .readBit | .writeByte | .readByte | .searchPass | .convert _
  | .readScratchpad _ | .writeScratchpad _ | .readRom | .readTemperature _ => true
  | .configureOutput | .driveLow | .releaseHigh | .readLevel | .configureInput | .driveHigh
  | .guardEnter | .guardExit | .crc8 | .validate | .searchInit | .discover | .copyScratchpad _
  | .decodeTemperature => false

/-- Register numbers the host may write (10_state R41, access RW). -/
def writableRegister (p : Params) (n : Nat) : Bool :=
  [0x02, 0x03, 0x05, 0x06, 0x07, 0x08, 0x0C, 0x0D, 0x12].contains n ||
  decide (0x20 ≤ n ∧ n ≤ 0x38) || decide (0x40 ≤ n ∧ n < 0x40 + p.maxBuses ∧ n < 0x80)

/-- What a writable location keeps of a written value (46 R356): a BusLine cell the bits of existing lines,
LEN bits 3:0, LDISC bits 6:0, every other cell a byte. -/
def keptBits (p : Params) (n v : Nat) : Nat :=
  if n = 0x02 ∨ 0x40 ≤ n then v &&& p.lineMask
  else if n = 0x05 then v % 2 ^ 4
  else if n = 0x0D then v % 2 ^ 7
  else v % 2 ^ 8

end Sys2Proof.Machine
end

