-- ==== Sys2Proof/Certificates/Slice0/Obligations.lean ====
section
/-! DEFINITION. The statements for the provers, from the numbered rules of spec/. -/

open Sys2Proof Sys2Proof.Machine

/-! Encoding (30_encoding). -/

/-- Decoding an encoded command gives it back, with either addressing, and a word that decodes is the word of
what it decodes to: no word has two commands and no command two words (30_encoding R101, R104, R105). -/
def Obligations.DecodeEncodeRoundTrip : Prop :=
  (∀ i : Instr, decode (encode i) = .ok i) ∧
    ∀ (w : Byte) (i : Instr), decode w = .ok i → encode i = w

/-- 30_encoding R106: the illegal words are exactly those with Z not 00, a reserved opcode, or A = 1 on a
command that is not addressed; such a word, written to CMD, completes at once with IllegalCommand and changes
nothing else (SEQ.OP takes the word's opcode, 46 R350). That CMD takes the low byte of what is written is log 4. -/
def Obligations.IllegalWordsOnlySetErr : Prop :=
  (∀ w : Byte, (∃ e, decode w = .error e) ↔
      w.extractLsb' 5 2 ≠ 0 ∨
      [0x0D, 0x0E, 0x0F, 0x12, 0x13, 0x17, 0x1F].contains (w.extractLsb' 0 5) = true ∨
      (w.getLsbD 7 = true ∧ [0x18, 0x19, 0x1A, 0x1B, 0x1E].contains (w.extractLsb' 0 5) = false)) ∧
    ∀ (s : State) (v : Nat) (rest : List Input) (e : DecodeError),
      s.seq.idle = true → s.host.inputs = .access (.write 0 v) :: rest → decode (BitVec.ofNat 8 v) = .error e →
      step s = .next { s with
        seq := Seq.ended ((BitVec.ofNat 8 v).extractLsb' 0 5),
        status := { s.status with err := 7 },
        host := { s.host with inputs := rest } }

/-- Words of the opcode map, one of each component and both forms of an addressed command, read as the table
says; three illegal words (30_encoding R104, R106; 95_test_vectors V-E1 to V-E9). -/
def Obligations.WordsOfTheOpcodeMap : Prop :=
  decode 0x00 = .ok .configureOutput ∧ decode 0x06 = .ok .guardEnter ∧ decode 0x08 = .ok .reset ∧
  decode 0x0C = .ok .readByte ∧ decode 0x11 = .ok .validate ∧ decode 0x16 = .ok .discover ∧
  decode 0x18 = .ok (.convert .skip) ∧ decode 0x98 = .ok (.convert .matched) ∧
  decode 0x1C = .ok .readRom ∧ decode 0x9E = .ok (.readTemperature .matched) ∧
  decode 0x9C = .error .flagNotAllowed ∧ decode 0x0D = .error .reservedOpcode ∧
  decode 0x38 = .error .zNotClear

/-! The step (10_state section 2, 46 R350, R356). -/

/-- When the host's next access writes a word to CMD that decodes to `i`, the step is `exec i` on the state
with that access taken from the queue; and `withFetchWord` makes it so (10_state R34, 20_memory R90). That CMD takes
the low byte of a value above 0xFF is the model's choice, log 4. -/
def Obligations.StepRunsTheDecodedCommand : Prop :=
  (∀ (s : State) (v : Nat) (rest : List Input) (i : Instr),
    s.seq.idle = true → s.host.inputs = .access (.write 0 v) :: rest → decode (BitVec.ofNat 8 v) = .ok i →
    step s = exec i { s with host := { s.host with inputs := rest } }) ∧
  ∀ (s : State) (w : Byte) (i : Instr), decode w = .ok i →
    step (s.withFetchWord 8 w.toNat) = exec i { s with seq := { s.seq with idle := true } }

/-- "Nothing runs until the host issues a command" (70 R313): with no pending input a step changes nothing. -/
def Obligations.NothingRunsWithoutInput : Prop :=
  ∀ s : State, s.host.inputs = [] → step s = .next s

/-- While a command runs no input of the world has a move but the reset, which takes effect at once
(70 R310, R320, 10_state R34). That the model refuses such an input is log 22. A reset that hits inside a command
leaves the block as the reset input does (70 R310). What it leaves of the rest is log 13: the devices and the history
are where the first `k` primitives of the command left them, or all where it has no more; between two primitives, or
where no more are to come, HOST_IE is what the command restores; inside a primitive it is open, that primitive is
marked in the history, and the environment of its lines that carry a device is unconstrained (70 R311, 93 U25). -/
def Obligations.RunningCommandHoldsTheHost : Prop :=
  (∀ (s : State) (x : Input) (rest : List Input),
    s.seq.idle = false → s.host.inputs = x :: rest →
    (isReset x = false → step s = .refused .sequencerBusy) ∧
    (x = .reset → ∃ t, step s = .next t ∧ t.seq.idle = true)) ∧
  ∀ (s u : State) (w : Byte) (k : Nat) (torn : Bool) (rest : List Input) (tr : List WireEvent),
    s.seq.idle = true → s.host.inputs = .resetInside w k torn :: rest →
    step (s.takeInput (.access (.write 0 w.toNat) :: rest)) = .next u → u.env.wire = s.env.wire ++ tr →
    ∃ t r, step s = .next t ∧ step (s.takeInput (.reset :: rest)) = .next r ∧
      t = { r with env := t.env, host := { r.host with ie := t.host.ie } } ∧
      (tr.length ≤ k → t.env = u.env ∧ t.host.ie = u.host.ie) ∧
      (k < tr.length → torn = false →
        t.env = s.env.replay s.params (tr.take k) ∧ t.host.ie = u.host.ie) ∧
      ∀ x, tr[k]? = some x → torn = true →
        t.env = ((s.env.replay s.params (tr.take k)).disturb x.mask).hear s.params
          { mask := x.mask, slot := .cut } ∧
        t.host.ie = Config.drawIe (s.env.replay s.params (tr.take k)).samples

/-! Reset (10_state R48, 70 R310). -/

/-- 10_state R48, 70 R310: what the reset input leaves of the block, from any state, also when it hits in the middle of
a command: every register location reads its reset value, every line is released, no guard is open, the sequencer is
idle, registry, bus list and buffer are zero. A reset between commands resets neither HOST_IE nor the devices. -/
def Obligations.ResetLeavesTheResetValues : Prop :=
  ∀ (s : State) (x : Input) (rest : List Input), s.host.inputs = x :: rest →
    x = .reset ∨ (s.seq.idle = true ∧ ∃ w k torn, x = .resetInside w k torn) →
    ∃ t, step s = .next t ∧
      (∀ n, n < 0x80 → t.readReg n =
        if n = 0x01 then 0x10 else if n = 0x0F then s.params.lineMask else 0) ∧
      t.seq = Seq.ended 0 ∧ (∀ l, t.lines.drv l = .rel) ∧
      t.status = { err := 0, pres := false, last := true } ∧
      t.search = { ldisc := 0, prevId := 0 } ∧
      t.guard = { depth := 0, savedIe := false } ∧
      (∀ j i, t.registry.lineOf j = 0 ∧ t.registry.addrByte j i = 0) ∧
      (∀ i, t.buslist.read i = 0 ∧ t.buf.read i = 0) ∧
      t.host = { s.host with inputs := rest, ie := t.host.ie } ∧ t.params = s.params ∧
      (x = .reset → t.host.ie = s.host.ie ∧ t.env = s.env)

/-- The state after reset satisfies the invariant and is final. HOST_IE, the pull-ups, the environment and
the parameters of that state are the model's choices (log 3, 11, 12). -/
def Obligations.ResetStateIsSafe : Prop := State.reset.Inv ∧ State.reset.final

/-- Every step keeps the invariant: parameters in range, no command left running, the reserved error code
never written, LAST against LDISC.VALID, every mask on existing lines, a guard level kept free, interrupts
masked while a guard is open, COUNT within the capacity, storage in its canonical form. -/
def Obligations.StepKeepsTheInvariant : Prop :=
  ∀ s t : State, s.Inv → step s = .next t → t.Inv

/-! The register space (10_state R41, 46 R356). -/

/-- A writable location reads back what a write stored, less its reserved bits (46 R356); that a cell narrower than the
value takes its low bits is log 4. -/
def Obligations.RegisterWriteThenRead : Prop :=
  ∀ (s : State) (n : Byte) (v : Nat) (rest : List Input), s.Inv →
    writableRegister s.params n.toNat = true →
    s.host.inputs = .access (.write n v) :: .access (.read n) :: rest →
    ∃ t u, step s = .next t ∧ step t = .next u ∧ u.host.rdata = keptBits s.params n.toNat v

/-- A write to a location other than CMD changes the reading of no other location, but for STATUS.LAST, which
follows LDISC, and the registry window, which follows REGIDX; a write to LDISC changes STATUS in no bit but LAST's, bit
4 (46 R356, 10_state R36, R40, 20_memory R64). -/
def Obligations.RegisterWriteTouchesOneCell : Prop :=
  ∀ (s : State) (n m v : Nat), s.Inv → n ≠ 0 → m ≠ n → n < 0x80 → m < 0x80 →
    ¬(n = 0x12 ∧ (m = 0x13 ∨ (0x18 ≤ m ∧ m ≤ 0x1F))) →
    (¬(n = 0x0D ∧ m = 0x01) → (s.writeReg n v).readReg m = s.readReg m) ∧
    (n = 0x0D → m = 0x01 → ∀ k, k ≠ 4 → ((s.writeReg n v).readReg m).testBit k = (s.readReg m).testBit k)

/-- A write to a read-only or reserved location is ignored; one to LDISC sets STATUS.LAST to not v[6]
(10_state R40, R41, 46 R356). -/
def Obligations.ReadOnlyLocationsIgnoreWrites : Prop :=
  ∀ (s : State) (n : Byte) (v : Nat) (rest : List Input),
    s.seq.idle = true → s.host.inputs = .access (.write n v) :: rest → n ≠ 0 → n.toNat < 0x80 →
    ∃ t, step s = .next t ∧
      (writableRegister s.params n.toNat = false → t = { s with host := { s.host with inputs := rest } }) ∧
      (n = 0x0D → t.status.last = !v.testBit 6)

/-- A register number above 0x7F does not exist in the interface: an access to it stops with a fault of that
name (46 R356; that it faults is log 23); every other read answers and changes nothing but the value read. -/
def Obligations.RegistersAbove7FDoNotExist : Prop :=
  ∀ (s : State) (n : Byte) (v : Nat) (rest : List Input), s.seq.idle = true →
    (s.host.inputs = .access (.read n) :: rest →
      (0x80 ≤ n.toNat → step s = .fault (.noSuchRegister n)) ∧
      (n.toNat < 0x80 →
        step s = .next { s with host := { s.host with inputs := rest, rdata := s.readReg n.toNat } })) ∧
    (s.host.inputs = .access (.write n v) :: rest → 0x80 ≤ n.toNat →
      step s = .fault (.noSuchRegister n))

/-- 20_memory R64: the window reads the line and the address bytes of entry REGIDX, and 0x00 when REGIDX is
REGISTRY_CAPACITY or more. -/
def Obligations.RegistryWindow : Prop :=
  ∀ (s : State) (i : Nat), i < 8 →
    (s.regs.regidx.toNat < s.params.registryCapacity →
      s.readReg 0x13 = s.registry.lineOf s.regs.regidx.toNat ∧
      s.readReg (0x18 + i) = (s.registry.addrByte s.regs.regidx.toNat i).toNat) ∧
    (s.params.registryCapacity ≤ s.regs.regidx.toNat →
      s.readReg 0x13 = 0 ∧ s.readReg (0x18 + i) = 0)

/-- 10_state R36: the fields of STATUS as the host reads it; SPU is 1 exactly when some line is driven
actively high, GRD when a guard is open, BUSY when a command runs. -/
def Obligations.StatusByteFields : Prop :=
  ∀ s : State,
    s.readReg 0x01 < 2 ^ 8 ∧
    s.readReg 0x01 % 8 = s.status.err.toNat ∧
    (s.readReg 0x01).testBit 3 = s.status.pres ∧
    (s.readReg 0x01).testBit 4 = s.status.last ∧
    ((s.readReg 0x01).testBit 5 = true ↔ ∃ l, s.lines.drv l = .high) ∧
    ((s.readReg 0x01).testBit 6 = true ↔ s.guard.depth ≠ 0) ∧
    ((s.readReg 0x01).testBit 7 = true ↔ s.seq.idle = false)

/-! Line Interface (41_line_interface). -/

/-- 41 R143, R147: CONFIGURE_OUTPUT and CONFIGURE_INPUT set and clear DIR of the selected lines and change
nothing else of the block but ERR; an input line is released whatever its latches hold. That a line newly driven
low may become unconstrained is log 10. -/
def Obligations.ConfigureDirection : Prop :=
  ∀ s : State,
    (∃ t, exec .configureOutput s = .next t ∧ s.onlyLatches t 0x00 ∧ ∀ l,
      t.lines.dir.testBit l = (s.lines.dir.testBit l || s.regs.bussel.testBit l) ∧
      t.lines.out.testBit l = s.lines.out.testBit l ∧
      t.lines.strong.testBit l = s.lines.strong.testBit l) ∧
    (∃ t, exec .configureInput s = .next t ∧ s.onlyLatches t 0x04 ∧ ∀ l,
      t.lines.dir.testBit l = (s.lines.dir.testBit l && !s.regs.bussel.testBit l) ∧
      t.lines.out.testBit l = s.lines.out.testBit l ∧
      t.lines.strong.testBit l = s.lines.strong.testBit l ∧
      (s.regs.bussel.testBit l = true → t.lines.drv l = .rel))

/-- 41 R144, R145, R148: DRIVE_LOW, RELEASE_HIGH and DRIVE_HIGH write OUT and STRONG of the selected lines and
change nothing else of the block but ERR; the pin follows only where DIR = 1. That a line newly driven low may
become unconstrained is log 10. -/
def Obligations.DriveLatches : Prop :=
  ∀ s : State,
    (∃ t, exec .driveLow s = .next t ∧ s.onlyLatches t 0x01 ∧ ∀ l,
      t.lines.dir.testBit l = s.lines.dir.testBit l ∧
      t.lines.out.testBit l = (s.lines.out.testBit l && !s.regs.bussel.testBit l) ∧
      t.lines.strong.testBit l = (s.lines.strong.testBit l && !s.regs.bussel.testBit l) ∧
      (s.regs.bussel.testBit l = true →
        t.lines.drv l = if s.lines.dir.testBit l then .low else .rel)) ∧
    (∃ t, exec .releaseHigh s = .next t ∧ s.onlyLatches t 0x02 ∧ ∀ l,
      t.lines.dir.testBit l = s.lines.dir.testBit l ∧
      t.lines.out.testBit l = (s.lines.out.testBit l || s.regs.bussel.testBit l) ∧
      t.lines.strong.testBit l = (s.lines.strong.testBit l && !s.regs.bussel.testBit l) ∧
      (s.regs.bussel.testBit l = true → t.lines.drv l = .rel)) ∧
    (∃ t, exec .driveHigh s = .next t ∧ s.onlyLatches t 0x05 ∧ ∀ l,
      t.lines.dir.testBit l = s.lines.dir.testBit l ∧
      t.lines.out.testBit l = (s.lines.out.testBit l || s.regs.bussel.testBit l) ∧
      t.lines.strong.testBit l = (s.lines.strong.testBit l || s.regs.bussel.testBit l) ∧
      (s.regs.bussel.testBit l = true →
        t.lines.drv l = if s.lines.dir.testBit l then .high else .rel))

/-- 41 R146, R142: READ_LEVEL answers 1 in RXD exactly when every selected line is high, hence 1 for the empty
mask and 0 when the host itself drives a selected line low; it changes nothing else of the block. -/
def Obligations.ReadLevelSamplesTheSelectedLines : Prop :=
  ∀ s : State, ∃ t, exec .readLevel s = .next t ∧
    t = { s with
      seq := Seq.ended 0x03,
      status := { s.status with err := 0 },
      regs := { s.regs with rxd := t.regs.rxd },
      env := { s.env with samples := s.env.samples + 1 } } ∧
    (t.regs.rxd = 0 ∨ t.regs.rxd = 1) ∧
    (t.regs.rxd = 1 ↔ ∀ l, l < s.params.nLines → s.regs.bussel.testBit l = true →
      s.env.level (s.lines.drv l) .idle l = true) ∧
    (s.regs.bussel = 0 → t.regs.rxd = 1) ∧
    ((∃ l, l < s.params.nLines ∧ s.regs.bussel.testBit l = true ∧ s.lines.drv l = .low) → t.regs.rxd = 0)

/-- 20_memory R72: the level of a line, for every driver state; where the spec draws it, the level is the free
value (log 6). On a line whose environment is not unconstrained (log 5) a pull is that of some device there; that a
device pulls only where the line has its pull-up is log 8, and that a busy device outside slots pulls by the free value
is log 9. -/
def Obligations.LineLevelRule : Prop :=
  ∀ (e : BusEnv) (k : SampleKind) (l : Nat),
    e.level .low k l = false ∧
    (e.pulled k l = true → e.level .rel k l = false) ∧
    (e.pulled k l = false → e.pullup.testBit l = true → e.level .rel k l = true) ∧
    (e.pulled k l = false → e.pullup.testBit l = false →
      e.level .rel k l = Config.drawLevel e.samples l) ∧
    (e.pulled k l = false → e.level .high k l = true) ∧
    (e.pulled k l = true → e.level .high k l = Config.drawLevel e.samples l) ∧
    (e.oracle.testBit l = false → (e.pulled k l = true ↔
      ∃ d, d ∈ e.devices ∧ d.line = l ∧ e.pullup.testBit l = true ∧
        d.pulls k (Config.drawPull e.samples l) = true))

/-! The guard (41 section 3). -/

/-- 41 R151, R149: GUARD_ENTER below the depth limit saves HOST_IE on the way from depth 0, masks it and counts
up; at the limit it is IllegalCommand and the state is unchanged. -/
def Obligations.GuardEnterEffect : Prop :=
  ∀ s : State,
    (s.guard.depth.toNat < s.params.guardMax - 1 →
      exec .guardEnter s = .next { s with
        seq := Seq.ended 0x06,
        status := { s.status with err := 0 },
        guard := { depth := s.guard.depth + 1,
                   savedIe := if s.guard.depth = 0 then s.host.ie else s.guard.savedIe },
        host := { s.host with ie := false } }) ∧
    (s.params.guardMax - 1 ≤ s.guard.depth.toNat →
      exec .guardEnter s = .next { s with
        seq := Seq.ended 0x06, status := { s.status with err := 7 } })

/-- 41 R152, R150: GUARD_EXIT counts down and restores the saved HOST_IE when the depth returns to 0; with no
guard open it is IllegalCommand and the state is unchanged. -/
def Obligations.GuardExitEffect : Prop :=
  ∀ s : State,
    (s.guard.depth ≠ 0 →
      exec .guardExit s = .next { s with
        seq := Seq.ended 0x07,
        status := { s.status with err := 0 },
        guard := { s.guard with depth := s.guard.depth - 1 },
        host := { s.host with
          ie := if s.guard.depth = 1 then s.guard.savedIe else s.host.ie } }) ∧
    (s.guard.depth = 0 →
      exec .guardExit s = .next { s with
        seq := Seq.ended 0x07, status := { s.status with err := 7 } })

/-- A guard entered and left restores depth and HOST_IE, whatever HOST_IE was, and masks it in between
(41 R149 to R152; "The restored value is the saved one, not 1"). -/
def Obligations.GuardPairRestores : Prop :=
  ∀ s : State, s.params.guardMax ≤ 7 → s.guard.depth.toNat < s.params.guardMax - 1 →
    (s.guard.depth ≠ 0 → s.host.ie = false) →
    ∃ t u, exec .guardEnter s = .next t ∧ exec .guardExit t = .next u ∧
      t.host.ie = false ∧ t.guard.depth ≠ 0 ∧
      u.guard.depth = s.guard.depth ∧ u.host = s.host ∧ u.status.err = 0

/-- The invariant of 41 R153 and what the pairing of R149 and R150 inside each primitive leaves: for every command but
GUARD_ENTER and GUARD_EXIT, with the events `tr` it puts on the wire, GUARD.DEPTH is the same at its end as at its
start; with DEPTH 0 at entry HOST_IE is the same and GUARD.SAVED_IE holds it once a primitive ran; with DEPTH not 0
GUARD.SAVED_IE is the same, and HOST_IE stays 0 in every state of the invariant. -/
def Obligations.CommandsKeepTheGuard : Prop :=
  ∀ (i : Instr) (s t : State), i ≠ .guardEnter → i ≠ .guardExit → exec i s = .next t →
    ∃ tr, t.env.wire = s.env.wire ++ tr ∧
      t.guard.depth = s.guard.depth ∧
      (s.guard.depth = 0 → t.host.ie = s.host.ie ∧
        t.guard.savedIe = if tr = [] then s.guard.savedIe else s.host.ie) ∧
      (s.guard.depth ≠ 0 → t.guard.savedIe = s.guard.savedIe ∧ (s.Inv → t.host.ie = false))

/-- The host's own change of HOST_IE has a move while no guard is open and none inside one (10_state R44; what
GUARD_ENTER and GUARD_EXIT do to HOST_IE is theirs). The preempting collaborator runs while HOST_IE = 1 and has no step
while a guard is open (41 R155). That the inputs without a move are refused is log 22; that a run of the collaborator
changes nothing but the queue is log 25 (00_scope R13, 20_memory R71). -/
def Obligations.GuardExcludesTheCollaborator : Prop :=
  ∀ (s : State) (rest : List Input), s.Inv →
    (∀ b, s.host.inputs = .setHostIe b :: rest →
      (s.guard.depth = 0 → step s = .next { s with host := { s.host with ie := b, inputs := rest } }) ∧
      (s.guard.depth ≠ 0 → step s = .refused .hostIeInsideGuard)) ∧
    (s.host.inputs = .preempt :: rest →
      (s.host.ie = true → step s = .next { s with host := { s.host with inputs := rest } }) ∧
      (s.guard.depth ≠ 0 → step s = .refused .preemptMasked))

/-! Bit Transport (42_bit_transport). -/

/-- 42 R160: RESET samples presence on the released lines, sets PRES to it and ends with Ok or NoPresence; its
wire event is RST, every device that hears it starts a transaction; with an empty mask there is no presence. (A
conversion whose chosen end falls on this event ends with it: `tick`, log 26.) -/
def Obligations.ResetSamplesPresence : Prop :=
  ∀ s : State, ∃ t, exec .reset s = .next t ∧
    s.busResult t 0x08 (if s.presence then .ok else .noPresence) s.presence s.regs s.linesReleased s.buf
      [resetEvent s.regs.bussel s.presence] ∧
    t.env.devices = s.env.devices.map (fun d =>
      if s.regs.bussel.testBit d.line ∧ s.env.pullup.testBit d.line then
        ({ d with mode := .romCmd 0 0 } : Device).tick s.params else d) ∧
    (s.presence = false ↔ ∀ l, l < s.params.nLines → s.regs.bussel.testBit l = true →
      s.env.level .rel .presence l = true) ∧
    (s.regs.bussel = 0 → s.presence = false)

/-- 42 R163, R164: WRITE_BIT puts one write slot carrying TXD[0] on the selected lines; TXD is unchanged and
the command cannot fail. -/
def Obligations.WriteBitSendsOneSlot : Prop :=
  ∀ s : State, ∃ t, exec .writeBit s = .next t ∧
    s.busResult t 0x09 .ok s.status.pres s.regs s.linesReleased s.buf
      [{ mask := s.regs.bussel, slot := .w (s.regs.txd.getLsbD 0) }]

/-- 42 R166, R167: READ_BIT puts one read slot on the selected lines and answers the sample, zero-extended, in
RXD: 1 exactly when every selected line, released, is high. -/
def Obligations.ReadBitSamplesOneSlot : Prop :=
  ∀ s : State, ∃ t b, exec .readBit s = .next t ∧
    s.busResult t 0x0A .ok s.status.pres { s.regs with rxd := if b then 1 else 0 } s.linesReleased s.buf
      [{ mask := s.regs.bussel, slot := .r b }] ∧
    (b = true ↔ ∀ l, l < s.params.nLines → s.regs.bussel.testBit l = true →
      s.env.level .rel .slot l = true)

/-- 42 R169, 20_memory R65: WRITE_BYTE puts eight write slots on the wire, the k-th carrying bit k of TXD. -/
def Obligations.WriteByteIsLsbFirst : Prop :=
  ∀ s : State, ∃ t, exec .writeByte s = .next t ∧
    s.busResult t 0x0B .ok s.status.pres s.regs s.linesReleased s.buf
      ([0, 1, 2, 3, 4, 5, 6, 7].map fun k =>
        { mask := s.regs.bussel, slot := .w (s.regs.txd.getLsbD k) })

/-- 42 R170, R167, 20_memory R65: READ_BYTE is eight read slots, and bit k of RXD is the sample of the k-th: 1 exactly
when every selected line, released, is high at that slot, the k slots before it having been heard by the devices. -/
def Obligations.ReadByteIsLsbFirst : Prop :=
  ∀ s : State, ∃ t v, exec .readByte s = .next t ∧
    s.busResult t 0x0C .ok s.status.pres { s.regs with rxd := v } s.linesReleased s.buf
      ([0, 1, 2, 3, 4, 5, 6, 7].map fun k => { mask := s.regs.bussel, slot := .r (v.getLsbD k) }) ∧
    ∀ k, k < 8 → (v.getLsbD k = true ↔ ∀ l, l < s.params.nLines → s.regs.bussel.testBit l = true →
      (s.env.replay s.params (([0, 1, 2, 3, 4, 5, 6, 7].map fun j =>
        { mask := s.regs.bussel, slot := .r (v.getLsbD j) }).take k)).level .rel .slot l = true)

/-- 42 R174: after every command that runs primitives on the lines of BUSSEL, but COPY_SCRATCHPAD, the selected
lines are released (DIR = 1, OUT = 1, STRONG = 0), also when the command failed, and no other line changed. -/
def Obligations.BusCommandsReleaseTheLines : Prop :=
  ∀ (i : Instr) (s : State), releasesLines i = true → ∃ t, exec i s = .next t ∧ ∀ l,
    (s.regs.bussel.testBit l = true → t.lines.drv l = .rel ∧ t.lines.ReleasedAt l) ∧
    (s.regs.bussel.testBit l = false → s.lines.SameAt t.lines l)

/-- 70 R331: the phases of a write slot sum to T_SLOT_W for both bits and those of a read slot to T_SLOT_R; the
recovery gap T_REC follows each slot and is outside the sum. -/
def Obligations.SlotPhasesSumToTheSlot : Prop :=
  ∀ p : Params, p.timesWf = true →
    (∀ b, phaseTime (writeSlotPhases p b) = p.tSlotW ∧ slotTime p (.w b) = p.tSlotW + p.tRec) ∧
    phaseTime (readSlotPhases p) = p.tSlotR ∧ ∀ b, slotTime p (.r b) = p.tSlotR + p.tRec

/-- 70 R332: lower bounds of durations with the default parameters: CONVERT with and without an address,
READ_SCRATCHPAD without one, and a completed SEARCH_PASS. -/
def Obligations.DurationsOfTransactions : Prop :=
  ∀ s : State, s.params = Params.default → s.presence = true →
    (∀ a, ∃ t tr, exec (.convert a) s = .next t ∧ t.env.wire = s.env.wire ++ tr ∧
      traceTime Params.default tr = match a with | .skip => 1936 | .matched => 5840) ∧
    (∃ t tr, exec (.readScratchpad .skip) s = .next t ∧ t.env.wire = s.env.wire ++ tr ∧
      traceTime Params.default tr = 5248) ∧
    (∃ t tr, exec .searchPass s = .next t ∧ t.env.wire = s.env.wire ++ tr ∧
      (t.status.err = 0 → traceTime Params.default tr = 11240))

/-! CRC8 (43_crc8). -/

/-- 43_crc8 R191: CRC8 answers the checksum of BUF[0..LEN-1] in RXD, CRC_INIT for LEN = 0, and changes nothing
else; LEN above 9 is IllegalCommand and RXD is unchanged. -/
def Obligations.CrcCommandResult : Prop :=
  ∀ s : State,
    (s.regs.len.toNat ≤ 9 →
      exec .crc8 s = .next { s with
        seq := Seq.ended 0x10,
        status := { s.status with err := 0 },
        regs := { s.regs with
          rxd := crc8 s.params.crcInit ((List.range s.regs.len.toNat).map s.buf.read) } }) ∧
    (9 < s.regs.len.toNat →
      exec .crc8 s = .next { s with seq := Seq.ended 0x10, status := { s.status with err := 7 } })

/-- 43_crc8 R193: VALIDATE answers 0x01 in RXD when the checksum of BUF[0..LEN-1] equals TXD and 0x00 when it
does not, Ok in both cases; LEN above 9 is IllegalCommand. -/
def Obligations.ValidateResult : Prop :=
  ∀ s : State,
    (s.regs.len.toNat ≤ 9 →
      exec .validate s = .next { s with
        seq := Seq.ended 0x11,
        status := { s.status with err := 0 },
        regs := { s.regs with
          rxd := if crc8 s.params.crcInit ((List.range s.regs.len.toNat).map s.buf.read) = s.regs.txd
            then 0x01 else 0x00 } }) ∧
    (9 < s.regs.len.toNat →
      exec .validate s = .next { s with seq := Seq.ended 0x11, status := { s.status with err := 7 } })

/-- 43_crc8 R192 (a) to (e): the laws of `crc8`: the empty sequence, the left fold, the checksum appended to what
it sums, zeros, a sequence with a valid trailing checksum byte (its checksum is 0 only when the last byte is that
of the others), and that a step depends only on the exclusive or of register and byte. -/
def Obligations.CrcLaws : Prop :=
  (∀ init, crc8 init [] = init) ∧
  (∀ init d b, crc8 init (d ++ [b]) = crcByte (crc8 init d) b) ∧
  (∀ d, crc8 0 (d ++ [crc8 0 d]) = 0) ∧
  (∀ d b, crc8 0 (d ++ [b]) = 0 → crc8 0 d = b) ∧
  (∀ n, crc8 0 (List.replicate n 0) = 0) ∧
  ∀ c b, crcByte c b = crcByte (c ^^^ b) 0

/-- 43_crc8 R190: one bit step of the running register, bit by bit: the register shifts right, bit 7 becomes
the XORed bit, and bits 3 and 2 are inverted when the XORed bit is 1 (the feedback constant 0x8C). -/
def Obligations.CrcBitStep : Prop :=
  ∀ (c : Byte) (x : Bool),
    (crcBit c x).getLsbD 7 = (c.getLsbD 0 ^^ x) ∧
    (crcBit c x).getLsbD 3 = (c.getLsbD 4 ^^ (c.getLsbD 0 ^^ x)) ∧
    (crcBit c x).getLsbD 2 = (c.getLsbD 3 ^^ (c.getLsbD 0 ^^ x)) ∧
    ∀ k, k < 7 → k ≠ 3 → k ≠ 2 → (crcBit c x).getLsbD k = c.getLsbD (k + 1)

/-! Device Discovery Engine (44_rom_search). -/

/-- 44 R200: SEARCH_INIT leaves LDISC "none", PREV_ID all zero, LAST = 1, Ok, and changes nothing else; it is
the search state after reset. -/
def Obligations.SearchInitEffect : Prop :=
  ∀ s : State,
    exec .searchInit s = .next { s with
      seq := Seq.ended 0x14,
      status := { s.status with err := 0, last := true },
      search := State.reset.search } ∧
    State.reset.search = { ldisc := 0, prevId := 0 }

/-- 44 R202: the choice at a collision and its recording: before LD.POS the previous identifier's bit, at it 1,
after it or with no discrepancy 0; a chosen 0 is recorded, also in the replayed part; no collision takes the
first read and records nothing; the recorded position is what LDISC then says. -/
def Obligations.CollisionChoice : Prop :=
  ∀ (ld : SearchState) (p : Nat) (cand : Option Nat),
    (ld.valid = true → p < ld.discPos → tripletBit ld p false false = idBit ld.prevId p) ∧
    (ld.valid = true → p = ld.discPos → tripletBit ld p false false = true) ∧
    (ld.valid = false ∨ ld.discPos < p → tripletBit ld p false false = false) ∧
    tripletCand ld p false false cand =
      (if tripletBit ld p false false = false then some p else cand) ∧
    (∀ b c, b ≠ c → tripletBit ld p b c = b ∧ tripletCand ld p b c cand = cand) ∧
    (p < 64 → ∀ id, SearchState.valid { ldisc := ldiscOf (some p), prevId := id } = true ∧
      SearchState.discPos { ldisc := ldiscOf (some p), prevId := id } = p ∧
      SearchState.valid { ldisc := ldiscOf none, prevId := id } = false)

/-- 44 R203: a SEARCH_PASS ends with Ok, NoPresence or CommError; NoPresence exactly when the reset found none,
and then nothing is sent; any failed pass leaves the initial search state. A completed pass is the reset, the search
command if it is sent, and 64 triplets with reads `b` and `c`, none of them (1,1): each writes the bit chosen from its
reads and the LDISC and PREV_ID at the pass's start, PREV_ID becomes the bits written, LDISC the last candidate, and
LAST is not VALID. A pass that ends with CommError made such triplets up to a read pair (1,1). BUSSEL, ADDR, BUF, the
registry and COUNT never change. -/
def Obligations.SearchPassOutcomes : Prop :=
  ∀ s : State, ∃ t, exec .searchPass s = .next t ∧
    (t.status.err = 0 ∨ t.status.err = 1 ∨ t.status.err = 2) ∧
    (t.status.err = 1 ↔ s.presence = false) ∧
    (s.presence = false → t.env.wire = s.env.wire ++ [resetEvent s.regs.bussel false]) ∧
    (t.status.err ≠ 0 → t.search = { ldisc := 0, prevId := 0 } ∧ t.status.last = true) ∧
    (t.status.err = 0 → ∃ b c : Nat → Bool,
      t.env.wire = s.env.wire ++ resetEvent s.regs.bussel true ::
        (searchCommandEvents s.params s.regs.bussel ++
          (List.range 64).flatMap (tripletEvents s.search s.regs.bussel b c)) ∧
      (∀ p, p < 64 → ¬(b p = true ∧ c p = true) ∧
        idBit t.search.prevId p = tripletBit s.search p (b p) (c p)) ∧
      t.search.ldisc = ldiscOf (candAfter s.search b c (List.range 64) none) ∧
      t.status.last = !t.search.valid) ∧
    (t.status.err = 2 → ∃ (n : Nat) (b c : Nat → Bool), n < 64 ∧ (∀ p, p < n → ¬(b p = true ∧ c p = true)) ∧
      t.env.wire = s.env.wire ++ resetEvent s.regs.bussel true ::
        (searchCommandEvents s.params s.regs.bussel ++
          (List.range n).flatMap (tripletEvents s.search s.regs.bussel b c) ++
          [{ mask := s.regs.bussel, slot := .r true }, { mask := s.regs.bussel, slot := .r true }])) ∧
    t.status.pres = s.presence ∧ t.regs = s.regs ∧ t.buf = s.buf ∧ t.registry = s.registry ∧
    t.buslist = s.buslist ∧ t.lines = s.linesReleased

/-- 46 R355: a completed SEARCH_PASS makes 1 bus reset, 72 write slots (64 with SEARCH_SENDS_COMMAND off) and
128 read slots. -/
def Obligations.SearchPassSlotCounts : Prop :=
  ∀ s t : State, exec .searchPass s = .next t → t.status.err = 0 →
    ∃ tr, t.env.wire = s.env.wire ++ tr ∧
      slotCounts tr = (1, if s.params.searchSendsCommand then 72 else 64, 128)

/-- 44 R205 (a): with one device on the selected line, an ideal responder that the command byte puts into a
search, a pass finds its address, whatever search state it starts from, records no discrepancy and ends Ok. The device
is left silent and, unless an end is chosen for a conversion it makes (log 26), otherwise as it was. That a device still
converting answers as any other is log 9. -/
def Obligations.LoneDevicePass : Prop :=
  ∀ (s : State) (d : Device), s.Alone d → s.regs.bussel = 2 ^ d.line →
    s.params.searchSendsCommand = true → d.romFunction s.params s.params.cmdSearchRom = .search 0 0 →
    ∃ t x, exec .searchPass s = .next t ∧
      t.search = { ldisc := 0, prevId := d.addr } ∧
      t.status = { err := 0, pres := true, last := true } ∧
      t.seq = Seq.ended 0x15 ∧ t.regs = s.regs ∧ t.buf = s.buf ∧ t.registry = s.registry ∧
      t.buslist = s.buslist ∧ t.lines = s.linesReleased ∧
      t.env.devices = [x] ∧ x.line = d.line ∧ x.addr = d.addr ∧ x.mode = .off ∧
      ((d.busy = true → d.due = []) → x = { d with mode := .off })

/-- 44 R212, R216 (a): DISCOVER with NBUS above MAX_BUSES is IllegalCommand and nothing else changes; with
NBUS = 0 it ends Ok with COUNT = 0, no bus touched and BUSSEL unchanged. -/
def Obligations.DiscoverOperandCheck : Prop :=
  ∀ s : State,
    (s.params.maxBuses < s.regs.nbus.toNat →
      exec .discover s = .next { s with
        seq := Seq.ended 0x16, status := { s.status with err := 7 } }) ∧
    (s.regs.nbus = 0 →
      exec .discover s = .next { s with
        seq := Seq.ended 0x16, status := { s.status with err := 0 },
        registry := { s.registry with count := 0 } })

/-- 44 R214, 10_state R24: after a DISCOVER that ended Ok every registered address is CRC-clean, and no more are
registered than the registry holds. -/
def Obligations.DiscoverRegistryIsClean : Prop :=
  ∀ s t : State, s.Inv → exec .discover s = .next t → t.status.err = 0 →
    t.registry.count.toNat ≤ s.params.registryCapacity ∧
    ∀ j, j < t.registry.count.toNat →
      crc8 s.params.crcInit ((List.range 7).map (t.registry.addrByte j)) = t.registry.addrByte j 7

/-- 44 R212 to R216: a DISCOVER whose operands are legal ends with Ok, CommError or DiscoveryError, never with
NoPresence, and every failure leaves COUNT = 0. Its frame: BUF, BUSLIST and every register but BUSSEL, what lies beyond
the REGISTRY_CAPACITY entries of the registry, and the latches of lines on no listed bus. With outcome Ok the lines of
every listed bus are left released (42 R174), BUSSEL is the last of them, and the buses were enumerated in list order:
the events of DISCOVER are those `ev i` of bus `i` one after the other, each of them on the lines BUSLIST[i] and begun
with a reset, and bus `i` registered the entries `first i` to `first (i + 1) - 1`: one for each of its completed
passes, in pass order, with the line BUSLIST[i] and the identifier the pass wrote on the wire. The entries of earlier
buses stay, and those from COUNT on are unchanged. -/
def Obligations.DiscoverOutcomesAndFrame : Prop :=
  ∀ s : State, s.Inv → s.regs.nbus.toNat ≤ s.params.maxBuses → ∃ t, exec .discover s = .next t ∧
    (t.status.err = 0 ∨ t.status.err = 2 ∨ t.status.err = 5) ∧
    (t.status.err ≠ 0 → t.registry.count = 0) ∧
    t.buf = s.buf ∧ t.buslist = s.buslist ∧ t.regs = { s.regs with bussel := t.regs.bussel } ∧
    (∀ j, s.params.registryCapacity ≤ j → t.registry.lines.read j = s.registry.lines.read j) ∧
    (∀ c, 8 * s.params.registryCapacity ≤ c → t.registry.addrs.read c = s.registry.addrs.read c) ∧
    (∀ l, (∀ i, i < s.regs.nbus.toNat → (s.buslist.read i).testBit l = false) → s.lines.SameAt t.lines l) ∧
    (t.status.err = 0 → ∀ i l, i < s.regs.nbus.toNat → (s.buslist.read i).testBit l = true →
      t.lines.drv l = .rel ∧ t.lines.ReleasedAt l) ∧
    (t.status.err = 0 → (0 < s.regs.nbus.toNat → t.regs.bussel = s.buslist.read (s.regs.nbus.toNat - 1)) ∧
      (∀ j, t.registry.count.toNat ≤ j → s.registry.SameEntry t.registry j) ∧
      ∃ (ev : Nat → List WireEvent) (first : Nat → Nat),
        t.env.wire = s.env.wire ++ (List.range s.regs.nbus.toNat).flatMap ev ∧
        first 0 = 0 ∧ first s.regs.nbus.toNat = t.registry.count.toNat ∧
        ∀ i, i < s.regs.nbus.toNat →
          t.registry.Registers s.params (s.buslist.read i) (ev i) (first i) (first (i + 1)))

/-- 70 R327: DISCOVER runs at most NBUS * (REGISTRY_CAPACITY + 1) passes: that many bus resets. -/
def Obligations.DiscoverPassBound : Prop :=
  ∀ s t : State, exec .discover s = .next t → ∃ tr, t.env.wire = s.env.wire ++ tr ∧
    (slotCounts tr).1 ≤ s.regs.nbus.toNat * (s.params.registryCapacity + 1)

/-- 44 R213: on buses without any device, each line with its pull-up, DISCOVER ends Ok with COUNT = 0, having
made one reset without presence a bus; BUSSEL is left at the last bus of the list. -/
def Obligations.DiscoverOfEmptyBuses : Prop :=
  ∀ s : State, s.env.devices = [] → s.env.oracle = 0 → s.env.pullup = s.params.lineMask →
    s.regs.nbus.toNat ≤ s.params.maxBuses → ∃ t, exec .discover s = .next t ∧
      t.status.err = 0 ∧ t.registry.count = 0 ∧
      t.env.wire = s.env.wire ++
        (List.range s.regs.nbus.toNat).map (fun i => resetEvent (s.buslist.read i) false) ∧
      (0 < s.regs.nbus.toNat → t.regs.bussel = s.buslist.read (s.regs.nbus.toNat - 1) ∧
        t.status.pres = false ∧ t.status.last = true)

/-- 44 R212 with one bus and one device on it whose address is CRC-clean: DISCOVER ends Ok with COUNT = 1 and
that device in entry 0; every other entry of the registry is unchanged. That a device still converting answers as any
other is log 9. -/
def Obligations.LoneDeviceDiscovery : Prop :=
  ∀ (s : State) (d : Device), s.Inv → s.Alone d → s.regs.nbus = 1 →
    s.buslist.read 0 = 2 ^ d.line →
    s.params.searchSendsCommand = true → d.romFunction s.params s.params.cmdSearchRom = .search 0 0 →
    crc8 s.params.crcInit (addrBytes d.addr 7) = byteAt d.addr 7 →
    ∃ t, exec .discover s = .next t ∧ t.status.err = 0 ∧ t.registry.count = 1 ∧
      t.registry.lineOf 0 = 2 ^ d.line ∧
      (∀ i, i < 8 → t.registry.addrByte 0 i = byteAt d.addr i) ∧
      (∀ j, 1 ≤ j → t.registry.lineOf j = s.registry.lineOf j ∧
        ∀ i, i < 8 → t.registry.addrByte j i = s.registry.addrByte j i) ∧
      t.regs.bussel = 2 ^ d.line ∧ t.search = { ldisc := 0, prevId := d.addr }

/-- 44 R206 and the source's property "`discover` returns exactly those N addresses", for one listed bus of one line
that carries every device there is: with ideal responders of distinct, CRC-clean addresses, at least one and no more
than the registry holds, DISCOVER ends Ok with COUNT their number and every one of them registered. Devices on other
lines and lists of several buses are not in it. That a device still converting answers as any other is log 9. -/
def Obligations.DiscoverFindsEveryDevice : Prop :=
  ∀ (s : State) (l : Nat), s.Inv → l < s.params.nLines → s.env.oracle.testBit l = false →
    s.env.pullup.testBit l = true →
    s.regs.nbus = 1 → s.buslist.read 0 = 2 ^ l → s.params.searchSendsCommand = true →
    s.env.devices ≠ [] → s.env.devices.length ≤ s.params.registryCapacity →
    (s.env.devices.map fun d => d.addr).Nodup →
    (∀ d, d ∈ s.env.devices → d.line = l ∧
      d.romFunction s.params s.params.cmdSearchRom = .search 0 0 ∧
      crc8 s.params.crcInit (addrBytes d.addr 7) = byteAt d.addr 7) →
    ∃ t, exec .discover s = .next t ∧ t.status.err = 0 ∧
      t.registry.count.toNat = s.env.devices.length ∧
      ∀ d, d ∈ s.env.devices → ∃ j, j < t.registry.count.toNat ∧
        t.registry.lineOf j = 2 ^ l ∧
        ∀ i, i < 8 → t.registry.addrByte j i = byteAt d.addr i

/-! Sensor Protocol (45_sensor_protocol). -/

/-- 45 R232, R230: CONVERT with presence sends its addressing and the start-conversion byte, ends Ok and leaves
the lines released; ADDR is sent byte 0 first. -/
def Obligations.ConvertTransaction : Prop :=
  ∀ (a : Addressing) (s : State), s.presence = true → ∃ t, exec (.convert a) s = .next t ∧
    s.busResult t 0x18 .ok true s.regs s.linesReleased s.buf
      (resetEvent s.regs.bussel true :: writtenBytes s.regs.bussel (match a with
        | .skip => [s.params.cmdSkipRom, s.params.cmdConvertT]
        | .matched => s.params.cmdMatchRom :: addrBytes s.regs.addr 8 ++ [s.params.cmdConvertT]))

/-- 45 R240: WRITE_SCRATCHPAD with presence sends its addressing, the command byte and then ARG_TH, ARG_TL,
ARG_CFG in this order, and ends Ok. -/
def Obligations.WriteScratchpadTransaction : Prop :=
  ∀ (a : Addressing) (s : State), s.presence = true → ∃ t, exec (.writeScratchpad a) s = .next t ∧
    s.busResult t 0x1A .ok true s.regs s.linesReleased s.buf
      (resetEvent s.regs.bussel true :: writtenBytes s.regs.bussel (addressBytes a s ++
        [s.params.cmdWriteScratchpad, s.regs.argTh, s.regs.argTl, s.regs.argCfg]))

/-- 45 R242: COPY_SCRATCHPAD with presence sends its addressing and the copy byte, and ends Ok with the selected
lines driven actively high and the other lines as they were, so STATUS.SPU = 1. -/
def Obligations.CopyScratchpadHoldsTheLinesHigh : Prop :=
  ∀ (a : Addressing) (s : State), s.presence = true → ∃ t, exec (.copyScratchpad a) s = .next t ∧
    s.busResult t 0x1B .ok true s.regs
      { dir := s.lines.dir ||| s.regs.bussel, out := s.lines.out ||| s.regs.bussel,
        strong := s.lines.strong ||| s.regs.bussel } s.buf
      (resetEvent s.regs.bussel true :: writtenBytes s.regs.bussel (addressBytes a s ++
        [s.params.cmdCopyScratchpad])) ∧
    (∀ l, s.regs.bussel.testBit l = true → t.lines.drv l = .high) ∧
    (t.readReg 0x01).testBit 5 = true

/-- 45 R230, 60 R272: without presence every sensor command that begins with a reset ends with NoPresence:
nothing is sent after the reset, BUF and TEMP are unchanged, and the lines are left released, not high. -/
def Obligations.AbsentDeviceShortCircuits : Prop :=
  ∀ (i : Instr) (s : State) (a : Addressing), s.presence = false →
    i = .convert a ∨ i = .readScratchpad a ∨ i = .writeScratchpad a ∨ i = .copyScratchpad a ∨
      i = .readRom ∨ i = .readTemperature a →
    ∃ t, exec i s = .next t ∧
      s.busResult t (opcodeOf i) .noPresence false s.regs s.linesReleased s.buf
        [resetEvent s.regs.bussel false]

/-- 45 R236, R238: READ_SCRATCHPAD with presence receives nine bytes into BUF, cell 0 first, and ends with
PullupMissing when all are zero, else with CRCError when the checksum of the first eight is not the ninth,
else Ok; BUF holds the bytes received in each case. -/
def Obligations.ReadScratchpadOutcome : Prop :=
  ∀ (a : Addressing) (s : State), s.presence = true → s.buf.wf = true →
    ∃ t bs, exec (.readScratchpad a) s = .next t ∧ bs.length = 9 ∧
      s.busResult t 0x19
        (if bs = List.replicate 9 0 then .pullupMissing
          else if crc8 s.params.crcInit (bs.take 8) = bs.getD 8 0 then .ok else .crcError)
        true s.regs s.linesReleased t.buf
        (resetEvent s.regs.bussel true ::
          (writtenBytes s.regs.bussel (addressBytes a s ++ [s.params.cmdReadScratchpad]) ++
            receivedBytes s.regs.bussel bs)) ∧
      ∀ i, t.buf.read i = if i < 9 then bs.getD i 0 else s.buf.read i

/-- 45 R244: READ_ROM with presence receives eight bytes; when the checksum of the first seven is the eighth it
ends Ok with BUF[0..7] those bytes, else with CRCError and BUF[0..7] zeroed; BUF[8] is never touched. -/
def Obligations.ReadRomOutcome : Prop :=
  ∀ s : State, s.presence = true → s.buf.wf = true →
    ∃ t bs, exec .readRom s = .next t ∧ bs.length = 8 ∧
      s.busResult t 0x1C
        (if crc8 s.params.crcInit (bs.take 7) = bs.getD 7 0 then .ok else .crcError)
        true s.regs s.linesReleased t.buf
        (resetEvent s.regs.bussel true ::
          (writtenBytes s.regs.bussel [s.params.cmdReadRom] ++ receivedBytes s.regs.bussel bs)) ∧
      ∀ i, t.buf.read i =
        if i < 8 then (if crc8 s.params.crcInit (bs.take 7) = bs.getD 7 0 then bs.getD i 0 else 0)
        else s.buf.read i

/-- 45 R248: DECODE_TEMPERATURE leaves in TEMP the two's complement value BUF[1]*256 + BUF[0], less 65536 when
BUF[1][7] = 1, and changes nothing else. -/
def Obligations.DecodeTemperatureValue : Prop :=
  ∀ s : State, ∃ t, exec .decodeTemperature s = .next t ∧
    t = { s with
      seq := Seq.ended 0x1D,
      status := { s.status with err := 0 },
      regs := { s.regs with temp := t.regs.temp } } ∧
    t.regs.temp.toInt = (s.buf.read 1).toNat * 256 + (s.buf.read 0).toNat -
      if (s.buf.read 1).getLsbD 7 then 65536 else 0

/-- 45 R250: READ_TEMPERATURE with presence is READ_SCRATCHPAD and, when that is Ok, the decoding of its first
two bytes into TEMP; on any error TEMP keeps its value. -/
def Obligations.ReadTemperatureOutcome : Prop :=
  ∀ (a : Addressing) (s : State), s.presence = true → s.buf.wf = true →
    ∃ t bs e, exec (.readTemperature a) s = .next t ∧ bs.length = 9 ∧
      e = (if bs = List.replicate 9 0 then .pullupMissing
        else if crc8 s.params.crcInit (bs.take 8) = bs.getD 8 0 then .ok else .crcError) ∧
      s.busResult t 0x1E e true
        (if e = .ok then { s.regs with temp := bs.getD 1 0 ++ bs.getD 0 0 } else s.regs)
        s.linesReleased t.buf
        (resetEvent s.regs.bussel true ::
          (writtenBytes s.regs.bussel (addressBytes a s ++ [s.params.cmdReadScratchpad]) ++
            receivedBytes s.regs.bussel bs)) ∧
      ∀ i, t.buf.read i = if i < 9 then bs.getD i 0 else s.buf.read i

/-- The source's end-to-end property (95_test_vectors S7; 45 R250 under 20_memory R84): with one device on the
selected line whose scratchpad is CRC-clean and not all zero, READ_TEMPERATURE, broadcast or addressed to it,
ends Ok with the scratchpad in BUF and its first two bytes in TEMP. The device is the only one there is, on any line.
If it is converting, no end of that conversion is chosen (log 26), so that it does not end inside the command, and it
answers as any other (log 9). Where other command bytes than those named coincide, which byte the device takes rests on
the model's test order (log 28). -/
def Obligations.LoneDeviceTemperature : Prop :=
  ∀ (a : Addressing) (s : State) (d : Device), s.buf.wf = true → s.Alone d → (d.busy = true → d.due = []) →
    s.regs.bussel = 2 ^ d.line →
    s.params.cmdReadScratchpad ≠ s.params.cmdConvertT →
    (a = .matched → s.regs.addr = d.addr ∧ s.params.cmdMatchRom ≠ s.params.cmdSkipRom) →
    scratchpadCrc s.params.crcInit d.sp = byteAt d.sp 8 → d.sp ≠ 0 →
    ∃ t, exec (.readTemperature a) s = .next t ∧
      t.status = { s.status with err := 0, pres := true } ∧
      t.regs = { s.regs with temp := byteAt d.sp 1 ++ byteAt d.sp 0 } ∧
      (∀ i, i < 9 → t.buf.read i = byteAt d.sp i) ∧
      (∀ i, 9 ≤ i → t.buf.read i = s.buf.read i)

/-- 45 R244 under 20_memory R82, R84: with one device on the selected line whose address is CRC-clean, READ_ROM
ends Ok with the address in BUF[0..7]. That a device still converting answers as any other is log 9. -/
def Obligations.LoneDeviceRom : Prop :=
  ∀ (s : State) (d : Device), s.buf.wf = true → s.Alone d →
    s.regs.bussel = 2 ^ d.line →
    d.romFunction s.params s.params.cmdReadRom = .send (d.addr.setWidth 72) 64 →
    crc8 s.params.crcInit (addrBytes d.addr 7) = byteAt d.addr 7 →
    ∃ t, exec .readRom s = .next t ∧ t.status = { s.status with err := 0, pres := true } ∧
      t.regs = s.regs ∧ (∀ i, i < 8 → t.buf.read i = byteAt d.addr i) ∧
      (∀ i, 8 ≤ i → t.buf.read i = s.buf.read i)

/-! Common semantics (46_common_semantics, 60_exceptions). -/

/-- 46 R350, 60 R271, R277: every command, in every state, completes; it ends with the sequencer idle, its
counters 0 and its opcode kept, and with an outcome the command has; STATUS.ERR is that outcome's code. -/
def Obligations.EveryCommandCompletes : Prop :=
  ∀ (i : Instr) (s : State), ∃ t e, exec i s = .next t ∧ t.seq = Seq.ended (opcodeOf i) ∧
    e ∈ outcomesOf i ∧ t.status.err = e.code

/-- 46 R350: a command changes exactly what its row of the opcode map names, plus STATUS.ERR: no command changes
the parameters, TXD, LEN, ARG_TH, ARG_TL, ARG_CFG, ADDR, NBUS, REGIDX, BUSLIST, the pull-ups or the host's
pending inputs, and each other part only the commands that write it. A command that calls primitives changes the bus by
wire events alone, each of which every device there hears and whose sample is what the bus gives at its instant
(42 R161, R164, R167, R173); a command that calls none leaves the devices and the history. -/
def Obligations.CommandFrame : Prop :=
  ∀ (i : Instr) (s t : State), exec i s = .next t →
    t.params = s.params ∧ t.buslist = s.buslist ∧ t.env.pullup = s.env.pullup ∧
    t.host = { s.host with ie := t.host.ie } ∧
    t.regs = { s.regs with rxd := t.regs.rxd, temp := t.regs.temp, bussel := t.regs.bussel } ∧
    ((resultsOf i).rxd = false → t.regs.rxd = s.regs.rxd) ∧
    ((resultsOf i).temp = false → t.regs.temp = s.regs.temp) ∧
    ((resultsOf i).buf = false → ∀ c, t.buf.read c = s.buf.read c) ∧
    ((resultsOf i).search = false → t.search = s.search ∧ t.status.last = s.status.last) ∧
    ((resultsOf i).registry = false → t.registry = s.registry ∧ t.regs.bussel = s.regs.bussel) ∧
    ((resultsOf i).lines = false → t.lines = s.lines) ∧
    ((resultsOf i).pres = false → t.status.pres = s.status.pres) ∧
    ((resultsOf i).guard = false → t.guard = s.guard ∧ t.host.ie = s.host.ie) ∧
    ((resultsOf i).wire = false → t.env.wire = s.env.wire ∧ t.env.devices = s.env.devices) ∧
    ((resultsOf i).wire = true → ∃ tr, t.env = s.env.replay s.params tr ∧ s.env.givesAll s.params tr)
end

