-- ==== Sys2Proof/Laws/State.lean ====
section
/-! SUPPORT. One lemma per field per named update of State: what the update makes of it, true by rfl. -/

namespace Sys2Proof.Machine

variable (s : State)

@[simp] theorem State.lineDrive_params (m : BusLine) (d : Drive) : (s.lineDrive m d).params = s.params := rfl
@[simp] theorem State.lineDrive_seq (m : BusLine) (d : Drive) : (s.lineDrive m d).seq = s.seq := rfl
@[simp] theorem State.lineDrive_regs (m : BusLine) (d : Drive) : (s.lineDrive m d).regs = s.regs := rfl
@[simp] theorem State.lineDrive_status (m : BusLine) (d : Drive) : (s.lineDrive m d).status = s.status := rfl
@[simp] theorem State.lineDrive_search (m : BusLine) (d : Drive) : (s.lineDrive m d).search = s.search := rfl
@[simp] theorem State.lineDrive_lines (m : BusLine) (d : Drive) : (s.lineDrive m d).lines = s.lines.drive m d := rfl
@[simp] theorem State.lineDrive_guard (m : BusLine) (d : Drive) : (s.lineDrive m d).guard = s.guard := rfl
@[simp] theorem State.lineDrive_buf (m : BusLine) (d : Drive) : (s.lineDrive m d).buf = s.buf := rfl
@[simp] theorem State.lineDrive_registry (m : BusLine) (d : Drive) : (s.lineDrive m d).registry = s.registry := rfl
@[simp] theorem State.lineDrive_buslist (m : BusLine) (d : Drive) : (s.lineDrive m d).buslist = s.buslist := rfl
@[simp] theorem State.lineDrive_env (m : BusLine) (d : Drive) : (s.lineDrive m d).env = s.env := rfl
@[simp] theorem State.lineDrive_host (m : BusLine) (d : Drive) : (s.lineDrive m d).host = s.host := rfl

@[simp] theorem State.guardEnter_params : (s.guardEnter).params = s.params := rfl
@[simp] theorem State.guardEnter_seq : (s.guardEnter).seq = s.seq := rfl
@[simp] theorem State.guardEnter_regs : (s.guardEnter).regs = s.regs := rfl
@[simp] theorem State.guardEnter_status : (s.guardEnter).status = s.status := rfl
@[simp] theorem State.guardEnter_search : (s.guardEnter).search = s.search := rfl
@[simp] theorem State.guardEnter_lines : (s.guardEnter).lines = s.lines := rfl
@[simp] theorem State.guardEnter_guard : (s.guardEnter).guard = { depth := s.guard.depth + 1, savedIe := if s.guard.depth = 0 then s.host.ie else s.guard.savedIe } := rfl
@[simp] theorem State.guardEnter_buf : (s.guardEnter).buf = s.buf := rfl
@[simp] theorem State.guardEnter_registry : (s.guardEnter).registry = s.registry := rfl
@[simp] theorem State.guardEnter_buslist : (s.guardEnter).buslist = s.buslist := rfl
@[simp] theorem State.guardEnter_env : (s.guardEnter).env = s.env := rfl
@[simp] theorem State.guardEnter_host : (s.guardEnter).host = { s.host with ie := false } := rfl

@[simp] theorem State.guardExit_params : (s.guardExit).params = s.params := rfl
@[simp] theorem State.guardExit_seq : (s.guardExit).seq = s.seq := rfl
@[simp] theorem State.guardExit_regs : (s.guardExit).regs = s.regs := rfl
@[simp] theorem State.guardExit_status : (s.guardExit).status = s.status := rfl
@[simp] theorem State.guardExit_search : (s.guardExit).search = s.search := rfl
@[simp] theorem State.guardExit_lines : (s.guardExit).lines = s.lines := rfl
@[simp] theorem State.guardExit_guard : (s.guardExit).guard = { s.guard with depth := s.guard.depth - 1 } := rfl
@[simp] theorem State.guardExit_buf : (s.guardExit).buf = s.buf := rfl
@[simp] theorem State.guardExit_registry : (s.guardExit).registry = s.registry := rfl
@[simp] theorem State.guardExit_buslist : (s.guardExit).buslist = s.buslist := rfl
@[simp] theorem State.guardExit_env : (s.guardExit).env = s.env := rfl
@[simp] theorem State.guardExit_host : (s.guardExit).host = { s.host with ie := if s.guard.depth - 1 = 0 then s.guard.savedIe else s.host.ie } := rfl

@[simp] theorem State.searchInit_params : (s.searchInit).params = s.params := rfl
@[simp] theorem State.searchInit_seq : (s.searchInit).seq = s.seq := rfl
@[simp] theorem State.searchInit_regs : (s.searchInit).regs = s.regs := rfl
@[simp] theorem State.searchInit_status : (s.searchInit).status = { s.status with last := true } := rfl
@[simp] theorem State.searchInit_search : (s.searchInit).search = { ldisc := 0, prevId := 0 } := rfl
@[simp] theorem State.searchInit_lines : (s.searchInit).lines = s.lines := rfl
@[simp] theorem State.searchInit_guard : (s.searchInit).guard = s.guard := rfl
@[simp] theorem State.searchInit_buf : (s.searchInit).buf = s.buf := rfl
@[simp] theorem State.searchInit_registry : (s.searchInit).registry = s.registry := rfl
@[simp] theorem State.searchInit_buslist : (s.searchInit).buslist = s.buslist := rfl
@[simp] theorem State.searchInit_env : (s.searchInit).env = s.env := rfl
@[simp] theorem State.searchInit_host : (s.searchInit).host = s.host := rfl

@[simp] theorem State.setBitcnt_params (k : Nat) : (s.setBitcnt k).params = s.params := rfl
@[simp] theorem State.setBitcnt_seq (k : Nat) : (s.setBitcnt k).seq = { s.seq with bitcnt := BitVec.ofNat 3 k } := rfl
@[simp] theorem State.setBitcnt_regs (k : Nat) : (s.setBitcnt k).regs = s.regs := rfl
@[simp] theorem State.setBitcnt_status (k : Nat) : (s.setBitcnt k).status = s.status := rfl
@[simp] theorem State.setBitcnt_search (k : Nat) : (s.setBitcnt k).search = s.search := rfl
@[simp] theorem State.setBitcnt_lines (k : Nat) : (s.setBitcnt k).lines = s.lines := rfl
@[simp] theorem State.setBitcnt_guard (k : Nat) : (s.setBitcnt k).guard = s.guard := rfl
@[simp] theorem State.setBitcnt_buf (k : Nat) : (s.setBitcnt k).buf = s.buf := rfl
@[simp] theorem State.setBitcnt_registry (k : Nat) : (s.setBitcnt k).registry = s.registry := rfl
@[simp] theorem State.setBitcnt_buslist (k : Nat) : (s.setBitcnt k).buslist = s.buslist := rfl
@[simp] theorem State.setBitcnt_env (k : Nat) : (s.setBitcnt k).env = s.env := rfl
@[simp] theorem State.setBitcnt_host (k : Nat) : (s.setBitcnt k).host = s.host := rfl

@[simp] theorem State.setBytecnt_params (i : Nat) : (s.setBytecnt i).params = s.params := rfl
@[simp] theorem State.setBytecnt_seq (i : Nat) : (s.setBytecnt i).seq = { s.seq with bytecnt := BitVec.ofNat 4 i } := rfl
@[simp] theorem State.setBytecnt_regs (i : Nat) : (s.setBytecnt i).regs = s.regs := rfl
@[simp] theorem State.setBytecnt_status (i : Nat) : (s.setBytecnt i).status = s.status := rfl
@[simp] theorem State.setBytecnt_search (i : Nat) : (s.setBytecnt i).search = s.search := rfl
@[simp] theorem State.setBytecnt_lines (i : Nat) : (s.setBytecnt i).lines = s.lines := rfl
@[simp] theorem State.setBytecnt_guard (i : Nat) : (s.setBytecnt i).guard = s.guard := rfl
@[simp] theorem State.setBytecnt_buf (i : Nat) : (s.setBytecnt i).buf = s.buf := rfl
@[simp] theorem State.setBytecnt_registry (i : Nat) : (s.setBytecnt i).registry = s.registry := rfl
@[simp] theorem State.setBytecnt_buslist (i : Nat) : (s.setBytecnt i).buslist = s.buslist := rfl
@[simp] theorem State.setBytecnt_env (i : Nat) : (s.setBytecnt i).env = s.env := rfl
@[simp] theorem State.setBytecnt_host (i : Nat) : (s.setBytecnt i).host = s.host := rfl

@[simp] theorem State.setPos_params (p : Nat) : (s.setPos p).params = s.params := rfl
@[simp] theorem State.setPos_seq (p : Nat) : (s.setPos p).seq = { s.seq with pos := BitVec.ofNat 7 p } := rfl
@[simp] theorem State.setPos_regs (p : Nat) : (s.setPos p).regs = s.regs := rfl
@[simp] theorem State.setPos_status (p : Nat) : (s.setPos p).status = s.status := rfl
@[simp] theorem State.setPos_search (p : Nat) : (s.setPos p).search = s.search := rfl
@[simp] theorem State.setPos_lines (p : Nat) : (s.setPos p).lines = s.lines := rfl
@[simp] theorem State.setPos_guard (p : Nat) : (s.setPos p).guard = s.guard := rfl
@[simp] theorem State.setPos_buf (p : Nat) : (s.setPos p).buf = s.buf := rfl
@[simp] theorem State.setPos_registry (p : Nat) : (s.setPos p).registry = s.registry := rfl
@[simp] theorem State.setPos_buslist (p : Nat) : (s.setPos p).buslist = s.buslist := rfl
@[simp] theorem State.setPos_env (p : Nat) : (s.setPos p).env = s.env := rfl
@[simp] theorem State.setPos_host (p : Nat) : (s.setPos p).host = s.host := rfl

@[simp] theorem State.setRxd_params (v : Byte) : (s.setRxd v).params = s.params := rfl
@[simp] theorem State.setRxd_seq (v : Byte) : (s.setRxd v).seq = s.seq := rfl
@[simp] theorem State.setRxd_regs (v : Byte) : (s.setRxd v).regs = { s.regs with rxd := v } := rfl
@[simp] theorem State.setRxd_status (v : Byte) : (s.setRxd v).status = s.status := rfl
@[simp] theorem State.setRxd_search (v : Byte) : (s.setRxd v).search = s.search := rfl
@[simp] theorem State.setRxd_lines (v : Byte) : (s.setRxd v).lines = s.lines := rfl
@[simp] theorem State.setRxd_guard (v : Byte) : (s.setRxd v).guard = s.guard := rfl
@[simp] theorem State.setRxd_buf (v : Byte) : (s.setRxd v).buf = s.buf := rfl
@[simp] theorem State.setRxd_registry (v : Byte) : (s.setRxd v).registry = s.registry := rfl
@[simp] theorem State.setRxd_buslist (v : Byte) : (s.setRxd v).buslist = s.buslist := rfl
@[simp] theorem State.setRxd_env (v : Byte) : (s.setRxd v).env = s.env := rfl
@[simp] theorem State.setRxd_host (v : Byte) : (s.setRxd v).host = s.host := rfl

@[simp] theorem State.setBuf_params (i : Nat) (v : Byte) : (s.setBuf i v).params = s.params := rfl
@[simp] theorem State.setBuf_seq (i : Nat) (v : Byte) : (s.setBuf i v).seq = s.seq := rfl
@[simp] theorem State.setBuf_regs (i : Nat) (v : Byte) : (s.setBuf i v).regs = s.regs := rfl
@[simp] theorem State.setBuf_status (i : Nat) (v : Byte) : (s.setBuf i v).status = s.status := rfl
@[simp] theorem State.setBuf_search (i : Nat) (v : Byte) : (s.setBuf i v).search = s.search := rfl
@[simp] theorem State.setBuf_lines (i : Nat) (v : Byte) : (s.setBuf i v).lines = s.lines := rfl
@[simp] theorem State.setBuf_guard (i : Nat) (v : Byte) : (s.setBuf i v).guard = s.guard := rfl
@[simp] theorem State.setBuf_buf (i : Nat) (v : Byte) : (s.setBuf i v).buf = s.buf.write i v := rfl
@[simp] theorem State.setBuf_registry (i : Nat) (v : Byte) : (s.setBuf i v).registry = s.registry := rfl
@[simp] theorem State.setBuf_buslist (i : Nat) (v : Byte) : (s.setBuf i v).buslist = s.buslist := rfl
@[simp] theorem State.setBuf_env (i : Nat) (v : Byte) : (s.setBuf i v).env = s.env := rfl
@[simp] theorem State.setBuf_host (i : Nat) (v : Byte) : (s.setBuf i v).host = s.host := rfl

@[simp] theorem State.setCount_params (v : Byte) : (s.setCount v).params = s.params := rfl
@[simp] theorem State.setCount_seq (v : Byte) : (s.setCount v).seq = s.seq := rfl
@[simp] theorem State.setCount_regs (v : Byte) : (s.setCount v).regs = s.regs := rfl
@[simp] theorem State.setCount_status (v : Byte) : (s.setCount v).status = s.status := rfl
@[simp] theorem State.setCount_search (v : Byte) : (s.setCount v).search = s.search := rfl
@[simp] theorem State.setCount_lines (v : Byte) : (s.setCount v).lines = s.lines := rfl
@[simp] theorem State.setCount_guard (v : Byte) : (s.setCount v).guard = s.guard := rfl
@[simp] theorem State.setCount_buf (v : Byte) : (s.setCount v).buf = s.buf := rfl
@[simp] theorem State.setCount_registry (v : Byte) : (s.setCount v).registry = { s.registry with count := v } := rfl
@[simp] theorem State.setCount_buslist (v : Byte) : (s.setCount v).buslist = s.buslist := rfl
@[simp] theorem State.setCount_env (v : Byte) : (s.setCount v).env = s.env := rfl
@[simp] theorem State.setCount_host (v : Byte) : (s.setCount v).host = s.host := rfl

@[simp] theorem State.setPres_params (b : Bool) : (s.setPres b).params = s.params := rfl
@[simp] theorem State.setPres_seq (b : Bool) : (s.setPres b).seq = s.seq := rfl
@[simp] theorem State.setPres_regs (b : Bool) : (s.setPres b).regs = s.regs := rfl
@[simp] theorem State.setPres_status (b : Bool) : (s.setPres b).status = { s.status with pres := b } := rfl
@[simp] theorem State.setPres_search (b : Bool) : (s.setPres b).search = s.search := rfl
@[simp] theorem State.setPres_lines (b : Bool) : (s.setPres b).lines = s.lines := rfl
@[simp] theorem State.setPres_guard (b : Bool) : (s.setPres b).guard = s.guard := rfl
@[simp] theorem State.setPres_buf (b : Bool) : (s.setPres b).buf = s.buf := rfl
@[simp] theorem State.setPres_registry (b : Bool) : (s.setPres b).registry = s.registry := rfl
@[simp] theorem State.setPres_buslist (b : Bool) : (s.setPres b).buslist = s.buslist := rfl
@[simp] theorem State.setPres_env (b : Bool) : (s.setPres b).env = s.env := rfl
@[simp] theorem State.setPres_host (b : Bool) : (s.setPres b).host = s.host := rfl

@[simp] theorem State.start_params (op : BitVec 5) : (s.start op).params = s.params := rfl
@[simp] theorem State.start_seq (op : BitVec 5) : (s.start op).seq = { s.seq with op := op, idle := false } := rfl
@[simp] theorem State.start_regs (op : BitVec 5) : (s.start op).regs = s.regs := rfl
@[simp] theorem State.start_status (op : BitVec 5) : (s.start op).status = s.status := rfl
@[simp] theorem State.start_search (op : BitVec 5) : (s.start op).search = s.search := rfl
@[simp] theorem State.start_lines (op : BitVec 5) : (s.start op).lines = s.lines := rfl
@[simp] theorem State.start_guard (op : BitVec 5) : (s.start op).guard = s.guard := rfl
@[simp] theorem State.start_buf (op : BitVec 5) : (s.start op).buf = s.buf := rfl
@[simp] theorem State.start_registry (op : BitVec 5) : (s.start op).registry = s.registry := rfl
@[simp] theorem State.start_buslist (op : BitVec 5) : (s.start op).buslist = s.buslist := rfl
@[simp] theorem State.start_env (op : BitVec 5) : (s.start op).env = s.env := rfl
@[simp] theorem State.start_host (op : BitVec 5) : (s.start op).host = s.host := rfl

@[simp] theorem State.finish_params (e : ErrCode) : (s.finish e).params = s.params := rfl
@[simp] theorem State.finish_seq (e : ErrCode) : (s.finish e).seq = { s.seq with idle := true, bitcnt := 0, bytecnt := 0, pos := 0 } := rfl
@[simp] theorem State.finish_regs (e : ErrCode) : (s.finish e).regs = s.regs := rfl
@[simp] theorem State.finish_status (e : ErrCode) : (s.finish e).status = { s.status with err := e.code } := rfl
@[simp] theorem State.finish_search (e : ErrCode) : (s.finish e).search = s.search := rfl
@[simp] theorem State.finish_lines (e : ErrCode) : (s.finish e).lines = s.lines := rfl
@[simp] theorem State.finish_guard (e : ErrCode) : (s.finish e).guard = s.guard := rfl
@[simp] theorem State.finish_buf (e : ErrCode) : (s.finish e).buf = s.buf := rfl
@[simp] theorem State.finish_registry (e : ErrCode) : (s.finish e).registry = s.registry := rfl
@[simp] theorem State.finish_buslist (e : ErrCode) : (s.finish e).buslist = s.buslist := rfl
@[simp] theorem State.finish_env (e : ErrCode) : (s.finish e).env = s.env := rfl
@[simp] theorem State.finish_host (e : ErrCode) : (s.finish e).host = s.host := rfl

@[simp] theorem State.countSample_params : (s.countSample).params = s.params := rfl
@[simp] theorem State.countSample_seq : (s.countSample).seq = s.seq := rfl
@[simp] theorem State.countSample_regs : (s.countSample).regs = s.regs := rfl
@[simp] theorem State.countSample_status : (s.countSample).status = s.status := rfl
@[simp] theorem State.countSample_search : (s.countSample).search = s.search := rfl
@[simp] theorem State.countSample_lines : (s.countSample).lines = s.lines := rfl
@[simp] theorem State.countSample_guard : (s.countSample).guard = s.guard := rfl
@[simp] theorem State.countSample_buf : (s.countSample).buf = s.buf := rfl
@[simp] theorem State.countSample_registry : (s.countSample).registry = s.registry := rfl
@[simp] theorem State.countSample_buslist : (s.countSample).buslist = s.buslist := rfl
@[simp] theorem State.countSample_env : (s.countSample).env = { s.env with samples := s.env.samples + 1 } := rfl
@[simp] theorem State.countSample_host : (s.countSample).host = s.host := rfl

@[simp] theorem State.wireEvent_params (m : BusLine) (x : Slot) : (s.wireEvent m x).params = s.params := rfl
@[simp] theorem State.wireEvent_seq (m : BusLine) (x : Slot) : (s.wireEvent m x).seq = s.seq := rfl
@[simp] theorem State.wireEvent_regs (m : BusLine) (x : Slot) : (s.wireEvent m x).regs = s.regs := rfl
@[simp] theorem State.wireEvent_status (m : BusLine) (x : Slot) : (s.wireEvent m x).status = s.status := rfl
@[simp] theorem State.wireEvent_search (m : BusLine) (x : Slot) : (s.wireEvent m x).search = s.search := rfl
@[simp] theorem State.wireEvent_lines (m : BusLine) (x : Slot) : (s.wireEvent m x).lines = s.lines := rfl
@[simp] theorem State.wireEvent_guard (m : BusLine) (x : Slot) : (s.wireEvent m x).guard = s.guard := rfl
@[simp] theorem State.wireEvent_buf (m : BusLine) (x : Slot) : (s.wireEvent m x).buf = s.buf := rfl
@[simp] theorem State.wireEvent_registry (m : BusLine) (x : Slot) : (s.wireEvent m x).registry = s.registry := rfl
@[simp] theorem State.wireEvent_buslist (m : BusLine) (x : Slot) : (s.wireEvent m x).buslist = s.buslist := rfl
@[simp] theorem State.wireEvent_env (m : BusLine) (x : Slot) : (s.wireEvent m x).env = s.env.hear s.params { mask := m, slot := x } := rfl
@[simp] theorem State.wireEvent_host (m : BusLine) (x : Slot) : (s.wireEvent m x).host = s.host := rfl

@[simp] theorem State.setLatches_params (ln : Lines) : (s.setLatches ln).params = s.params := rfl
@[simp] theorem State.setLatches_seq (ln : Lines) : (s.setLatches ln).seq = s.seq := rfl
@[simp] theorem State.setLatches_regs (ln : Lines) : (s.setLatches ln).regs = s.regs := rfl
@[simp] theorem State.setLatches_status (ln : Lines) : (s.setLatches ln).status = s.status := rfl
@[simp] theorem State.setLatches_search (ln : Lines) : (s.setLatches ln).search = s.search := rfl
@[simp] theorem State.setLatches_lines (ln : Lines) : (s.setLatches ln).lines = ln := rfl
@[simp] theorem State.setLatches_guard (ln : Lines) : (s.setLatches ln).guard = s.guard := rfl
@[simp] theorem State.setLatches_buf (ln : Lines) : (s.setLatches ln).buf = s.buf := rfl
@[simp] theorem State.setLatches_registry (ln : Lines) : (s.setLatches ln).registry = s.registry := rfl
@[simp] theorem State.setLatches_buslist (ln : Lines) : (s.setLatches ln).buslist = s.buslist := rfl
@[simp] theorem State.setLatches_env (ln : Lines) : (s.setLatches ln).env = s.env.disturb (clearBits ln.lowMask s.lines.lowMask) := rfl
@[simp] theorem State.setLatches_host (ln : Lines) : (s.setLatches ln).host = s.host := rfl

@[simp] theorem State.attach_params (l : Nat) (a : DeviceAddress) (sp : Scratchpad) : (s.attach l a sp).params = s.params := rfl
@[simp] theorem State.attach_seq (l : Nat) (a : DeviceAddress) (sp : Scratchpad) : (s.attach l a sp).seq = s.seq := rfl
@[simp] theorem State.attach_regs (l : Nat) (a : DeviceAddress) (sp : Scratchpad) : (s.attach l a sp).regs = s.regs := rfl
@[simp] theorem State.attach_status (l : Nat) (a : DeviceAddress) (sp : Scratchpad) : (s.attach l a sp).status = s.status := rfl
@[simp] theorem State.attach_search (l : Nat) (a : DeviceAddress) (sp : Scratchpad) : (s.attach l a sp).search = s.search := rfl
@[simp] theorem State.attach_lines (l : Nat) (a : DeviceAddress) (sp : Scratchpad) : (s.attach l a sp).lines = s.lines := rfl
@[simp] theorem State.attach_guard (l : Nat) (a : DeviceAddress) (sp : Scratchpad) : (s.attach l a sp).guard = s.guard := rfl
@[simp] theorem State.attach_buf (l : Nat) (a : DeviceAddress) (sp : Scratchpad) : (s.attach l a sp).buf = s.buf := rfl
@[simp] theorem State.attach_registry (l : Nat) (a : DeviceAddress) (sp : Scratchpad) : (s.attach l a sp).registry = s.registry := rfl
@[simp] theorem State.attach_buslist (l : Nat) (a : DeviceAddress) (sp : Scratchpad) : (s.attach l a sp).buslist = s.buslist := rfl
@[simp] theorem State.attach_host (l : Nat) (a : DeviceAddress) (sp : Scratchpad) : (s.attach l a sp).host = s.host := rfl

@[simp] theorem State.setDevice_params (i : Nat) (d : Device) : (s.setDevice i d).params = s.params := rfl
@[simp] theorem State.setDevice_seq (i : Nat) (d : Device) : (s.setDevice i d).seq = s.seq := rfl
@[simp] theorem State.setDevice_regs (i : Nat) (d : Device) : (s.setDevice i d).regs = s.regs := rfl
@[simp] theorem State.setDevice_status (i : Nat) (d : Device) : (s.setDevice i d).status = s.status := rfl
@[simp] theorem State.setDevice_search (i : Nat) (d : Device) : (s.setDevice i d).search = s.search := rfl
@[simp] theorem State.setDevice_lines (i : Nat) (d : Device) : (s.setDevice i d).lines = s.lines := rfl
@[simp] theorem State.setDevice_guard (i : Nat) (d : Device) : (s.setDevice i d).guard = s.guard := rfl
@[simp] theorem State.setDevice_buf (i : Nat) (d : Device) : (s.setDevice i d).buf = s.buf := rfl
@[simp] theorem State.setDevice_registry (i : Nat) (d : Device) : (s.setDevice i d).registry = s.registry := rfl
@[simp] theorem State.setDevice_buslist (i : Nat) (d : Device) : (s.setDevice i d).buslist = s.buslist := rfl
@[simp] theorem State.setDevice_host (i : Nat) (d : Device) : (s.setDevice i d).host = s.host := rfl
@[simp] theorem State.setDevice_env (i : Nat) (d : Device) : (s.setDevice i d).env = { s.env with devices := s.env.devices.set i d } := rfl

@[simp] theorem State.decodeTemperature_params : (s.decodeTemperature).params = s.params := rfl
@[simp] theorem State.decodeTemperature_seq : (s.decodeTemperature).seq = s.seq := rfl
@[simp] theorem State.decodeTemperature_regs : (s.decodeTemperature).regs = { s.regs with temp := s.buf.read 1 ++ s.buf.read 0 } := rfl
@[simp] theorem State.decodeTemperature_status : (s.decodeTemperature).status = s.status := rfl
@[simp] theorem State.decodeTemperature_search : (s.decodeTemperature).search = s.search := rfl
@[simp] theorem State.decodeTemperature_lines : (s.decodeTemperature).lines = s.lines := rfl
@[simp] theorem State.decodeTemperature_guard : (s.decodeTemperature).guard = s.guard := rfl
@[simp] theorem State.decodeTemperature_buf : (s.decodeTemperature).buf = s.buf := rfl
@[simp] theorem State.decodeTemperature_registry : (s.decodeTemperature).registry = s.registry := rfl
@[simp] theorem State.decodeTemperature_buslist : (s.decodeTemperature).buslist = s.buslist := rfl
@[simp] theorem State.decodeTemperature_env : (s.decodeTemperature).env = s.env := rfl
@[simp] theorem State.decodeTemperature_host : (s.decodeTemperature).host = s.host := rfl

@[simp] theorem State.takeInput_params (rest : List Input) : (s.takeInput rest).params = s.params := rfl
@[simp] theorem State.takeInput_seq (rest : List Input) : (s.takeInput rest).seq = s.seq := rfl
@[simp] theorem State.takeInput_regs (rest : List Input) : (s.takeInput rest).regs = s.regs := rfl
@[simp] theorem State.takeInput_status (rest : List Input) : (s.takeInput rest).status = s.status := rfl
@[simp] theorem State.takeInput_search (rest : List Input) : (s.takeInput rest).search = s.search := rfl
@[simp] theorem State.takeInput_lines (rest : List Input) : (s.takeInput rest).lines = s.lines := rfl
@[simp] theorem State.takeInput_guard (rest : List Input) : (s.takeInput rest).guard = s.guard := rfl
@[simp] theorem State.takeInput_buf (rest : List Input) : (s.takeInput rest).buf = s.buf := rfl
@[simp] theorem State.takeInput_registry (rest : List Input) : (s.takeInput rest).registry = s.registry := rfl
@[simp] theorem State.takeInput_buslist (rest : List Input) : (s.takeInput rest).buslist = s.buslist := rfl
@[simp] theorem State.takeInput_env (rest : List Input) : (s.takeInput rest).env = s.env := rfl
@[simp] theorem State.takeInput_host (rest : List Input) : (s.takeInput rest).host = { s.host with inputs := rest } := rfl

@[simp] theorem State.delay_eq (us : Nat) : s.delay us = s := rfl
@[simp] theorem searchDone_params (w : SearchWork) : (searchDone w s).params = s.params := rfl
@[simp] theorem searchDone_seq (w : SearchWork) : (searchDone w s).seq = { s.seq with pos := 64 } := rfl
@[simp] theorem searchDone_regs (w : SearchWork) : (searchDone w s).regs = s.regs := rfl
@[simp] theorem searchDone_status (w : SearchWork) : (searchDone w s).status = { s.status with last := w.cand.isNone } := rfl
@[simp] theorem searchDone_search (w : SearchWork) : (searchDone w s).search = { ldisc := ldiscOf w.cand, prevId := w.id } := rfl
@[simp] theorem searchDone_lines (w : SearchWork) : (searchDone w s).lines = s.lines := rfl
@[simp] theorem searchDone_guard (w : SearchWork) : (searchDone w s).guard = s.guard := rfl
@[simp] theorem searchDone_buf (w : SearchWork) : (searchDone w s).buf = s.buf := rfl
@[simp] theorem searchDone_registry (w : SearchWork) : (searchDone w s).registry = s.registry := rfl
@[simp] theorem searchDone_buslist (w : SearchWork) : (searchDone w s).buslist = s.buslist := rfl
@[simp] theorem searchDone_env (w : SearchWork) : (searchDone w s).env = s.env := rfl
@[simp] theorem searchDone_host (w : SearchWork) : (searchDone w s).host = s.host := rfl

@[simp] theorem register_params : (register s).params = s.params := rfl
@[simp] theorem register_seq : (register s).seq = s.seq := rfl
@[simp] theorem register_regs : (register s).regs = s.regs := rfl
@[simp] theorem register_status : (register s).status = s.status := rfl
@[simp] theorem register_search : (register s).search = s.search := rfl
@[simp] theorem register_lines : (register s).lines = s.lines := rfl
@[simp] theorem register_guard : (register s).guard = s.guard := rfl
@[simp] theorem register_buf : (register s).buf = s.buf := rfl
@[simp] theorem register_registry : (register s).registry = { s.registry.writeEntry s.registry.count.toNat s.regs.bussel s.search.prevId with count := s.registry.count + 1 } := rfl
@[simp] theorem register_buslist : (register s).buslist = s.buslist := rfl
@[simp] theorem register_env : (register s).env = s.env := rfl
@[simp] theorem register_host : (register s).host = s.host := rfl

/-- What the end of a command leaves (46 R350): the outcome's code, and the sequencer ended. -/
theorem State.finish_seq_start (op : BitVec 5) (e : ErrCode) :
    ((s.start op).finish e).seq = Seq.ended op := rfl

end Sys2Proof.Machine
end

