-- ==== Sys2Proof/Laws/Memory.lean ====
section
/-! SUPPORT. The laws of storage: a read after a write, and that every write keeps the canonical form. -/

namespace Sys2Proof.Machine

variable {α : Type} [OfNat α 0] [DecidableEq α]

/-- What a read gives after a write (20_memory R61): the value written at its index, what was there elsewhere. -/
theorem Store.read_write (m : Store α) (a c : Nat) (b : α)
    (hw : m.wf = true) : (m.write a b).read c = if c = a then b else m.read c := by
  have key : ∀ (m : Store α) (lo : Nat), m.wfFrom lo = true →
      (∀ c, c < lo → m.read c = 0) ∧ ∀ a b c, (m.write a b).read c = if c = a then b else m.read c := by
    intro m
    induction m with
    | nil =>
      intro lo _
      refine ⟨fun _ _ => rfl, fun a b c => ?_⟩
      simp only [Store.write, Store.read]
      split <;> rename_i hb
      · simp [Store.read, hb]
      · simp [Store.read]
    | cons kv m ih =>
      obtain ⟨k, v⟩ := kv
      intro lo hwf
      simp only [Store.wfFrom, Bool.and_eq_true, decide_eq_true_eq] at hwf
      obtain ⟨⟨hlo, hv⟩, hm⟩ := hwf
      obtain ⟨hz, hrw⟩ := ih (k + 1) hm
      have hz' : ∀ c, c < lo → Store.read ((k, v) :: m) c = 0 := fun c hc => by
        have : c ≠ k := by omega
        simp only [Store.read, if_neg this]
        exact hz c (by omega)
      refine ⟨hz', fun a b c => ?_⟩
      have hnot : a < k → Store.read ((k, v) :: m) a = 0 := fun hak => by
        have : a ≠ k := by omega
        simp only [Store.read, if_neg this]
        exact hz a (by omega)
      simp only [Store.write]
      split
      · rename_i hak
        split
        · rename_i hb
          split
          · rename_i hca
            subst hca hb
            exact hnot hak
          · rfl
        · simp only [Store.read]
      · rename_i hak
        split
        · rename_i hak'
          subst hak'
          split
          · rename_i hb
            by_cases hca : c = a
            · subst hca hb
              simpa using hz c (by omega)
            · simp [Store.read, hca]
          · by_cases hca : c = a <;> simp [Store.read, hca]
        · rename_i hne
          simp only [Store.read, hrw]
          by_cases hck : c = k
          · subst hck
            have : c ≠ a := fun h => hne h.symm
            simp [this]
          · simp [hck]
  exact (key m 0 hw).2 a b c

/-- A write keeps the canonical form from any lower bound not above its index. -/
theorem Store.write_wfFrom (m : Store α) (lo a : Nat) (b : α) (hlo : lo ≤ a)
    (h : m.wfFrom lo = true) : (m.write a b).wfFrom lo = true := by
  induction m generalizing lo with
  | nil =>
    simp only [Store.write]
    split
    · rfl
    · rename_i hb
      simpa [Store.wfFrom, hlo] using hb
  | cons kv m ih =>
    obtain ⟨k, v⟩ := kv
    simp only [Store.wfFrom, Bool.and_eq_true, decide_eq_true_eq] at h
    obtain ⟨⟨hk, hv⟩, hm⟩ := h
    have weaken : ∀ (m : Store α) (x y : Nat), x ≤ y → m.wfFrom y = true → m.wfFrom x = true := by
      intro m x y hxy hm
      cases m with
      | nil => rfl
      | cons q m =>
        simp only [Store.wfFrom, Bool.and_eq_true, decide_eq_true_eq] at hm ⊢
        exact ⟨⟨by omega, hm.1.2⟩, hm.2⟩
    simp only [Store.write]
    split
    · rename_i hak
      split
      · simpa [Store.wfFrom, hk, hm] using hv
      · rename_i hb
        simp only [Store.wfFrom, Bool.and_eq_true, decide_eq_true_eq]
        exact ⟨⟨hlo, hb⟩, ⟨by omega, hv⟩, hm⟩
    · split
      · rename_i hak' hak
        subst hak
        split
        · exact weaken m lo (a + 1) (by omega) hm
        · rename_i hb
          simpa [Store.wfFrom, hlo, hm] using hb
      · simp only [Store.wfFrom, Bool.and_eq_true, decide_eq_true_eq]
        exact ⟨⟨hk, hv⟩, ih (k + 1) (by omega) hm⟩

/-- Every write keeps the canonical form. -/
theorem Store.write_wf (m : Store α) (a : Nat) (b : α) (h : m.wf = true) : (m.write a b).wf = true :=
  Store.write_wfFrom m 0 a b (Nat.zero_le a) h

/-- The registration of an entry keeps the registry's canonical form. -/
theorem Registry.writeEntry_wf (r : Registry) (j : Nat) (line : BusLine) (addr : DeviceAddress)
    (hl : r.lines.wf = true) (ha : r.addrs.wf = true) :
    (r.writeEntry j line addr).lines.wf = true ∧ (r.writeEntry j line addr).addrs.wf = true := by
  have key : ∀ (l : List Nat) (m : Memory), m.wf = true →
      (l.foldl (fun m i => m.write (8 * j + i) (byteAt addr i)) m).wf = true := by
    intro l
    induction l with
    | nil => exact fun _ h => h
    | cons i l ih => exact fun m h => ih _ (Store.write_wf m _ _ h)
  exact ⟨Store.write_wf _ _ _ hl, key _ _ ha⟩

/-- What a read of the registry's lines gives after the registration of entry `j` (20_memory R62; log 19). -/
theorem Registry.writeEntry_lines (r : Registry) (j : Nat) (line : BusLine) (addr : DeviceAddress)
    (h : r.lines.wf = true) (c : Nat) :
    (r.writeEntry j line addr).lines.read c = if c = j then line else r.lines.read c :=
  Store.read_write _ _ _ _ h

/-- What a read of the registry's address bytes gives after the registration of entry `j` (20_memory R62; log 19). -/
theorem Registry.writeEntry_addrs (r : Registry) (j : Nat) (line : BusLine) (addr : DeviceAddress)
    (h : r.addrs.wf = true) (c : Nat) :
    (r.writeEntry j line addr).addrs.read c =
      if 8 * j ≤ c ∧ c < 8 * j + 8 then byteAt addr (c - 8 * j) else r.addrs.read c := by
  have key : ∀ n (m : Memory), m.wf = true → ∀ c,
      ((List.range n).foldl (fun m i => m.write (8 * j + i) (byteAt addr i)) m).wf = true ∧
      ((List.range n).foldl (fun m i => m.write (8 * j + i) (byteAt addr i)) m).read c =
        if 8 * j ≤ c ∧ c < 8 * j + n then byteAt addr (c - 8 * j) else m.read c := by
    intro n
    induction n with
    | zero => exact fun m hm c => ⟨hm, by rw [if_neg (by omega)]; rfl⟩
    | succ n ih =>
      intro m hm c
      obtain ⟨hw, hr⟩ := ih m hm c
      rw [List.range_succ, List.foldl_append]
      refine ⟨Store.write_wf _ _ _ hw, ?_⟩
      rw [List.foldl_cons, List.foldl_nil, Store.read_write _ _ _ _ hw, hr]
      by_cases h1 : c = 8 * j + n
      · subst h1
        rw [if_pos rfl, if_pos (by omega)]
        congr 1
        omega
      · by_cases h2 : 8 * j ≤ c ∧ c < 8 * j + n
        · rw [if_neg h1, if_pos h2, if_pos (by omega)]
        · rw [if_neg h1, if_neg h2, if_neg (by omega)]
  exact (key 8 _ h c).2

/-- The storage spaces of the state after reset have the canonical form. -/
theorem reset_memories_wf : State.reset.buf.wf = true ∧ State.reset.registry.lines.wf = true ∧
    State.reset.registry.addrs.wf = true ∧ State.reset.buslist.wf = true := by decide

end Sys2Proof.Machine
end

