-- ==== Sys2Proof/Laws/Bus.lean ====
section
/-! SUPPORT. What the primitives do, once: the line drivers, the history the bus hears, the guard pair, and one
equation each for RESET, WRITE_BIT and READ_BIT (42 R160, R163, R166, R174, 41 R153). -/

namespace Sys2Proof.Machine

/-! Line drivers. -/

/-- The bits of a mask with others cleared. -/
@[simp] theorem testBit_clearBits (m k : BusLine) (l : Nat) :
    (clearBits m k).testBit l = (m.testBit l && !k.testBit l) := by
  rw [clearBits, Nat.testBit_xor, Nat.testBit_and]
  cases m.testBit l <;> cases k.testBit l <;> rfl

/-- Driving low and then releasing leaves what releasing leaves. -/
theorem Lines.drive_low_rel (ln : Lines) (m : BusLine) :
    (ln.drive m .low).drive m .rel = ln.drive m .rel := by
  simp only [Lines.drive, Lines.mk.injEq]
  refine ⟨?_, ?_, ?_⟩ <;> refine Nat.eq_of_testBit_eq fun l => ?_ <;> simp
  · cases ln.out.testBit l <;> cases m.testBit l <;> rfl

/-- Releasing twice is releasing once. -/
@[simp] theorem Lines.drive_rel_rel (ln : Lines) (m : BusLine) :
    (ln.drive m .rel).drive m .rel = ln.drive m .rel := by
  simp only [Lines.drive, Lines.mk.injEq]
  refine ⟨?_, ?_, ?_⟩ <;> refine Nat.eq_of_testBit_eq fun l => ?_ <;> simp

/-- The driver state of a line after `LineDrive` (41 R141). -/
theorem Lines.drv_drive (ln : Lines) (m : BusLine) (d : Drive) (l : Nat) :
    (ln.drive m d).drv l = if m.testBit l then d else ln.drv l := by
  cases h : m.testBit l <;> cases d <;> simp [Lines.drv, Lines.drive, h]

/-! The bus and its history. -/

@[simp] theorem BusEnv.hear_pullup (p : Params) (e : BusEnv) (x : WireEvent) : (e.hear p x).pullup = e.pullup := rfl
@[simp] theorem BusEnv.hear_oracle (p : Params) (e : BusEnv) (x : WireEvent) : (e.hear p x).oracle = e.oracle := rfl
@[simp] theorem BusEnv.hear_samples (p : Params) (e : BusEnv) (x : WireEvent) :
    (e.hear p x).samples = e.samples + x.slot.samples := rfl
@[simp] theorem BusEnv.hear_wire (p : Params) (e : BusEnv) (x : WireEvent) :
    (e.hear p x).wire = e.wire ++ [x] := rfl
@[simp] theorem BusEnv.hear_devices (p : Params) (e : BusEnv) (x : WireEvent) : (e.hear p x).devices =
    e.devices.map fun d => if e.hears x.mask d then d.hear p x.slot else d := rfl

@[simp] theorem BusEnv.replay_nil (p : Params) (e : BusEnv) : e.replay p [] = e := rfl

theorem BusEnv.replay_append (p : Params) (e : BusEnv) (x y : List WireEvent) :
    e.replay p (x ++ y) = (e.replay p x).replay p y := by
  simp [BusEnv.replay]

/-- What a sequence of events leaves of the bus but its devices and its sample count. -/
theorem BusEnv.replay_frame (p : Params) (tr : List WireEvent) : ∀ e : BusEnv,
    (e.replay p tr).pullup = e.pullup ∧ (e.replay p tr).oracle = e.oracle ∧
      (e.replay p tr).wire = e.wire ++ tr := by
  induction tr with
  | nil => exact fun e => ⟨rfl, rfl, by simp⟩
  | cons x tr ih =>
    intro e
    obtain ⟨h1, h2, h3⟩ := ih (e.hear p x)
    exact ⟨h1, h2, by rw [BusEnv.replay, List.foldl_cons, ← BusEnv.replay, h3]; simp⟩

@[simp] theorem BusEnv.replay_pullup (p : Params) (e : BusEnv) (tr : List WireEvent) :
    (e.replay p tr).pullup = e.pullup := (BusEnv.replay_frame p tr e).1
@[simp] theorem BusEnv.replay_oracle (p : Params) (e : BusEnv) (tr : List WireEvent) :
    (e.replay p tr).oracle = e.oracle := (BusEnv.replay_frame p tr e).2.1
@[simp] theorem BusEnv.replay_wire (p : Params) (e : BusEnv) (tr : List WireEvent) :
    (e.replay p tr).wire = e.wire ++ tr := (BusEnv.replay_frame p tr e).2.2

/-- Two traces one after the other. -/
theorem BusEnv.givesAll_append (p : Params) (x : List WireEvent) : ∀ (e : BusEnv) (y : List WireEvent),
    e.givesAll p (x ++ y) ↔ e.givesAll p x ∧ (e.replay p x).givesAll p y := by
  induction x with
  | nil => exact fun e y => by simp [BusEnv.givesAll]
  | cons a x ih =>
    intro e y
    simp only [List.cons_append, BusEnv.givesAll, ih, and_assoc, BusEnv.replay, List.foldl_cons]

/-- Nothing was heard: the trace between a bus and itself is empty. -/
theorem BusEnv.replay_eq_nil (p : Params) (e : BusEnv) (tr : List WireEvent)
    (h : (e.replay p tr).wire = e.wire) : tr = [] := by
  rw [BusEnv.replay_wire] at h
  simpa using h

/-! The guarded primitives. -/

/-- What every primitive leaves besides its sample and its wire event: the selected lines released (42 R174);
the guard's depth as it was, with the saved bit in its latch, and HOST_IE restored (41 R153). -/
def State.afterSlot (s : State) : State :=
  { s with
    lines := s.lines.drive s.regs.bussel .rel,
    guard := { s.guard with savedIe := if s.guard.depth = 0 then s.host.ie else s.guard.savedIe },
    host := { s.host with ie := if s.guard.depth = 0 then s.host.ie else false } }

/-- Once the selected lines are released, `LineSample` is the sample of released lines. -/
theorem lineSample_released (k : SampleKind) (s : State)
    (h : ∀ l, s.regs.bussel.testBit l = true → s.lines.drv l = .rel) :
    s.lineSample k s.regs.bussel = s.env.sample s.params k s.regs.bussel := by
  unfold State.lineSample BusEnv.sample
  congr 1
  funext l
  cases hm : s.regs.bussel.testBit l
  · rfl
  · rw [h l hm]

theorem State.guard_pair (s : State) (f : State → State)
    (hg : (f s.guardEnter).guard = s.guardEnter.guard) (hh : (f s.guardEnter).host = s.guardEnter.host) :
    (f s.guardEnter).guardExit =
      { f s.guardEnter with
        guard := { s.guard with savedIe := if s.guard.depth = 0 then s.host.ie else s.guard.savedIe },
        host := { s.host with ie := if s.guard.depth = 0 then s.host.ie else false } } := by
  have h1 : s.guard.depth + 1 - 1 = s.guard.depth := by simp
  simp only [State.guardExit, hg, hh, State.guardEnter_guard, State.guardEnter_host, h1]
  by_cases h : s.guard.depth = 0#3 <;> simp [h]

/-- A primitive that drives its lines low, releases them and samples once leaves `afterSlot` and answers the sample of
the released lines. -/
theorem guarded_sample (k : SampleKind) (s : State) (a b c : Nat) (rest : List Phase)
    (hr : ∀ bit u, runPhases k s.regs.bussel rest bit u = (bit, u)) :
    guarded k ([.drive .low, .delay a, .drive .rel, .delay b, .sample, .delay c] ++ rest) s =
      (s.env.sample s.params k s.regs.bussel, s.afterSlot) := by
  have h := s.guard_pair (fun u => (u.lineDrive s.regs.bussel .low).lineDrive s.regs.bussel .rel) rfl rfl
  have hs := lineSample_released k ((s.guardEnter.lineDrive s.regs.bussel .low).lineDrive s.regs.bussel .rel)
    (fun l hl => by
      simp only [State.lineDrive_regs, State.guardEnter_regs] at hl
      simp only [State.lineDrive_lines, Lines.drv_drive, hl, if_true])
  simp only [guarded, List.cons_append, List.nil_append, runPhases, State.delay, hr]
  rw [h]
  simp only [State.lineDrive_regs, State.guardEnter_regs] at hs
  rw [hs]
  simp only [State.lineDrive, State.guardEnter, Lines.drive_low_rel, State.afterSlot]

/-- RESET as a whole: presence sampled on the released lines, the wire event, PRES, the outcome. -/
theorem busReset_eq (s : State) :
    busReset s =
      let t := (s.afterSlot.wireEvent s.regs.bussel (.rst s.presence)).setPres s.presence
      if s.presence then .ok () t else .raised .noPresence t := by
  have e : guarded .presence (resetPhases s.params) s = (!s.presence, s.afterSlot) := by
    rw [State.presence, Bool.not_not]
    exact guarded_sample .presence s _ _ _ [] fun _ _ => rfl
  unfold busReset
  rw [e]
  cases s.presence <;> rfl

/-- WRITE_BIT as a whole. -/
theorem writeSlot_eq (b : Bool) (s : State) :
    writeSlot b s = s.afterSlot.wireEvent s.regs.bussel (.w b) := by
  have h := s.guard_pair (fun u => (u.lineDrive s.regs.bussel .low).lineDrive s.regs.bussel .rel) rfl rfl
  unfold writeSlot
  cases b <;>
    simp only [guarded, writeSlotPhases, recoveryPhases, List.cons_append, List.nil_append, runPhases,
      State.delay] <;>
    rw [h] <;>
    simp only [State.lineDrive, State.guardEnter, Lines.drive_low_rel, State.afterSlot]

/-- READ_BIT as a whole. -/
theorem readSlot_eq (s : State) :
    readSlot s =
      (s.env.sample s.params .slot s.regs.bussel,
        s.afterSlot.wireEvent s.regs.bussel (.r (s.env.sample s.params .slot s.regs.bussel))) := by
  have e : guarded .slot (readSlotPhases s.params ++ recoveryPhases s.params) s =
      (s.env.sample s.params .slot s.regs.bussel, s.afterSlot) :=
    guarded_sample .slot s _ _ _ _ fun _ _ => rfl
  unfold readSlot
  rw [e]

end Sys2Proof.Machine
end

