-- ==== Sys2Proof/Laws/Transport.lean ====
section
/-! SUPPORT. What slots and bytes do to the state, once: everything of the block but the selected lines, the
guard's latch and the counters is unchanged, and the wire history grows by exactly their slots
(42 R163 to R174). -/

namespace Sys2Proof.Machine

/-- `t` comes from `s` by the slots `tr`, one or more: the frame of the Bit Transport operations. -/
structure State.Slots (s : State) (tr : List WireEvent) (t : State) : Prop where
  params : t.params = s.params
  op : t.seq.op = s.seq.op
  idle : t.seq.idle = s.seq.idle
  regs : t.regs = s.regs
  status : t.status = s.status
  search : t.search = s.search
  lines : t.lines = s.lines.drive s.regs.bussel .rel
  depth : t.guard.depth = s.guard.depth
  buf : t.buf = s.buf
  registry : t.registry = s.registry
  buslist : t.buslist = s.buslist
  ie : t.host.ie = if s.guard.depth = 0 then s.host.ie else false
  saved : t.guard.savedIe = if s.guard.depth = 0 then s.host.ie else s.guard.savedIe
  inputs : t.host.inputs = s.host.inputs
  rdata : t.host.rdata = s.host.rdata
  env : t.env = s.env.replay s.params tr
  gives : s.env.givesAll s.params tr

/-- Slots after slots. -/
theorem State.Slots.trans {s t u : State} {x y : List WireEvent} (h : s.Slots x t) (k : t.Slots y u) :
    s.Slots (x ++ y) u where
  params := k.params.trans h.params
  op := k.op.trans h.op
  idle := k.idle.trans h.idle
  regs := k.regs.trans h.regs
  status := k.status.trans h.status
  search := k.search.trans h.search
  lines := by rw [k.lines, h.lines, h.regs, Lines.drive_rel_rel]
  depth := k.depth.trans h.depth
  buf := k.buf.trans h.buf
  registry := k.registry.trans h.registry
  buslist := k.buslist.trans h.buslist
  ie := by rw [k.ie, h.ie, h.depth]; split <;> rfl
  saved := by rw [k.saved, h.saved, h.ie, h.depth]; split <;> rfl
  inputs := k.inputs.trans h.inputs
  rdata := k.rdata.trans h.rdata
  env := by rw [BusEnv.replay_append, k.env, h.env, h.params]
  gives := by
    rw [BusEnv.givesAll_append, ← h.env, ← h.params]
    exact ⟨h.params ▸ h.gives, k.gives⟩

/-- What the slots were on the wire. -/
theorem State.Slots.wire {s t : State} {tr : List WireEvent} (h : s.Slots tr t) :
    t.env.wire = s.env.wire ++ tr := by rw [h.env, BusEnv.replay_wire]

/-- One event on the selected lines that records what the bus gives. -/
theorem slots_of_wireEvent (s : State) (x : Slot) (hx : s.env.gives s.params { mask := s.regs.bussel, slot := x }) :
    s.Slots [{ mask := s.regs.bussel, slot := x }] (s.afterSlot.wireEvent s.regs.bussel x) where
  params := rfl
  op := rfl
  idle := rfl
  regs := rfl
  status := rfl
  search := rfl
  lines := rfl
  depth := rfl
  buf := rfl
  registry := rfl
  buslist := rfl
  ie := rfl
  saved := rfl
  inputs := rfl
  rdata := rfl
  env := rfl
  gives := ⟨hx, trivial⟩

/-- A write slot. -/
theorem writeSlot_slots (b : Bool) (s : State) :
    s.Slots [{ mask := s.regs.bussel, slot := .w b }] (writeSlot b s) := by
  rw [writeSlot_eq]
  exact slots_of_wireEvent _ _ trivial

/-- A read slot. -/
theorem readSlot_slots (s : State) :
    s.Slots [{ mask := s.regs.bussel, slot := .r (readSlot s).1 }] (readSlot s).2 := by
  rw [readSlot_eq]
  exact slots_of_wireEvent _ _ rfl

/-- A bus reset: presence sampled, the frame but for PRES, its event, the outcome. -/
theorem busReset_spec (s : State) :
    ∃ t, s.Slots [resetEvent s.regs.bussel s.presence] t ∧
      busReset s = if s.presence then .ok () (t.setPres s.presence)
        else .raised .noPresence (t.setPres s.presence) :=
  ⟨s.afterSlot.wireEvent s.regs.bussel (.rst s.presence), slots_of_wireEvent _ _ rfl, busReset_eq s⟩

/-- The counter updates are outside the frame's fields. -/
theorem Slots.ofBitcnt {s t : State} {tr : List WireEvent} (k : Nat) (h : (s.setBitcnt k).Slots tr t) :
    s.Slots tr t :=
  { h with }

theorem Slots.ofBytecnt {s t : State} {tr : List WireEvent} (k : Nat) (h : (s.setBytecnt k).Slots tr t) :
    s.Slots tr t :=
  { h with }

theorem Slots.ofPos {s t : State} {tr : List WireEvent} (k : Nat) (h : (s.setPos k).Slots tr t) : s.Slots tr t :=
  { h with }

/-- A non-empty run of operations that each put their own events on the selected lines. -/
theorem slots_foldl {α : Type} (f : State → α → State) (ev : BusLine → α → List WireEvent)
    (hf : ∀ (s : State) (a : α), s.Slots (ev s.regs.bussel a) (f s a)) (l : List α) : ∀ s : State, l ≠ [] →
    s.Slots (l.flatMap (ev s.regs.bussel)) (l.foldl f s) := by
  induction l with
  | nil => exact fun _ h => absurd rfl h
  | cons a l ih =>
    intro s _
    cases l with
    | nil => simpa using hf s a
    | cons b l =>
      have h2 := ih (f s a) (by simp)
      rw [(hf s a).regs] at h2
      exact (hf s a).trans h2

/-! Bytes. -/

/-- WRITE_BYTE: its eight slots, bit 0 first (42 R169). -/
theorem writeByte_slots (b : Byte) (s : State) : s.Slots (writtenByte s.regs.bussel b) (writeByte b s) :=
  slots_foldl (fun s k => writeSlot (b.getLsbD k) (s.setBitcnt k))
    (fun m k => [{ mask := m, slot := .w (b.getLsbD k) }])
    (fun s k => Slots.ofBitcnt k (writeSlot_slots _ _)) (List.range 8) s (by decide)

/-- A non-empty list of written bytes. -/
theorem writeBytes_slots (bs : List Byte) (s : State) (h : bs ≠ []) :
    s.Slots (writtenBytes s.regs.bussel bs) (writeBytes bs s) :=
  slots_foldl (fun s b => writeByte b s) (fun m b => writtenByte m b) (fun s b => writeByte_slots b s) bs s h

/-- Bit `i` of a value with bit `k` set. -/
theorem getLsbD_setBit {w : Nat} (v : BitVec w) (k i : Nat) (b : Bool) :
    (setBit v k b).getLsbD i = if i = k ∧ i < w then b else v.getLsbD i := by
  by_cases hi : i < w
  · by_cases hk : i = k
    · subst hk
      cases b <;> simp [setBit, hi]
    · cases b <;> simp [setBit, hi, hk]
  · rw [BitVec.getLsbD_of_ge _ _ (by omega), BitVec.getLsbD_of_ge v _ (by omega)]
    simp [hi]

/-- A non-empty run of read slots into a byte: its frame, its events, and the byte (42 R170). -/
theorem readSlots_spec (ks : List Nat) : ∀ (v : Byte) (s : State), ks ≠ [] →
    ks.Nodup → (∀ k ∈ ks, k < 8) →
    (∀ i, i ∉ ks → (ks.foldl readByteBit (v, s)).1.getLsbD i = v.getLsbD i) ∧
    s.Slots (ks.map fun k => { mask := s.regs.bussel, slot := .r ((ks.foldl readByteBit (v, s)).1.getLsbD k) })
      (ks.foldl readByteBit (v, s)).2 := by
  induction ks with
  | nil => exact fun _ _ h => absurd rfl h
  | cons k ks ih =>
    intro v s _ hnd hlt
    have hk : k < 8 := hlt k (by simp)
    obtain ⟨hkn, hnd'⟩ := List.nodup_cons.mp hnd
    have v1 : (readByteBit (v, s) k).1 = setBit v k (readSlot (s.setBitcnt k)).1 := rfl
    have vk : (readByteBit (v, s) k).1.getLsbD k = (readSlot (s.setBitcnt k)).1 := by
      rw [v1, getLsbD_setBit]; simp [hk]
    have vo : ∀ i, i ≠ k → (readByteBit (v, s) k).1.getLsbD i = v.getLsbD i := fun i hi => by
      rw [v1, getLsbD_setBit]; simp [hi]
    have h1 : s.Slots [{ mask := s.regs.bussel, slot := .r ((readByteBit (v, s) k).1.getLsbD k) }]
        (readByteBit (v, s) k).2 := by
      rw [vk]
      exact Slots.ofBitcnt k (readSlot_slots _)
    rw [List.foldl_cons]
    cases ks with
    | nil => exact ⟨fun i hi => vo i (by simpa using hi), h1⟩
    | cons k' ks =>
      obtain ⟨o2, h2⟩ := ih (readByteBit (v, s) k).1 (readByteBit (v, s) k).2 (by simp) hnd'
        (fun j hj => hlt j (List.mem_cons_of_mem _ hj))
      simp only [Prod.mk.eta] at h2 o2
      refine ⟨fun i hi => ?_, ?_⟩
      · simp only [List.mem_cons, not_or] at hi
        rw [o2 i (by simp [hi]), vo i hi.1]
      · rw [h1.regs] at h2
        rw [List.map_cons, o2 k hkn]
        exact h1.trans h2

/-- READ_BYTE: its eight slots carry the bits of the byte it answers, bit 0 first (42 R170). -/
theorem readByte_slots (s : State) : s.Slots (receivedByte s.regs.bussel (readByte s).1) (readByte s).2 :=
  (readSlots_spec _ 0 s (by decide) (by decide) (by decide)).2

end Sys2Proof.Machine
end

