-- ==== Sys2Proof/Laws/Sensor.lean ====
section
/-! SUPPORT. What a bus reset, `Address(A)` and a read into the buffer do, once (42 R160, 45 R230, R236). -/

namespace Sys2Proof.Machine

/-- RESET with presence: PRES = 1, one event, the frame. -/
theorem busReset_ok (s : State) (h : s.presence = true) :
    ∃ t, busReset s = .ok () t ∧ (s.setPres true).Slots [resetEvent s.regs.bussel true] t := by
  obtain ⟨t, hs, he⟩ := busReset_spec s
  rw [h] at he hs
  exact ⟨t.setPres true, he, { hs with status := by simp [hs.status] }⟩

/-- RESET without presence: NoPresence, PRES = 0, one event, the frame. -/
theorem busReset_raised (s : State) (h : s.presence = false) :
    ∃ t, busReset s = .raised .noPresence t ∧ (s.setPres false).Slots [resetEvent s.regs.bussel false] t := by
  obtain ⟨t, hs, he⟩ := busReset_spec s
  rw [h] at he hs
  exact ⟨t.setPres false, he, { hs with status := by simp [hs.status] }⟩

/-- The eight address bytes (45 R230). -/
theorem sendAddr_slots (s : State) :
    s.Slots (writtenBytes s.regs.bussel (addrBytes s.regs.addr 8)) ((List.range 8).foldl sendAddrByte s) := by
  have key : ∀ (is : List Nat) (s : State), is ≠ [] →
      s.Slots (writtenBytes s.regs.bussel (is.map (byteAt s.regs.addr))) (is.foldl sendAddrByte s) := by
    intro is
    induction is with
    | nil => exact fun _ h => absurd rfl h
    | cons i is ih =>
      intro s _
      have h1 : s.Slots (writtenByte s.regs.bussel (byteAt s.regs.addr i)) (sendAddrByte s i) :=
        Slots.ofBytecnt i (writeByte_slots _ _)
      cases is with
      | nil => simpa [writtenBytes] using h1
      | cons i' is =>
        have h2 := ih (sendAddrByte s i) (by simp)
        rw [h1.regs] at h2
        simpa [writtenBytes] using h1.trans h2
  exact key _ s (by decide)

/-- `Address(A)` with presence: its reset and its bytes, the frame (45 R230). -/
theorem address_ok (a : Addressing) (s : State) (h : s.presence = true) :
    ∃ t, address a s = .ok () t ∧ (s.setPres true).Slots
      (resetEvent s.regs.bussel true :: writtenBytes s.regs.bussel (addressBytes a s)) t := by
  obtain ⟨u, hu, hs⟩ := busReset_ok s h
  have hr : u.regs = s.regs := hs.regs
  have hp : u.params = s.params := hs.params
  cases a with
  | skip =>
    refine ⟨writeByte u.params.cmdSkipRom u, by rw [address, hu]; rfl, ?_⟩
    have h1 := writeByte_slots u.params.cmdSkipRom u
    rw [hr, hp] at h1
    simpa [writtenBytes, addressBytes, hp] using hs.trans h1
  | matched =>
    have h1 := writeByte_slots u.params.cmdMatchRom u
    have h2 := sendAddr_slots (writeByte u.params.cmdMatchRom u)
    refine ⟨_, by rw [address, hu]; rfl, ?_⟩
    rw [h1.regs, hr] at h2
    rw [hr] at h1
    simpa [writtenBytes, addressBytes, hp] using (hs.trans h1).trans h2

/-- `Address(A)` without presence: nothing is sent after the reset (45 R230, 60 R272). -/
theorem address_raised (a : Addressing) (s : State) (h : s.presence = false) :
    ∃ t, address a s = .raised .noPresence t ∧ (s.setPres false).Slots [resetEvent s.regs.bussel false] t := by
  obtain ⟨u, hu, hs⟩ := busReset_raised s h
  exact ⟨u, by rw [address, hu]; rfl, hs⟩

/-- `Address(A)` and one command byte after it, with presence (45 R232, R236, R240, R242). -/
theorem address_command (a : Addressing) (s t : State) (cmd : Byte) (h : s.presence = true)
    (ht : address a s = .ok () t) :
    (s.setPres true).Slots (resetEvent s.regs.bussel true ::
      writtenBytes s.regs.bussel (addressBytes a s ++ [cmd])) (writeByte cmd t) := by
  obtain ⟨u, hu, hs⟩ := address_ok a s h
  obtain rfl : u = t := by rw [hu] at ht; injection ht
  have h1 := writeByte_slots cmd u
  rw [hs.regs] at h1
  simpa [writtenBytes, List.flatMap_append] using hs.trans h1

/-- `t` comes from `s` by slots that received the bytes `bs`, stored from cell `start` of BUF on. -/
structure State.Received (s : State) (start : Nat) (bs : List Byte) (t : State) : Prop where
  slots : ({ s with buf := t.buf }).Slots (receivedBytes s.regs.bussel bs) t
  bufWf : s.buf.wf = true → t.buf.wf = true
  stored : s.buf.wf = true → ∀ i, t.buf.read i =
    if start ≤ i ∧ i < start + bs.length then bs.getD (i - start) 0 else s.buf.read i

/-- A non-empty run of bytes into the buffer from cell `start` on (45 R236, R244). -/
theorem readIntoBuf_spec (n : Nat) : ∀ (start : Nat) (s : State), 0 < n →
    ∃ bs, bs.length = n ∧ s.Received start bs ((List.range' start n).foldl readIntoBuf s) := by
  induction n with
  | zero => exact fun _ _ h => absurd h (Nat.lt_irrefl 0)
  | succ n ih =>
    intro start s _
    have h1 : s.Slots (receivedByte s.regs.bussel (readByte (s.setBytecnt start)).1)
        (readByte (s.setBytecnt start)).2 := Slots.ofBytecnt start (readByte_slots _)
    obtain ⟨⟨v, u⟩, hr⟩ : ∃ r, readByte (s.setBytecnt start) = r := ⟨_, rfl⟩
    have e : readIntoBuf s start = u.setBuf start v := by rw [readIntoBuf, hr]
    rw [hr] at h1
    simp only at h1
    have hb : (readIntoBuf s start).buf = s.buf.write start v := by
      rw [e, State.setBuf_buf, h1.buf]
    have h1' : ({ s with buf := (readIntoBuf s start).buf }).Slots (receivedByte s.regs.bussel v)
        (readIntoBuf s start) := by
      rw [e]
      exact { h1 with buf := rfl }
    clear hr e h1
    have first : s.Received start [v] (readIntoBuf s start) := by
      refine ⟨by simpa [receivedBytes] using h1',
        fun hwf => by rw [hb]; exact Store.write_wf _ _ _ hwf, fun hwf i => ?_⟩
      rw [hb, Store.read_write _ _ _ _ hwf]
      by_cases hi : i = start
      · subst hi; simp
      · have hn : ¬(start ≤ i ∧ i < start + [v].length) := by
          simp only [List.length_cons, List.length_nil]; omega
        rw [if_neg hi, if_neg hn]
    rw [List.range'_succ, List.foldl_cons]
    rcases Nat.eq_zero_or_pos n with hn | hn
    · subst hn
      exact ⟨[v], rfl, first⟩
    · obtain ⟨bs, hl, hr⟩ := ih (start + 1) (readIntoBuf s start) hn
      refine ⟨v :: bs, by simp [hl], ?_, fun hwf => hr.bufWf (first.bufWf hwf), fun hwf i => ?_⟩
      · obtain ⟨t, ht⟩ : ∃ t, (List.range' (start + 1) n).foldl readIntoBuf (readIntoBuf s start) = t := ⟨_, rfl⟩
        rw [ht] at hr ⊢
        have a1 : ({ s with buf := t.buf }).Slots (receivedByte s.regs.bussel v)
            { readIntoBuf s start with buf := t.buf } :=
          { h1' with buf := rfl }
        have a2 := a1.trans hr.slots
        rw [h1'.regs] at a2
        exact a2
      · rw [hr.stored (first.bufWf hwf), first.stored hwf]
        simp only [List.length_cons, List.length_nil]
        by_cases hi : i = start
        · subst hi
          simp
        · by_cases h2 : start + 1 ≤ i ∧ i < start + 1 + bs.length
          · have e : i - start = (i - (start + 1)) + 1 := by omega
            rw [if_pos h2, if_pos (by omega), e, List.getD_cons_succ]
          · rw [if_neg h2, if_neg (by omega), if_neg (by omega)]

/-- `n` bytes from the wire into `BUF[0 .. n-1]`. -/
theorem readBytes_spec (n : Nat) (s : State) (hn : 0 < n) :
    ∃ bs, bs.length = n ∧ s.Received 0 bs (readBytes n s) := by
  have := readIntoBuf_spec n 0 s hn
  rwa [← List.range_eq_range'] at this

/-- The first cells of the buffer after a reception are the bytes received. -/
theorem State.Received.window {s t : State} {bs : List Byte} (h : s.Received 0 bs t) (hwf : s.buf.wf = true)
    (n : Nat) (hn : n ≤ bs.length) : t.bufWindow n = bs.take n := by
  unfold State.bufWindow
  apply List.ext_getElem
  · simp; omega
  · intro i h1 h2
    simp only [List.length_map, List.length_range] at h1
    simp [h.stored hwf, show i < bs.length by omega]

/-- A reception after slots, in the frame of the whole. -/
theorem State.Slots.received {s u t : State} {tr : List WireEvent} {bs : List Byte} (h : s.Slots tr u)
    (hr : u.Received 0 bs t) : ({ s with buf := t.buf }).Slots (tr ++ receivedBytes s.regs.bussel bs) t := by
  have h1 : ({ s with buf := t.buf }).Slots tr { u with buf := t.buf } := { h with buf := rfl }
  have e : receivedBytes u.regs.bussel bs = receivedBytes s.regs.bussel bs := by rw [h.regs]
  exact e ▸ h1.trans hr.slots

/-- READ_SCRATCHPAD up to its checks, with presence (45 R236). -/
theorem readScratchpad_ok (a : Addressing) (s : State) (h : s.presence = true) :
    ∃ (bs : List Byte) (u t : State), readScratchpad a s = checkScratchpad t ∧ bs.length = 9 ∧ u.buf = s.buf ∧ u.Received 0 bs t ∧
      ({ s.setPres true with buf := t.buf }).Slots (resetEvent s.regs.bussel true ::
        (writtenBytes s.regs.bussel (addressBytes a s ++ [s.params.cmdReadScratchpad]) ++
          receivedBytes s.regs.bussel bs)) t := by
  obtain ⟨v, hv, hs⟩ := address_ok a s h
  have h2 := address_command a s v v.params.cmdReadScratchpad h hv
  have e : readScratchpad a s = checkScratchpad (readBytes 9 (writeByte v.params.cmdReadScratchpad v)) := by
    simp only [readScratchpad, hv, Run.bind]
  obtain ⟨bs, hl, hr⟩ := readBytes_spec 9 (writeByte v.params.cmdReadScratchpad v) (by decide)
  have hp : v.params = s.params := hs.params
  exact ⟨bs, _, _, e, hl, h2.buf, hr, by simpa [hp] using h2.received hr⟩

/-- READ_ROM up to its check, with presence (45 R244). -/
theorem readRom_ok (s : State) (h : s.presence = true) :
    ∃ (bs : List Byte) (u t : State), readRom s = checkRom t ∧ bs.length = 8 ∧ u.buf = s.buf ∧ u.Received 0 bs t ∧
      ({ s.setPres true with buf := t.buf }).Slots (resetEvent s.regs.bussel true ::
        (writtenBytes s.regs.bussel [s.params.cmdReadRom] ++ receivedBytes s.regs.bussel bs)) t := by
  obtain ⟨v, hv, hs⟩ := busReset_ok s h
  have h1 := writeByte_slots v.params.cmdReadRom v
  rw [hs.regs] at h1
  have e : readRom s = checkRom (readBytes 8 (writeByte v.params.cmdReadRom v)) := by
    simp only [readRom, hv, Run.bind]
  obtain ⟨bs, hl, hr⟩ := readBytes_spec 8 (writeByte v.params.cmdReadRom v) (by decide)
  have hp : v.params = s.params := hs.params
  have h2 := hs.trans h1
  exact ⟨bs, _, _, e, hl, h2.buf, hr, by simpa [hp, writtenBytes] using h2.received hr⟩

/-- Zeroing the first cells of BUF changes those cells and nothing else (45 R244). -/
theorem zeroCells_spec (n : Nat) (t : State) :
    ∃ m, (List.range n).foldl (fun s i => s.setBuf i 0) t = { t with buf := m } ∧
      (t.buf.wf = true → m.wf = true ∧ ∀ i, m.read i = if i < n then 0 else t.buf.read i) := by
  induction n with
  | zero => exact ⟨t.buf, rfl, fun hwf => ⟨hwf, fun i => by simp⟩⟩
  | succ n ih =>
    obtain ⟨m, hm, h⟩ := ih
    refine ⟨m.write n 0, by rw [List.range_succ, List.foldl_append, hm]; rfl, fun hwf => ?_⟩
    obtain ⟨hw, hr⟩ := h hwf
    refine ⟨Store.write_wf _ _ _ hw, fun i => ?_⟩
    rw [Store.read_write _ _ _ _ hw, hr]
    by_cases h1 : i = n
    · simp [h1]
    · by_cases h2 : i < n
      · rw [if_neg h1, if_pos h2, if_pos (by omega)]
      · rw [if_neg h1, if_neg h2, if_neg (by omega)]

/-- What READ_ROM zeroes on a checksum mismatch (45 R244). -/
theorem zeroRom_spec (t : State) :
    ∃ m, t.zeroRom = { t with buf := m } ∧
      (t.buf.wf = true → m.wf = true ∧ ∀ i, m.read i = if i < 8 then 0 else t.buf.read i) :=
  zeroCells_spec 8 t

end Sys2Proof.Machine
end

