-- ==== Sys2Proof/Laws/Device.lean ====
section
/-! SUPPORT. What the primitives do with one ideal responder alone on the selected line (20_memory R84): the
samples it gives and the state each slot and each byte leaves it in, also when its conversion ends on the way. -/

namespace Sys2Proof.Machine

/-! One device. -/

/-- What the end of a conversion leaves of a device. -/
theorem Device.tick_frame (p : Params) (d : Device) :
    (d.tick p).line = d.line ∧ (d.tick p).addr = d.addr ∧ (d.tick p).mode = d.mode := by
  unfold Device.tick
  split
  · split <;> exact ⟨rfl, rfl, rfl⟩
  · exact ⟨rfl, rfl, rfl⟩

/-- A device that is not converting, or for whose conversion no end is chosen, is left as it is. -/
theorem Device.tick_still (p : Params) (d : Device) (h : d.busy = true → d.due = []) : d.tick p = d := by
  unfold Device.tick
  split
  · rename_i hb
    rw [h hb]
  · rfl

/-- A reaction keeps a device's line and address. -/
theorem Device.onWrite_frame (p : Params) (b : Bool) (d : Device) :
    (d.onWrite p b).line = d.line ∧ (d.onWrite p b).addr = d.addr := by
  unfold Device.onWrite
  repeat' split
  all_goals try exact ⟨rfl, rfl⟩
  all_goals unfold Device.function
  all_goals repeat' split
  all_goals exact ⟨rfl, rfl⟩

theorem Device.onRead_frame (d : Device) : d.onRead.line = d.line ∧ d.onRead.addr = d.addr := by
  unfold Device.onRead
  split <;> exact ⟨rfl, rfl⟩

/-- Hearing a slot keeps a device's line and address; its mode is that of the reaction. -/
theorem Device.hear_frame (p : Params) (x : Slot) (d : Device) :
    (d.hear p x).line = d.line ∧ (d.hear p x).addr = d.addr ∧ (d.hear p x).mode = (d.react p x).mode := by
  obtain ⟨t1, t2, t3⟩ := Device.tick_frame p (d.react p x)
  have hr : (d.react p x).line = d.line ∧ (d.react p x).addr = d.addr := by
    cases x with
    | rst _ => exact ⟨rfl, rfl⟩
    | w b => exact Device.onWrite_frame p b d
    | r _ => exact Device.onRead_frame d
    | cut => exact ⟨rfl, rfl⟩
  exact ⟨t1.trans hr.1, t2.trans hr.2, t3⟩

/-- `x` is the device `d`, apart from what the end of a conversion chosen for it changes. -/
structure Device.Like (x d : Device) : Prop where
  line : x.line = d.line
  addr : x.addr = d.addr
  mode : x.mode = d.mode
  still : (d.busy = true → d.due = []) → x = d

theorem Device.Like.refl (d : Device) : d.Like d := ⟨rfl, rfl, rfl, fun _ => rfl⟩

/-- A device that hears a slot in a mode whose reaction needs no more than the mode and the address. -/
theorem Device.Like.hear {p : Params} {x d : Device} {s : Slot} {m : DeviceMode} (h : x.Like d)
    (hx : (x.react p s).mode = m) (hd : d.react p s = { d with mode := m }) :
    (x.hear p s).Like { d with mode := m } where
  line := (Device.hear_frame p s x).1.trans h.line
  addr := (Device.hear_frame p s x).2.1.trans h.addr
  mode := (Device.hear_frame p s x).2.2.trans hx
  still := fun hn => by
    have hn : d.busy = true → d.due = [] := hn
    obtain rfl := h.still hn
    rw [Device.hear, hd]
    exact Device.tick_still p _ hn

/-! A device alone on the selected line. -/

/-- One ideal responder like `d` alone, and its line the only one selected. -/
structure State.Meets (s : State) (d : Device) : Prop where
  alone : ∃ x : Device, s.Alone x ∧ x.Like d
  selected : s.regs.bussel = 2 ^ d.line

/-- A device alone, its line selected. -/
theorem State.Alone.meets {s : State} {d : Device} (h : s.Alone d) (hs : s.regs.bussel = 2 ^ d.line) : s.Meets d :=
  ⟨⟨d, h, .refl d⟩, hs⟩

/-- Its line is the only one selected. -/
theorem State.Meets.testBit {s : State} {d : Device} (h : s.Meets d) (l : Nat) :
    s.regs.bussel.testBit l = decide (d.line = l) := by
  rw [h.selected, Nat.testBit_two_pow]

/-- A released sample is low exactly when the device pulls its line. -/
theorem State.Alone.sample {s : State} {x : Device} (h : s.Alone x) (hb : s.regs.bussel = 2 ^ x.line)
    (k : SampleKind) (hk : k ≠ .idle) : s.env.sample s.params k s.regs.bussel = !x.pulls k true := by
  have hp : s.env.pulled k x.line = x.pulls k true := by
    simp only [BusEnv.pulled, h.ideal, h.devices, Bool.false_eq_true, if_false, List.any_cons,
      List.any_nil, Bool.or_false, decide_true, Bool.true_and, h.pullup]
    cases k <;> first | rfl | exact absurd rfl hk
  have hv : s.env.level .rel k x.line = !x.pulls k true := by
    simp only [BusEnv.level, hp, h.pullup]
    cases x.pulls k true <;> rfl
  have ht : ∀ l, s.regs.bussel.testBit l = decide (x.line = l) := fun l => by rw [hb, Nat.testBit_two_pow]
  unfold BusEnv.sample
  rw [Bool.eq_iff_iff, List.all_eq_true]
  constructor
  · intro ha
    have := ha x.line (List.mem_range.mpr h.line)
    rw [ht] at this
    simpa [hv] using this
  · intro ha l _
    rw [ht]
    by_cases e : x.line = l
    · subst e; simpa [hv] using ha
    · simp [e]

/-- An event on the selected line: the device hears it. -/
theorem State.Meets.hear {s t : State} {d : Device} {x : Slot} {m : DeviceMode} (h : s.Meets d)
    (hs : s.Slots [{ mask := s.regs.bussel, slot := x }] t)
    (hm : ∀ y : Device, y.Like d → (y.react s.params x).mode = m)
    (hd : d.react s.params x = { d with mode := m }) : t.Meets { d with mode := m } := by
  obtain ⟨⟨y, ha, hl⟩, hb⟩ := h
  have hk := hl.hear (hm y hl) hd
  refine ⟨⟨y.hear s.params x, ?_, hk⟩, by rw [hs.regs]; exact hb⟩
  have hh : s.env.hears s.regs.bussel y = true := by
    rw [BusEnv.hears, ha.pullup, hb, hl.line, Nat.testBit_two_pow]
    simp
  have he : t.env = s.env.hear s.params { mask := s.regs.bussel, slot := x } := hs.env
  refine ⟨?_, ?_, ?_, ?_⟩
  · rw [he, BusEnv.hear_devices, ha.devices, List.map_cons, List.map_nil, hh]; rfl
  · rw [hs.params, (Device.hear_frame _ _ _).1]; exact ha.line
  · rw [he, BusEnv.hear_pullup, (Device.hear_frame _ _ _).1]; exact ha.pullup
  · rw [he, BusEnv.hear_oracle, (Device.hear_frame _ _ _).1]; exact ha.ideal

/-- Two states with the same bus, parameters and selected lines meet the same device. -/
theorem State.Meets.of_eq {s t : State} {d : Device} (h : s.Meets d) (he : t.env = s.env)
    (hp : t.params = s.params) (hr : t.regs.bussel = s.regs.bussel) : t.Meets d := by
  obtain ⟨⟨x, ha, hl⟩, hb⟩ := h
  exact ⟨⟨x, ⟨by rw [he]; exact ha.devices, by rw [hp]; exact ha.line, by rw [he]; exact ha.pullup,
    by rw [he]; exact ha.ideal⟩, hl⟩, hr.trans hb⟩

/-- A bus reset on the line: presence, and the device awaits a ROM command (20_memory R75, R84). -/
theorem State.Meets.reset {s : State} {d : Device} (h : s.Meets d) :
    s.presence = true ∧ ∃ t, busReset s = .ok () t ∧ (s.setPres true).Slots [resetEvent s.regs.bussel true] t ∧
      t.Meets { d with mode := .romCmd 0 0 } := by
  have hp : s.presence = true := by
    obtain ⟨⟨x, ha, hl⟩, hb⟩ := h
    rw [State.presence, ha.sample (by rw [hl.line]; exact hb) .presence (by decide)]
    rfl
  obtain ⟨t, ht, hs⟩ := busReset_ok s hp
  have h' : (s.setPres true).Meets d := h.of_eq rfl rfl rfl
  exact ⟨hp, t, ht, hs, h'.hear hs (fun _ _ => rfl) rfl⟩

/-- A write slot on the line that changes no more than the device's mode (20_memory R77, R84). -/
theorem State.Meets.write {s : State} {d : Device} (h : s.Meets d) (b : Bool) {m : DeviceMode}
    (hm : ∀ y : Device, y.Like d → y.onWrite s.params b = { y with mode := m }) :
    (writeSlot b s).Meets { d with mode := m } :=
  h.hear (writeSlot_slots b s) (fun y hy => by rw [Device.react, hm y hy]) (hm d (.refl d))

/-- What a device sends depends on no more than its mode, once it is not converting. -/
theorem Device.Like.sends {x d : Device} (h : x.Like d) (hc : d.mode ≠ .convert) : x.sends = d.sends := by
  unfold Device.sends
  rw [h.mode, h.addr]
  cases hm : d.mode <;> first | rfl | exact absurd hm hc

/-- What a read slot makes of a device's mode. -/
theorem Device.onRead_eq (d : Device) : ∃ m, ∀ y : Device, y.mode = d.mode → y.onRead = { y with mode := m } := by
  cases hm : d.mode with
  | romCmd n acc => exact ⟨.romCmd n acc, fun y hy => by cases y; simp_all [Device.onRead]⟩
  | matchRom q => exact ⟨.matchRom q, fun y hy => by cases y; simp_all [Device.onRead]⟩
  | search q phase => exact ⟨_, fun y hy => by unfold Device.onRead; rw [hy]⟩
  | send bits left => exact ⟨_, fun y hy => by unfold Device.onRead; rw [hy]⟩
  | funcCmd n acc => exact ⟨.funcCmd n acc, fun y hy => by cases y; simp_all [Device.onRead]⟩
  | convert => exact ⟨.convert, fun y hy => by cases y; simp_all [Device.onRead]⟩
  | recv n acc => exact ⟨.recv n acc, fun y hy => by cases y; simp_all [Device.onRead]⟩
  | off => exact ⟨.off, fun y hy => by cases y; simp_all [Device.onRead]⟩

/-- A read slot on the line: the bit the device sends, and the device has sent it (20_memory R76, R84). -/
theorem State.Meets.read {s : State} {d : Device} (h : s.Meets d) (hc : d.mode ≠ .convert) :
    (readSlot s).1 = d.sends ∧ (readSlot s).2.Meets d.onRead := by
  refine ⟨?_, ?_⟩
  · obtain ⟨⟨x, ha, hl⟩, hb⟩ := h
    have e : (readSlot s).1 = s.env.sample s.params .slot s.regs.bussel := by rw [readSlot_eq]
    rw [e, ha.sample (by rw [hl.line]; exact hb) .slot (by decide), ← hl.sends hc]
    simp [Device.pulls]
  · obtain ⟨m, hm⟩ := Device.onRead_eq d
    rw [hm d rfl]
    exact h.hear (readSlot_slots s) (fun y hy => by rw [Device.react, hm y hy.mode]) (hm d rfl)

/-- A counter of the sequencer is not what a device meets. -/
theorem State.Meets.bitcnt {s : State} {d : Device} (h : s.Meets d) (k : Nat) : (s.setBitcnt k).Meets d :=
  h.of_eq rfl rfl rfl

theorem State.Meets.bytecnt {s : State} {d : Device} (h : s.Meets d) (k : Nat) : (s.setBytecnt k).Meets d :=
  h.of_eq rfl rfl rfl

theorem State.Meets.pos {s : State} {d : Device} (h : s.Meets d) (k : Nat) : (s.setPos k).Meets d :=
  h.of_eq rfl rfl rfl

/-- Eight bits gathered, bit 0 first, are the byte. -/
theorem gather_byte (b : Byte) :
    setBit (setBit (setBit (setBit (setBit (setBit (setBit (setBit (0 : Byte) 0 (b.getLsbD 0)) 1 (b.getLsbD 1))
      2 (b.getLsbD 2)) 3 (b.getLsbD 3)) 4 (b.getLsbD 4)) 5 (b.getLsbD 5)) 6 (b.getLsbD 6)) 7 (b.getLsbD 7) = b := by
  revert b; decide

/-- A command byte on the line: seven bits gathered and the eighth acted upon, in a mode `f n acc` that gathers
(20_memory R84). -/
theorem State.Meets.gather {s : State} {d : Device} (f : Nat → Byte → DeviceMode) (b : Byte) {m : DeviceMode}
    (hstep : ∀ (p : Params) (n : Nat) (acc : Byte) (y : Device), n ≠ 7 → y.mode = f n acc →
      y.onWrite p (b.getLsbD n) = { y with mode := f (n + 1) (setBit acc n (b.getLsbD n)) })
    (hlast : ∀ (acc : Byte) (y : Device), setBit acc 7 (b.getLsbD 7) = b → y.Like { d with mode := f 7 acc } →
      y.onWrite s.params (b.getLsbD 7) = { y with mode := m })
    (h : s.Meets { d with mode := f 0 0 }) : (Machine.writeByte b s).Meets { d with mode := m } := by
  have step : ∀ (n : Nat) (acc : Byte) (s : State), n ≠ 7 → s.Meets { d with mode := f n acc } →
      (writeSlot (b.getLsbD n) (s.setBitcnt n)).Meets
        { d with mode := f (n + 1) (setBit acc n (b.getLsbD n)) } := fun n acc s hn h =>
    (h.bitcnt n).write _ fun y hy => hstep _ n acc y hn hy.mode
  have hr : List.range 8 = [0, 1, 2, 3, 4, 5, 6, 7] := rfl
  have hw : ∀ (b : Bool) (k : Nat) (s : State), (writeSlot b (s.setBitcnt k)).params = s.params :=
    fun b k s => (writeSlot_slots b (s.setBitcnt k)).params
  simp only [Machine.writeByte, hr, List.foldl_cons, List.foldl_nil]
  have h7 := step 6 _ _ (by decide) (step 5 _ _ (by decide) (step 4 _ _ (by decide) (step 3 _ _ (by decide)
    (step 2 _ _ (by decide) (step 1 _ _ (by decide) (step 0 _ s (by decide) h))))))
  refine (h7.bitcnt 7).write (m := m) _ fun y hy => ?_
  simp only [State.setBitcnt_params, hw]
  exact hlast _ y (gather_byte b) hy

/-- A ROM command byte on the line puts the device into the mode of its ROM function (20_memory R84). -/
theorem State.Meets.romByte {s : State} {d : Device} (h : s.Meets { d with mode := .romCmd 0 0 }) (b : Byte) :
    (Machine.writeByte b s).Meets { d with mode := d.romFunction s.params b } :=
  h.gather .romCmd b
    (fun p n acc y hn hy => by simp [Device.onWrite, hy, hn])
    (fun acc y hb hy => by
      have hm : y.mode = .romCmd 7 acc := hy.mode
      have ha : y.addr = d.addr := hy.addr
      simp only [Device.onWrite, hm, if_true, hb, Device.romFunction, ha])

/-- The read command on the line makes the device send its scratchpad (20_memory R82, R84), if no end is chosen
for a conversion it makes. -/
theorem State.Meets.readCommand {s : State} {d : Device} (h : s.Meets { d with mode := .funcCmd 0 0 })
    (hn : d.busy = true → d.due = []) (hc : s.params.cmdReadScratchpad ≠ s.params.cmdConvertT) :
    (Machine.writeByte s.params.cmdReadScratchpad s).Meets { d with mode := .send d.sp 72 } :=
  h.gather .funcCmd _
    (fun p n acc y hn hy => by simp [Device.onWrite, hy, hn])
    (fun acc y hb hy => by
      obtain rfl := hy.still hn
      simp only [Device.onWrite, if_true, hb, Device.function, hc, if_false])

end Sys2Proof.Machine
end

