-- ==== Sys2Proof/Laws/Search.lean ====
section
/-! SUPPORT. What a triplet, a pass and an enumeration do, once (44 R203, R212). -/

namespace Sys2Proof.Machine

/-! Counting slots. -/

/-- The counts of two traces one after the other. -/
theorem slotCounts_append (x y : List WireEvent) :
    slotCounts (x ++ y) = ((slotCounts x).1 + (slotCounts y).1, (slotCounts x).2.1 + (slotCounts y).2.1,
      (slotCounts x).2.2 + (slotCounts y).2.2) := by
  simp [slotCounts]

/-- Eight write slots. -/
theorem slotCounts_writtenByte (m : BusLine) (b : Byte) : slotCounts (writtenByte m b) = (0, 8, 0) := rfl

/-- Eight read slots. -/
theorem slotCounts_receivedByte (m : BusLine) (b : Byte) : slotCounts (receivedByte m b) = (0, 0, 8) := rfl

/-- Eight write slots a byte. -/
theorem slotCounts_writtenBytes (m : BusLine) (bs : List Byte) :
    slotCounts (writtenBytes m bs) = (0, 8 * bs.length, 0) := by
  induction bs with
  | nil => rfl
  | cons b bs ih =>
    rw [writtenBytes, List.flatMap_cons, slotCounts_append, slotCounts_writtenByte]
    rw [writtenBytes] at ih
    rw [ih, List.length_cons]
    ext <;> simp
    omega

/-- Eight read slots a byte. -/
theorem slotCounts_receivedBytes (m : BusLine) (bs : List Byte) :
    slotCounts (receivedBytes m bs) = (0, 0, 8 * bs.length) := by
  induction bs with
  | nil => rfl
  | cons b bs ih =>
    rw [receivedBytes, List.flatMap_cons, slotCounts_append, slotCounts_receivedByte]
    rw [receivedBytes] at ih
    rw [ih, List.length_cons]
    ext <;> simp
    omega

/-! The pass. -/

/-- Re-initialising the search state is outside the slots' frame. -/
theorem Slots.searchInit {s t : State} {tr : List WireEvent} (h : s.Slots tr t) :
    s.searchInit.Slots tr t.searchInit :=
  { h with status := by simp [h.status], search := rfl }

/-- A triplet: CommError on (1,1), else two reads, the choice and one write (44 R203). -/
theorem searchTriplet_spec (ld : SearchState) (p : Nat) (w : SearchWork) (s : State) :
    (∃ t, searchTriplet ld p w s = .raised .commError t ∧ s.searchInit.Slots
      [{ mask := s.regs.bussel, slot := .r true }, { mask := s.regs.bussel, slot := .r true }] t) ∨
    (∃ b c t, searchTriplet ld p w s =
        .ok { id := setBit w.id p (tripletBit ld p b c), cand := tripletCand ld p b c w.cand } t ∧
      ¬(b = true ∧ c = true) ∧
      s.Slots (tripletEvents ld s.regs.bussel (fun _ => b) (fun _ => c) p) t) := by
  have h1 : s.Slots [{ mask := s.regs.bussel, slot := .r (readSlot (s.setPos p)).1 }] (readSlot (s.setPos p)).2 :=
    Slots.ofPos p (readSlot_slots _)
  unfold searchTriplet
  obtain ⟨⟨b, u⟩, hb⟩ : ∃ r, readSlot (s.setPos p) = r := ⟨_, rfl⟩
  rw [hb] at h1
  simp only [hb] at h1 ⊢
  have h2 := readSlot_slots u
  obtain ⟨⟨c, v⟩, hc⟩ : ∃ r, readSlot u = r := ⟨_, rfl⟩
  rw [hc, h1.regs] at h2
  simp only [hc] at h2 ⊢
  have h3 := h1.trans h2
  split
  · rename_i hbc
    exact Or.inl ⟨_, rfl, by simpa [hbc.1, hbc.2] using Slots.searchInit h3⟩
  · rename_i hbc
    have h4 := writeSlot_slots (tripletBit ld p b c) v
    rw [h3.regs] at h4
    exact Or.inr ⟨b, c, _, rfl, hbc, h3.trans h4⟩

/-- The reads of the triplet at `p` beside those of others. -/
theorem tripletEvents_congr (ld : SearchState) (m : BusLine) {b b' c c' : Nat → Bool} {ps : List Nat}
    (hb : ∀ p ∈ ps, b p = b' p) (hc : ∀ p ∈ ps, c p = c' p) (cand : Option Nat) :
    ps.flatMap (tripletEvents ld m b c) = ps.flatMap (tripletEvents ld m b' c') ∧
      candAfter ld b c ps cand = candAfter ld b' c' ps cand := by
  induction ps generalizing cand with
  | nil => exact ⟨rfl, rfl⟩
  | cons p ps ih =>
    have ih := fun k => ih (fun q hq => hb q (List.mem_cons_of_mem _ hq)) (fun q hq => hc q (List.mem_cons_of_mem _ hq)) k
    have h1 := hb p (by simp)
    have h2 := hc p (by simp)
    refine ⟨?_, ?_⟩
    · rw [List.flatMap_cons, List.flatMap_cons, (ih none).1]
      simp only [tripletEvents, h1, h2]
    · simp only [candAfter, List.foldl_cons, h1, h2]
      exact (ih _).2

/-- A walk over a non-empty list of positions: the reads `b` and `c`, the events, and what it makes of the identifier
and the candidate; or a (1,1) pair at some position (44 R203). -/
theorem searchWalk_spec (ld : SearchState) (ps : List Nat) : ∀ (w : SearchWork) (s : State), ps ≠ [] → ps.Nodup →
    (∃ pre q post b c t, ps = pre ++ q :: post ∧ searchWalk ld ps w s = .raised .commError t ∧
      (∀ p, p ∈ pre → ¬(b p = true ∧ c p = true)) ∧
      s.searchInit.Slots (pre.flatMap (tripletEvents ld s.regs.bussel b c) ++
        [{ mask := s.regs.bussel, slot := .r true }, { mask := s.regs.bussel, slot := .r true }]) t) ∨
    (∃ b c t id, searchWalk ld ps w s = .ok { id := id, cand := candAfter ld b c ps w.cand } t ∧
      (∀ p, p ∈ ps → ¬(b p = true ∧ c p = true)) ∧
      s.Slots (ps.flatMap (tripletEvents ld s.regs.bussel b c)) t ∧
      ∀ i, id.getLsbD i = if i ∈ ps ∧ i < 64 then tripletBit ld i (b i) (c i) else w.id.getLsbD i) := by
  induction ps with
  | nil => exact fun _ _ h => absurd rfl h
  | cons p ps ih =>
    intro w s _ hnd
    obtain ⟨hp, hnd'⟩ := List.nodup_cons.mp hnd
    rcases searchTriplet_spec ld p w s with ⟨t, ht, hs⟩ | ⟨b, c, t, ht, hbc, hs⟩
    · exact Or.inl ⟨[], p, ps, fun _ => false, fun _ => false, t, rfl, by rw [searchWalk, ht]; rfl,
        fun _ h => absurd h (by simp), by simpa using hs⟩
    · cases ps with
      | nil =>
        refine Or.inr ⟨fun _ => b, fun _ => c, t, _, by rw [searchWalk, ht]; rfl, fun _ _ => hbc, by simpa using hs,
          fun i => ?_⟩
        rw [getLsbD_setBit]
        by_cases hi : i = p <;> simp [hi]
      | cons p' ps =>
        have other : ∀ q, q ≠ p → ∀ f : Nat → Bool, ∀ x, f q = (fun i => if i = p then x else f i) q :=
          fun q hq f x => by simp [hq]
        have here : ∀ f g : Nat → Bool, tripletEvents ld s.regs.bussel (fun i => if i = p then b else f i)
            (fun i => if i = p then c else g i) p = tripletEvents ld s.regs.bussel (fun _ => b) (fun _ => c) p :=
          fun f g => by simp [tripletEvents]
        rcases ih { id := setBit w.id p (tripletBit ld p b c), cand := tripletCand ld p b c w.cand } t
          (by simp) hnd' with ⟨pre, q, post, b', c', u, he, hu, hno, hsu⟩ | ⟨b', c', u, id, hu, hno, hsu, hid⟩
        · have hpre : ∀ r, r ∈ pre → r ≠ p := fun r hr h => hp (by rw [he, ← h]; simp [hr])
          refine Or.inl ⟨p :: pre, q, post, fun i => if i = p then b else b' i, fun i => if i = p then c else c' i, u,
            by rw [he]; rfl, by rw [searchWalk, ht]; exact hu, fun r hr => ?_, ?_⟩
          · rcases List.mem_cons.mp hr with rfl | hr
            · simpa using hbc
            · simpa [hpre r hr] using hno r hr
          · have hs' := Slots.searchInit hs
            have hc := (tripletEvents_congr ld s.regs.bussel (fun r hr => other r (hpre r hr) b' b)
              (fun r hr => other r (hpre r hr) c' c) none).1
            rw [hs.regs] at hsu
            rw [List.flatMap_cons, here, ← hc, List.append_assoc]
            exact hs'.trans hsu
        · have hps : ∀ r, r ∈ p' :: ps → r ≠ p := fun r hr h => hp (h ▸ hr)
          have hc := fun k => tripletEvents_congr ld s.regs.bussel (fun r hr => other r (hps r hr) b' b)
              (fun r hr => other r (hps r hr) c' c) k
          refine Or.inr ⟨fun i => if i = p then b else b' i, fun i => if i = p then c else c' i, u, id, ?_,
            fun r hr => ?_, ?_, fun i => ?_⟩
          · rw [searchWalk, ht]
            refine hu.trans ?_
            rw [(hc _).2]
            simp [candAfter]
          · rcases List.mem_cons.mp hr with rfl | hr
            · simpa using hbc
            · simpa [hps r hr] using hno r hr
          · rw [hs.regs] at hsu
            rw [List.flatMap_cons, here, ← (hc none).1]
            exact hs.trans hsu
          · rw [hid]
            simp only [getLsbD_setBit]
            by_cases hi : i = p
            · subst hi
              simp [hp]
            · simp [hi]

/-- The search command byte, or nothing (44 R203, R204), after slots. -/
theorem searchCommand_slots {s t : State} {tr : List WireEvent} (h : s.Slots tr t) :
    s.Slots (tr ++ searchCommandEvents s.params s.regs.bussel) (searchCommand t) := by
  unfold searchCommand searchCommandEvents
  rw [h.params]
  split
  · have h1 := writeByte_slots s.params.cmdSearchRom t
    rw [h.regs] at h1
    exact h.trans h1
  · simpa using h

/-- A pass, in its three outcomes (44 R203). -/
theorem searchPass_spec (s : State) :
    (∃ t, searchPass s = .raised .noPresence t ∧ s.presence = false ∧
      ((s.setPres false).searchInit).Slots [resetEvent s.regs.bussel false] t) ∨
    (∃ n b c t, searchPass s = .raised .commError t ∧ s.presence = true ∧ n < 64 ∧
      (∀ p, p < n → ¬(b p = true ∧ c p = true)) ∧
      ((s.setPres true).searchInit).Slots
        (resetEvent s.regs.bussel true :: (searchCommandEvents s.params s.regs.bussel ++
          (List.range n).flatMap (tripletEvents s.search s.regs.bussel b c) ++
          [{ mask := s.regs.bussel, slot := .r true }, { mask := s.regs.bussel, slot := .r true }])) t) ∨
    (∃ b c t id, searchPass s = .ok () (searchDone { id := id, cand := candAfter s.search b c (List.range 64) none } t) ∧
      s.presence = true ∧ (∀ p, p < 64 → ¬(b p = true ∧ c p = true)) ∧
      (s.setPres true).Slots
        (resetEvent s.regs.bussel true :: (searchCommandEvents s.params s.regs.bussel ++
          (List.range 64).flatMap (tripletEvents s.search s.regs.bussel b c))) t ∧
      ∀ i, i < 64 → id.getLsbD i = tripletBit s.search i (b i) (c i)) := by
  cases hp : s.presence with
  | false =>
    obtain ⟨t, ht, hs⟩ := busReset_raised s hp
    exact Or.inl ⟨t.searchInit, by rw [searchPass, ht], rfl, Slots.searchInit hs⟩
  | true =>
    refine Or.inr ?_
    obtain ⟨t, ht, hs⟩ := busReset_ok s hp
    have hse : t.search = s.search := hs.search
    have hcs := searchCommand_slots hs
    have pass : ∀ r, searchWalk s.search (List.range 64) { id := t.search.prevId, cand := none }
        (searchCommand t) = r → searchPass s = r.bind fun w s2 => .ok () (searchDone w s2) := by
      intro r hr
      rw [searchPass, ht]
      simp only [hse] at hr ⊢
      rw [hr]
    rcases searchWalk_spec s.search (List.range 64) { id := t.search.prevId, cand := none }
      (searchCommand t) (by decide) (List.nodup_range) with
        ⟨pre, q, post, b, c, u, he, hu, hno, hsu⟩ | ⟨b, c, u, id, hu, hno, hsu, hid⟩
    · rw [hcs.regs] at hsu
      have hpre : pre = List.range pre.length ∧ pre.length < 64 := by
        have hl := congrArg List.length he
        simp only [List.length_range, List.length_append, List.length_cons] at hl
        refine ⟨?_, by omega⟩
        have h1 := congrArg (List.take pre.length) he
        rw [List.take_left, List.take_range, Nat.min_eq_left (by omega)] at h1
        exact h1.symm
      refine Or.inl ⟨pre.length, b, c, u, pass _ hu, rfl, hpre.2, fun p h => hno p ?_, ?_⟩
      · rw [hpre.1]; exact List.mem_range.mpr h
      · rw [← hpre.1]
        simpa using (Slots.searchInit hcs).trans hsu
    · rw [hcs.regs] at hsu
      refine Or.inr ⟨b, c, u, id, pass _ hu, rfl, fun p h => hno p (List.mem_range.mpr h), ?_, fun i h => ?_⟩
      · simpa using hcs.trans hsu
      · rw [hid, if_pos ⟨List.mem_range.mpr h, h⟩]

/-- The slots of triplets: two reads and a write each. -/
theorem slotCounts_triplets (ld : SearchState) (m : BusLine) (b c : Nat → Bool) (ps : List Nat) :
    slotCounts (ps.flatMap (tripletEvents ld m b c)) = (0, ps.length, 2 * ps.length) := by
  induction ps with
  | nil => rfl
  | cons p ps ih =>
    rw [List.flatMap_cons, slotCounts_append, ih]
    simp only [tripletEvents, slotCounts, List.countP_cons, List.countP_nil, Slot.isRst, Slot.isW, Slot.isR,
      List.length_cons, Prod.mk.injEq]
    refine ⟨rfl, ?_, ?_⟩ <;> simp <;> omega

/-- The slots of the search command. -/
theorem slotCounts_searchCommand (p : Params) (m : BusLine) :
    slotCounts (searchCommandEvents p m) = (0, (if p.searchSendsCommand then 8 else 0), 0) := by
  unfold searchCommandEvents
  split
  · exact slotCounts_writtenByte _ _
  · rfl

/-! Enumeration. -/

/-- What passes, registrations and changes of BUSSEL leave alone, and what they do on the bus: the frame of DISCOVER's
parts. -/
structure State.Walked (s t : State) : Prop where
  params : t.params = s.params
  op : t.seq.op = s.seq.op
  idle : t.seq.idle = s.seq.idle
  regs : t.regs = { s.regs with bussel := t.regs.bussel }
  err : t.status.err = s.status.err
  depth : t.guard.depth = s.guard.depth
  buf : t.buf = s.buf
  buslist : t.buslist = s.buslist
  inputs : t.host.inputs = s.host.inputs
  rdata : t.host.rdata = s.host.rdata
  bus : ∃ tr, t.env = s.env.replay s.params tr ∧ s.env.givesAll s.params tr ∧
    t.guard.savedIe = (if s.guard.depth = 0 ∧ tr ≠ [] then s.host.ie else s.guard.savedIe) ∧
    t.host.ie = (if s.guard.depth ≠ 0 ∧ tr ≠ [] then false else s.host.ie)

theorem State.Walked.refl (s : State) : s.Walked s where
  params := rfl
  op := rfl
  idle := rfl
  regs := rfl
  err := rfl
  depth := rfl
  buf := rfl
  buslist := rfl
  inputs := rfl
  rdata := rfl
  bus := ⟨[], rfl, trivial, by simp, by simp⟩

theorem State.Walked.trans {s t u : State} (h : s.Walked t) (k : t.Walked u) : s.Walked u where
  params := k.params.trans h.params
  op := k.op.trans h.op
  idle := k.idle.trans h.idle
  regs := by rw [k.regs, h.regs]
  err := k.err.trans h.err
  depth := k.depth.trans h.depth
  buf := k.buf.trans h.buf
  buslist := k.buslist.trans h.buslist
  inputs := k.inputs.trans h.inputs
  rdata := k.rdata.trans h.rdata
  bus := by
    obtain ⟨x, e1, g1, s1, i1⟩ := h.bus
    obtain ⟨y, e2, g2, s2, i2⟩ := k.bus
    refine ⟨x ++ y, ?_, ?_, ?_, ?_⟩
    · rw [BusEnv.replay_append, e2, e1, h.params]
    · rw [BusEnv.givesAll_append, ← e1, ← h.params]
      exact ⟨h.params ▸ g1, g2⟩
    · rw [s2, s1, i1, h.depth]
      by_cases hd : s.guard.depth = 0 <;> by_cases hx : x = [] <;> by_cases hy : y = [] <;> simp [hd, hx, hy]
      exact fun h0 => absurd h0 hd
    · rw [i2, i1, h.depth]
      by_cases hd : s.guard.depth = 0 <;> by_cases hx : x = [] <;> by_cases hy : y = [] <;> simp [hd, hx, hy]

/-- With no guard open HOST_IE is the same, and 0 stays 0 (41 R153). -/
theorem State.Walked.ie {s t : State} (h : s.Walked t) :
    (s.guard.depth = 0 → t.host.ie = s.host.ie) ∧ (s.host.ie = false → t.host.ie = false) := by
  obtain ⟨tr, -, -, -, hi⟩ := h.bus
  rw [hi]
  exact ⟨fun hd => by simp [hd], fun hf => by rw [hf]; exact ite_self _⟩

/-- The pull-ups and the unconstrained lines are the same. -/
theorem State.Walked.env {s t : State} (h : s.Walked t) :
    t.env.pullup = s.env.pullup ∧ t.env.oracle = s.env.oracle := by
  obtain ⟨tr, he, -⟩ := h.bus
  rw [he]
  exact ⟨BusEnv.replay_pullup _ _ _, BusEnv.replay_oracle _ _ _⟩

/-- Slots are walked. -/
theorem State.Slots.walked {s t : State} {x : WireEvent} {tr : List WireEvent} (h : s.Slots (x :: tr) t) :
    s.Walked t where
  params := h.params
  op := h.op
  idle := h.idle
  regs := by rw [h.regs]
  err := by rw [h.status]
  depth := h.depth
  buf := h.buf
  buslist := h.buslist
  inputs := h.inputs
  rdata := h.rdata
  bus := ⟨x :: tr, h.env, h.gives, by rw [h.saved]; simp, by
    rw [h.ie]
    by_cases hd : s.guard.depth = 0 <;> simp [hd]⟩

theorem walked_setPres (s : State) (p : Bool) : s.Walked (s.setPres p) := { State.Walked.refl s with }
theorem walked_searchInit (s : State) : s.Walked s.searchInit := { State.Walked.refl s with }
theorem walked_setCount (s : State) (v : Byte) : s.Walked (s.setCount v) := { State.Walked.refl s with }
theorem walked_register (s : State) : s.Walked (register s) := { State.Walked.refl s with }
theorem walked_searchDone (w : SearchWork) (s : State) : s.Walked (searchDone w s) :=
  { State.Walked.refl s with }

/-- LDISC.VALID after a completed pass is whether a candidate was recorded. -/
theorem valid_ldiscOf (c : Option Nat) (id : DeviceAddress) :
    SearchState.valid { ldisc := ldiscOf c, prevId := id } = c.isSome := by
  cases c <;> simp [SearchState.valid, ldiscOf]

/-- LAST against LDISC in the initial search state. -/
theorem searchInit_last (s : State) : s.searchInit.status.last = !s.searchInit.search.valid := by
  simp [SearchState.valid]

/-- What a pass leaves, whatever its outcome: the frame, the registry, and LAST against LDISC. -/
theorem searchPass_walked (s : State) (r : Run Unit) (hr : searchPass s = r) :
    (∃ e t, r = .raised e t ∧ (e = .noPresence ∨ e = .commError) ∧ s.Walked t ∧ t.registry = s.registry ∧
      t.regs = s.regs ∧ t.status.last = !t.search.valid ∧ t.lines = s.lines.drive s.regs.bussel .rel) ∨
    (∃ t, r = .ok () t ∧ s.Walked t ∧ t.registry = s.registry ∧ t.regs = s.regs ∧
      t.status.last = !t.search.valid ∧ t.lines = s.lines.drive s.regs.bussel .rel) := by
  subst hr
  rcases searchPass_spec s with ⟨t, ht, -, hs⟩ | ⟨n, b, c, t, ht, -, -, -, hs⟩ | ⟨b, c, t, id, ht, -, -, hs, -⟩
  · exact Or.inl ⟨_, t, ht, Or.inl rfl, ((walked_setPres s false).trans (walked_searchInit _)).trans hs.walked,
      hs.registry, hs.regs, by rw [hs.status, hs.search]; exact searchInit_last _, hs.lines⟩
  · exact Or.inl ⟨_, t, ht, Or.inr rfl, ((walked_setPres s true).trans (walked_searchInit _)).trans hs.walked,
      hs.registry, hs.regs, by rw [hs.status, hs.search]; exact searchInit_last _, hs.lines⟩
  · refine Or.inr ⟨_, ht, ((walked_setPres s true).trans hs.walked).trans (walked_searchDone _ t), hs.registry,
      hs.regs, ?_, hs.lines⟩
    rw [searchDone_search, valid_ldiscOf, searchDone_status]
    cases candAfter s.search b c (List.range 64) none <;> rfl

/-- What the pass loop of one bus leaves in either outcome, when it may register `room` entries (44 R212). -/
structure State.Looped (s : State) (room : Nat) (t : State) : Prop where
  walked : s.Walked t
  regs : t.regs = s.regs
  linesWf : t.registry.lines.wf = true
  addrsWf : t.registry.addrs.wf = true
  last : t.status.last = !t.search.valid
  lines : t.lines = s.lines.drive s.regs.bussel .rel
  /-- entries it has no room for, and entries registered before, are unchanged -/
  entryLines : ∀ j, j < s.registry.count.toNat ∨ s.registry.count.toNat + room ≤ j →
    t.registry.lines.read j = s.registry.lines.read j
  entryAddrs : ∀ c, c < 8 * s.registry.count.toNat ∨ 8 * (s.registry.count.toNat + room) ≤ c →
    t.registry.addrs.read c = s.registry.addrs.read c

/-- A pass that registered nothing, and what it leaves of COUNT does not matter. -/
theorem State.Looped.ofPass {s t : State} {room : Nat} {n : Byte} (hw : s.Walked t)
    (hr : t.registry = { s.registry with count := n }) (hg : t.regs = s.regs)
    (hwf : s.registry.lines.wf = true ∧ s.registry.addrs.wf = true) (hl : t.status.last = !t.search.valid)
    (hln : t.lines = s.lines.drive s.regs.bussel .rel) : s.Looped room t where
  walked := hw
  regs := hg
  linesWf := by rw [hr]; exact hwf.1
  addrsWf := by rw [hr]; exact hwf.2
  last := hl
  lines := hln
  entryLines := fun _ _ => by rw [hr]
  entryAddrs := fun _ _ => by rw [hr]

/-- What a registration after a pass leaves (44 R212). -/
theorem register_looped {s t : State} {room : Nat} (hroom : s.registry.count.toNat + (room + 1) ≤ 255)
    (hw : s.Walked t) (hr : t.registry = s.registry) (hg : t.regs = s.regs)
    (hwf : s.registry.lines.wf = true ∧ s.registry.addrs.wf = true) (hl : t.status.last = !t.search.valid)
    (hln : t.lines = s.lines.drive s.regs.bussel .rel) :
    s.Looped (room + 1) (register t) ∧ (register t).registry.count.toNat = s.registry.count.toNat + 1 := by
  have hwft : t.registry.lines.wf = true ∧ t.registry.addrs.wf = true := by rw [hr]; exact hwf
  have hw1 := Registry.writeEntry_wf t.registry t.registry.count.toNat t.regs.bussel t.search.prevId hwft.1 hwft.2
  refine ⟨⟨hw.trans (walked_register t), hg, hw1.1, hw1.2, by rw [register_status, hl, register_search], hln,
    fun j hj => ?_, fun c hc => ?_⟩, ?_⟩
  · have := Registry.writeEntry_lines t.registry t.registry.count.toNat t.regs.bussel t.search.prevId hwft.1 j
    rw [if_neg (by rw [hr]; omega)] at this
    rw [register_registry]
    exact this.trans (by rw [hr])
  · have := Registry.writeEntry_addrs t.registry t.registry.count.toNat t.regs.bussel t.search.prevId hwft.2 c
    rw [if_neg (by rw [hr]; omega)] at this
    rw [register_registry]
    exact this.trans (by rw [hr])
  · rw [register_registry, hr]
    show (s.registry.count + 1).toNat = _
    rw [BitVec.toNat_add]
    have : (1 : Byte).toNat = 1 := rfl
    omega

/-- The pass loop of one bus: the frame, and what becomes of COUNT and the registry (44 R212). -/
theorem enumerateBus_spec (room : Nat) : ∀ s : State,
    s.registry.count.toNat + room ≤ 255 → s.registry.lines.wf = true ∧ s.registry.addrs.wf = true →
    (∃ t, enumerateBus room s = .ok () t ∧ s.Looped room t ∧
      t.registry.count.toNat ≤ s.registry.count.toNat + room) ∨
    (∃ e t, enumerateBus room s = .raised e t ∧ (e = .commError ∨ e = .discoveryError) ∧ s.Looped room t ∧
      t.registry.count = 0) := by
  induction room with
  | zero =>
    intro s _ hwf
    rcases searchPass_walked s _ rfl with ⟨e, t, ht, he, hw, hr, hg, hl, hln⟩ | ⟨t, ht, hw, hr, hg, hl, hln⟩
    · rcases he with rfl | rfl
      · exact Or.inl ⟨t, by rw [enumerateBus, ht], .ofPass hw hr hg hwf hl hln, by rw [hr]; simp⟩
      · exact Or.inr ⟨_, t.setCount 0, by rw [enumerateBus, ht], Or.inl rfl,
          .ofPass (hw.trans (walked_setCount _ _)) (by rw [State.setCount_registry, hr]) hg hwf hl hln, rfl⟩
    · exact Or.inr ⟨_, t.setCount 0, by rw [enumerateBus, ht], Or.inr rfl,
        .ofPass (hw.trans (walked_setCount _ _)) (by rw [State.setCount_registry, hr]) hg hwf hl hln, rfl⟩
  | succ room ih =>
    intro s hroom hwf
    rcases searchPass_walked s _ rfl with ⟨e, t, ht, he, hw, hr, hg, hl, hln⟩ | ⟨t, ht, hw, hr, hg, hl, hln⟩
    · rcases he with rfl | rfl
      · exact Or.inl ⟨t, by rw [enumerateBus, ht], .ofPass hw hr hg hwf hl hln, by rw [hr]; omega⟩
      · exact Or.inr ⟨_, t.setCount 0, by rw [enumerateBus, ht], Or.inl rfl,
          .ofPass (hw.trans (walked_setCount _ _)) (by rw [State.setCount_registry, hr]) hg hwf hl hln, rfl⟩
    · obtain ⟨first, hcount⟩ := register_looped hroom hw hr hg hwf hl hln
      have rest : ∀ u, (register t).Looped room u → s.Looped (room + 1) u := by
        intro u hu
        refine ⟨first.walked.trans hu.walked, hu.regs.trans hg, hu.linesWf, hu.addrsWf, hu.last, ?_,
          fun j hj => ?_, fun c hc => ?_⟩
        · rw [hu.lines, register_lines, register_regs, hln, hg, Lines.drive_rel_rel]
        · rw [hu.entryLines j (by rw [hcount]; omega), first.entryLines j hj]
        · rw [hu.entryAddrs c (by rw [hcount]; omega), first.entryAddrs c hc]
      have hstep : enumerateBus (room + 1) s = if (register t).search.valid then enumerateBus room (register t)
          else .ok () (register t) := by rw [enumerateBus, ht]
      cases hv : (register t).search.valid with
      | false =>
        rw [hv] at hstep
        exact Or.inl ⟨register t, hstep, first, by rw [hcount]; omega⟩
      | true =>
        rw [hv, if_pos rfl] at hstep
        rw [hstep]
        rcases ih (register t) (by rw [hcount]; omega) ⟨first.linesWf, first.addrsWf⟩ with
          ⟨u, hu, hlu, hc⟩ | ⟨e, u, hu, he, hlu, hc⟩
        · exact Or.inl ⟨u, hu, rest u hlu, by rw [hcount] at hc; omega⟩
        · exact Or.inr ⟨e, u, hu, he, rest u hlu, hc⟩

end Sys2Proof.Machine
end

