-- ==== Sys2Proof/Laws/Discover.lean ====
section
/-! SUPPORT. What the enumeration of a bus list keeps (44 R212): masks on existing lines, COUNT within the
capacity, the registry's form, LAST against LDISC; and what each bus of the list registers. -/

namespace Sys2Proof.Machine

/-! Masks. -/

theorem within_or {p : Params} {a b : BusLine} (ha : BusLine.within p a) (hb : BusLine.within p b) :
    BusLine.within p (a ||| b) := Nat.or_lt_two_pow ha hb

theorem within_and {p : Params} {a : BusLine} (b : BusLine) (ha : BusLine.within p a) :
    BusLine.within p (a &&& b) := Nat.lt_of_le_of_lt Nat.and_le_left ha

theorem within_clearBits {p : Params} {a : BusLine} (b : BusLine) (ha : BusLine.within p a) :
    BusLine.within p (clearBits a b) := Nat.xor_lt_two_pow ha (within_and b ha)

theorem within_zero (p : Params) : BusLine.within p 0 := Nat.two_pow_pos _

theorem within_lineMask (p : Params) : BusLine.within p p.lineMask :=
  Nat.sub_lt (Nat.two_pow_pos _) Nat.one_pos

theorem within_masked (p : Params) (v : Nat) : BusLine.within p (v &&& p.lineMask) := by
  rw [Nat.and_comm]
  exact within_and v (within_lineMask p)

/-- A mask selects no line that does not exist. -/
theorem BusLine.within.testBit {p : Params} {m : BusLine} (h : BusLine.within p m) {l : Nat} (hl : p.nLines ≤ l) :
    m.testBit l = false :=
  Nat.testBit_lt_two_pow (Nat.lt_of_lt_of_le h (Nat.pow_le_pow_right (by decide) hl))

/-- The three latches select only lines that exist. -/
structure Lines.Within (ln : Lines) (p : Params) : Prop where
  dir : BusLine.within p ln.dir
  out : BusLine.within p ln.out
  strong : BusLine.within p ln.strong

/-- `LineDrive` on existing lines. -/
theorem Lines.Within.drive {ln : Lines} {p : Params} (h : ln.Within p) {m : BusLine}
    (hm : BusLine.within p m) (d : Drive) : (ln.drive m d).Within p := by
  cases d
  · exact ⟨within_or h.dir hm, within_clearBits _ h.out, within_clearBits _ h.strong⟩
  · exact ⟨within_or h.dir hm, within_or h.out hm, within_clearBits _ h.strong⟩
  · exact ⟨within_or h.dir hm, within_or h.out hm, within_or h.strong hm⟩

/-- `LineDrive` leaves the lines outside its mask (41 R141). -/
theorem Lines.drive_sameAt (ln : Lines) (m : BusLine) (d : Drive) (l : Nat) (h : m.testBit l = false) :
    ln.SameAt (ln.drive m d) l := by
  cases d <;> simp [Lines.SameAt, Lines.drive, h]

/-- Releasing a mask releases its lines and keeps released lines released (42 R174). -/
theorem Lines.drive_releasedAt (ln : Lines) (m : BusLine) (l : Nat) (h : m.testBit l = true ∨ ln.ReleasedAt l) :
    (ln.drive m .rel).ReleasedAt l := by
  rcases h with h | ⟨h1, h2, h3⟩ <;> simp [Lines.ReleasedAt, Lines.drive, *]

/-- A released line is in the driver state released (10_state R42). -/
theorem Lines.ReleasedAt.drv {ln : Lines} {l : Nat} (h : ln.ReleasedAt l) : ln.drv l = .rel := by
  simp [Lines.drv, h.1, h.2.1, h.2.2]

/-- What holds between the parts of DISCOVER. -/
structure State.Enumerable (s : State) : Prop where
  capacity : s.params.registryCapacity ≤ 255
  count : s.registry.count.toNat ≤ s.params.registryCapacity
  linesWf : s.registry.lines.wf = true
  addrsWf : s.registry.addrs.wf = true
  last : s.status.last = !s.search.valid
  bussel : BusLine.within s.params s.regs.bussel
  lines : s.lines.Within s.params
  buslist : ∀ i, BusLine.within s.params (s.buslist.read i)

/-- What the enumeration of the buses `is` of the list leaves in either outcome (44 R212). -/
structure State.Enumerated (s : State) (is : List Nat) (t : State) : Prop where
  walked : s.Walked t
  enumerable : t.Enumerable
  /-- nothing outside the registry's entries is written -/
  entryLines : ∀ j, s.params.registryCapacity ≤ j → t.registry.lines.read j = s.registry.lines.read j
  entryAddrs : ∀ c, 8 * s.params.registryCapacity ≤ c → t.registry.addrs.read c = s.registry.addrs.read c
  /-- no line outside those buses is driven -/
  outside : ∀ l, (∀ i, i ∈ is → (s.buslist.read i).testBit l = false) → s.lines.SameAt t.lines l
  /-- what was released stays so -/
  released : ∀ l, s.lines.ReleasedAt l → t.lines.ReleasedAt l

/-- One bus of the list: its lines are left released in either outcome (44 R212, 42 R174). -/
theorem discoverBus_spec (i : Nat) (s : State) (h : s.Enumerable) :
    ∃ t, s.Enumerated [i] t ∧ t.regs.bussel = s.buslist.read i ∧
      (∀ l, (s.buslist.read i).testBit l = true → t.lines.ReleasedAt l) ∧
      (discoverBus i s = .ok () t ∨
        ∃ e, discoverBus i s = .raised e t ∧ (e = .commError ∨ e = .discoveryError) ∧ t.registry.count = 0) := by
  obtain ⟨u, hu⟩ : ∃ u, ({ s with regs := { s.regs with bussel := s.buslist.read i } } : State).searchInit = u :=
    ⟨_, rfl⟩
  have hd : discoverBus i s = enumerateBus (u.params.registryCapacity - u.registry.count.toNat) u := by
    rw [← hu]; rfl
  have hw : s.Walked u := by
    rw [← hu]; exact { State.Walked.refl s with regs := rfl }
  have hp : u.params = s.params := hw.params
  have hreg : u.registry = s.registry := by rw [← hu]; rfl
  have hln : u.lines = s.lines := by rw [← hu]; rfl
  have hbs : u.regs.bussel = s.buslist.read i := by rw [← hu]; rfl
  have hcap := h.capacity
  have hcount := h.count
  have hmask : BusLine.within s.params u.regs.bussel := by rw [hbs]; exact h.buslist i
  have hroom : u.registry.count.toNat + (u.params.registryCapacity - u.registry.count.toNat) =
      s.params.registryCapacity := by rw [hp, hreg]; omega
  have finish : ∀ t : State, u.Looped (u.params.registryCapacity - u.registry.count.toNat) t →
      t.registry.count.toNat ≤ s.params.registryCapacity → s.Enumerated [i] t ∧ t.regs.bussel = s.buslist.read i ∧
        ∀ l, (s.buslist.read i).testBit l = true → t.lines.ReleasedAt l := by
    intro t ht hct
    have hpt : t.params = s.params := ht.walked.params.trans hp
    refine ⟨⟨hw.trans ht.walked, ⟨by rw [hpt]; exact hcap, by rw [hpt]; exact hct, ht.linesWf, ht.addrsWf, ht.last,
      ?_, ?_, ?_⟩, fun j hj => ?_, fun c hc => ?_, fun l hl => ?_, fun l hl => ?_⟩,
      by rw [ht.regs]; exact hbs, fun l hl => ?_⟩
    · rw [hpt, ht.regs]; exact hmask
    · rw [hpt, ht.lines, hln]; exact h.lines.drive hmask .rel
    · rw [hpt, ht.walked.buslist, hw.buslist]; exact h.buslist
    · rw [ht.entryLines j (Or.inr (by rw [hroom]; exact hj)), hreg]
    · rw [ht.entryAddrs c (Or.inr (by rw [hroom]; exact hc)), hreg]
    · rw [ht.lines, hln, hbs]
      exact Lines.drive_sameAt _ _ _ _ (hl i (List.mem_singleton.mpr rfl))
    · rw [ht.lines, hln]
      exact Lines.drive_releasedAt _ _ _ (Or.inr hl)
    · rw [ht.lines, hbs]
      exact Lines.drive_releasedAt _ _ _ (Or.inl hl)
  rcases enumerateBus_spec (u.params.registryCapacity - u.registry.count.toNat) u (by rw [hroom]; exact hcap)
    (by rw [hreg]; exact ⟨h.linesWf, h.addrsWf⟩) with ⟨t, ht, hlt, hct⟩ | ⟨e, t, ht, he, hlt, hct⟩
  · obtain ⟨a, b, c⟩ := finish t hlt (by rw [hroom] at hct; exact hct)
    exact ⟨t, a, b, c, Or.inl (hd.trans ht)⟩
  · obtain ⟨a, b, c⟩ := finish t hlt (by rw [hct]; exact Nat.zero_le _)
    exact ⟨t, a, b, c, Or.inr ⟨e, hd.trans ht, he, hct⟩⟩

/-- The buses of a list: on Ok the lines of every one of them are left released (44 R212, 42 R174). -/
theorem discoverBuses_spec (is : List Nat) : ∀ s : State, s.Enumerable →
    (∃ t, discoverBuses is s = .ok () t ∧ s.Enumerated is t ∧
      ∀ l, (∃ i, i ∈ is ∧ (s.buslist.read i).testBit l = true) → t.lines.ReleasedAt l) ∨
    (∃ e t, discoverBuses is s = .raised e t ∧ (e = .commError ∨ e = .discoveryError) ∧ s.Enumerated is t ∧
      t.registry.count = 0) := by
  induction is with
  | nil =>
    exact fun s h => Or.inl ⟨s, rfl, ⟨.refl s, h, fun _ _ => rfl, fun _ _ => rfl, fun _ _ => ⟨rfl, rfl, rfl⟩,
      fun _ h => h⟩, fun l ⟨i, hi, _⟩ => absurd hi (by simp)⟩
  | cons i is ih =>
    intro s h
    have join : ∀ t u, s.Enumerated [i] t → t.Enumerated is u → s.Enumerated (i :: is) u := by
      intro t u ht hu
      refine ⟨ht.walked.trans hu.walked, hu.enumerable, fun j hj => ?_, fun c hc => ?_, fun l hl => ?_,
        fun l hl => hu.released l (ht.released l hl)⟩
      · rw [hu.entryLines j (by rw [ht.walked.params]; exact hj), ht.entryLines j hj]
      · rw [hu.entryAddrs c (by rw [ht.walked.params]; exact hc), ht.entryAddrs c hc]
      · obtain ⟨a1, a2, a3⟩ := ht.outside l (fun j hj => hl j (by simp_all))
        obtain ⟨b1, b2, b3⟩ := hu.outside l
          (fun j hj => by rw [ht.walked.buslist]; exact hl j (List.mem_cons_of_mem _ hj))
        exact ⟨b1.trans a1, b2.trans a2, b3.trans a3⟩
    obtain ⟨t, hk, -, hrel, ht | ⟨e, ht, he, hc⟩⟩ := discoverBus_spec i s h
    · rcases ih t hk.enumerable with ⟨u, hu, hku, hur⟩ | ⟨e, u, hu, he, hku, hc⟩
      · refine Or.inl ⟨u, by rw [discoverBuses, ht]; exact hu, join t u hk hku, fun l hl => ?_⟩
        obtain ⟨j, hj, hl⟩ := hl
        rcases List.mem_cons.mp hj with rfl | hj
        · exact hku.released l (hrel l hl)
        · exact hur l ⟨j, hj, by rw [hk.walked.buslist]; exact hl⟩
      · exact Or.inr ⟨e, u, by rw [discoverBuses, ht]; exact hu, he, join t u hk hku, hc⟩
    · exact Or.inr ⟨e, t, by rw [discoverBuses, ht]; rfl, he,
        { hk with outside := fun l hl => hk.outside l fun j hj => hl j (by simp_all) }, hc⟩

/-- Clearing COUNT keeps what holds between the parts. -/
theorem State.Enumerable.setCount {s : State} (h : s.Enumerable) : (s.setCount 0).Enumerable :=
  { h with count := Nat.zero_le _ }


/-! What DISCOVER registers, bus by bus (44 R212). -/

/-- The bits of an entry that another registry has too. -/
theorem foundEvents_congr (p : Params) (m : BusLine) {f g : Nat → Bool} (h : ∀ k, k < 64 → f k = g k) :
    foundEvents p m f = foundEvents p m g := by
  have : (List.range 64).map (fun k => ({ mask := m, slot := .w (f k) } : WireEvent)) =
      (List.range 64).map fun k => { mask := m, slot := .w (g k) } :=
    List.map_congr_left fun k hk => by rw [h k (List.mem_range.mp hk)]
  rw [foundEvents, foundEvents, this]

/-- The identifier bits of an entry that is the same. -/
theorem Registry.SameEntry.bit {r r' : Registry} {j : Nat} (h : r.SameEntry r' j) {k : Nat} (hk : k < 64) :
    r'.entryBit j k = r.entryBit j k := by
  rw [Registry.entryBit, h.2 (k / 8) (by omega), Registry.entryBit]

/-- What was registered stays registered where the entries stay. -/
theorem Registry.Registers.congr {r r' : Registry} {p : Params} {m : BusLine} {ev : List WireEvent} {lo hi : Nat}
    (h : r.Registers p m ev lo hi) (hs : ∀ j, lo ≤ j → j < hi → r.SameEntry r' j) : r'.Registers p m ev lo hi where
  order := h.order
  reset := h.reset
  masks := h.masks
  lines := fun j hlo hhi => (hs j hlo hhi).1.trans (h.lines j hlo hhi)
  passes := by
    rw [h.passes]
    refine List.flatMap_congr fun j hj => foundEvents_congr p m fun k hk => ?_
    obtain ⟨hlo, hhi⟩ := List.mem_range'_1.mp hj
    exact ((hs j hlo (by omega)).bit hk).symm

/-- An enumeration after another of the same lines. -/
theorem Registry.Registers.append {r : Registry} {p : Params} {m : BusLine} {x y : List WireEvent} {lo mid hi : Nat}
    (h : r.Registers p m x lo mid) (k : r.Registers p m y mid hi) : r.Registers p m (x ++ y) lo hi where
  order := Nat.le_trans h.order k.order
  reset := by
    obtain ⟨b, hb⟩ := h.reset
    exact ⟨b, by rw [List.head?_append, hb]; rfl⟩
  masks := fun e he => (List.mem_append.mp he).elim (h.masks e) (k.masks e)
  lines := fun j hlo hhi => if hm : j < mid then h.lines j hlo hm else k.lines j (by omega) hhi
  passes := by
    have h1 := h.order
    have h2 := k.order
    rw [List.filter_append, h.passes, k.passes, ← List.flatMap_append, show hi - lo = (mid - lo) + (hi - mid) by omega,
      ← List.range'_append_1, show lo + (mid - lo) = mid by omega]

/-- What the host sent among the triplets of a pass: the bits it wrote. -/
theorem sent_triplets (ld : SearchState) (m : BusLine) (b c : Nat → Bool) (ps : List Nat) :
    (ps.flatMap (tripletEvents ld m b c)).filter (fun x => x.slot.sent) =
      ps.map fun q => { mask := m, slot := .w (tripletBit ld q (b q) (c q)) } := by
  induction ps with
  | nil => rfl
  | cons q ps ih => rw [List.flatMap_cons, List.filter_append, ih]; rfl

/-- The search command is sent whole. -/
theorem sent_searchCommand (p : Params) (m : BusLine) :
    (searchCommandEvents p m).filter (fun x => x.slot.sent) = searchCommandEvents p m := by
  unfold searchCommandEvents
  split <;> rfl

/-- The events of a pass run on its lines. -/
theorem mask_passEvents (p : Params) (ld : SearchState) (m : BusLine) (b c : Nat → Bool) (ps : List Nat) :
    ∀ x, x ∈ searchCommandEvents p m ++ ps.flatMap (tripletEvents ld m b c) → x.mask = m := by
  intro x hx
  rcases List.mem_append.mp hx with hx | hx
  · unfold searchCommandEvents writtenByte at hx
    split at hx
    · obtain ⟨_, _, rfl⟩ := List.mem_map.mp hx
      rfl
    · exact absurd hx (by simp)
  · obtain ⟨q, _, hx⟩ := List.mem_flatMap.mp hx
    simp only [tripletEvents, List.mem_cons, List.not_mem_nil, or_false] at hx
    rcases hx with rfl | rfl | rfl <;> rfl

/-- `t` comes from `s` by the events `ev` of passes on the lines of BUSSEL, which registered what COUNT grew by and
touched no other entry (44 R212). -/
structure State.Found (s t : State) (ev : List WireEvent) : Prop where
  wire : t.env.wire = s.env.wire ++ ev
  registers : t.registry.Registers s.params s.regs.bussel ev s.registry.count.toNat t.registry.count.toNat
  others : ∀ j, j < s.registry.count.toNat ∨ t.registry.count.toNat ≤ j → s.registry.SameEntry t.registry j

/-- Passes after passes on the same lines. -/
theorem State.Found.trans {s t u : State} {x y : List WireEvent} (h : s.Found t x) (k : t.Found u y)
    (hp : t.params = s.params) (hb : t.regs.bussel = s.regs.bussel) : s.Found u (x ++ y) where
  wire := by rw [k.wire, h.wire, List.append_assoc]
  registers := (h.registers.congr fun j _ hj => k.others j (Or.inl hj)).append (hp ▸ hb ▸ k.registers)
  others := fun j hj => by
    have h1 := h.registers.order
    have h2 := k.registers.order
    have a := h.others j (by omega)
    have b := k.others j (by omega)
    exact ⟨b.1.trans a.1, fun i hi => (b.2 i hi).trans (a.2 i hi)⟩

/-- A pass that found no presence registers nothing (44 R213). -/
theorem searchPass_found_none {s t : State} (h : searchPass s = .raised .noPresence t) :
    s.Found t [resetEvent s.regs.bussel false] := by
  rcases searchPass_spec s with ⟨u, hu, -, hs⟩ | ⟨n, b, c, u, hu, -⟩ | ⟨b, c, u, id, hu, -⟩
  · rw [hu] at h
    obtain rfl : u = t := by injection h
    have hr : u.registry = s.registry := hs.registry
    refine ⟨hs.wire, ⟨by rw [hr], ⟨false, rfl⟩, fun x hx => by rw [List.mem_singleton.mp hx]; rfl,
      fun j h1 h2 => by rw [hr] at h2; omega, by rw [hr, Nat.sub_self]; rfl⟩, fun _ _ => by rw [hr]; exact ⟨rfl, fun _ _ => rfl⟩⟩
  · rw [hu] at h; simp at h
  · rw [hu] at h; simp at h

/-- A completed pass and its registration: one entry, the identifier it wrote (44 R203, R212). -/
theorem searchPass_found_one {s t : State} (h : searchPass s = .ok () t) (hc : s.registry.count.toNat < 255)
    (hwf : s.registry.lines.wf = true ∧ s.registry.addrs.wf = true) :
    (∃ ev, s.Found (register t) ev) ∧ (register t).registry.count.toNat = s.registry.count.toNat + 1 := by
  rcases searchPass_spec s with ⟨u, hu, -⟩ | ⟨n, b, c, u, hu, -⟩ | ⟨b, c, u, id, hu, -, -, hs, hid⟩
  · rw [hu] at h; simp at h
  · rw [hu] at h; simp at h
  rw [hu] at h
  obtain rfl : searchDone { id := id, cand := candAfter s.search b c (List.range 64) none } u = t := by injection h
  have hr : u.registry = s.registry := hs.registry
  have hg : u.regs = s.regs := hs.regs
  have hn : (s.registry.count + 1).toNat = s.registry.count.toNat + 1 := by
    rw [BitVec.toNat_add]
    have : (1 : Byte).toNat = 1 := rfl
    omega
  have hline : ∀ j, (s.registry.writeEntry s.registry.count.toNat s.regs.bussel id).lineOf j =
      if j = s.registry.count.toNat then s.regs.bussel else s.registry.lineOf j :=
    fun j => Registry.writeEntry_lines _ _ _ _ hwf.1 j
  have hbyte : ∀ j i, i < 8 → (s.registry.writeEntry s.registry.count.toNat s.regs.bussel id).addrByte j i =
      if j = s.registry.count.toNat then byteAt id i else s.registry.addrByte j i := by
    intro j i hi
    rw [Registry.addrByte, Registry.writeEntry_addrs _ _ _ _ hwf.2]
    by_cases hj : j = s.registry.count.toNat
    · rw [if_pos (by omega), if_pos hj, show 8 * j + i - 8 * s.registry.count.toNat = i by omega]
    · rw [if_neg (by omega), if_neg hj, Registry.addrByte]
  have hbit : ∀ k, k < 64 → (s.registry.writeEntry s.registry.count.toNat s.regs.bussel id).entryBit
      s.registry.count.toNat k = id.getLsbD k := by
    intro k hk
    rw [Registry.entryBit, hbyte _ _ (by omega), if_pos rfl, byteAt, BitVec.getLsbD_extractLsb',
      decide_eq_true (Nat.mod_lt _ (by decide)), Bool.true_and, Nat.div_add_mod]
  rw [register_registry, searchDone_registry, hr, searchDone_regs, hg]
  refine ⟨⟨_, ⟨hs.wire, ?_, ?_⟩⟩, hn⟩ <;>
    simp only [register_registry, searchDone_registry, searchDone_regs, searchDone_search, hr, hg]
  · refine ⟨by rw [hn]; omega, ⟨true, rfl⟩, fun x hx => ?_, fun j h1 h2 => ?_, ?_⟩
    · rcases List.mem_cons.mp hx with rfl | hx
      · rfl
      · exact mask_passEvents _ _ _ _ _ _ x hx
    · exact (hline j).trans (if_pos (by rw [hn] at h2; omega))
    · rw [hn, Nat.add_sub_cancel_left]
      show _ = foundEvents s.params s.regs.bussel _ ++ []
      rw [List.append_nil, List.filter_cons_of_pos rfl, List.filter_append, sent_triplets]
      refine (congrArg _ (congrArg₂ _ (sent_searchCommand _ _) (List.map_congr_left fun k hk => ?_))).trans
        (foundEvents_congr _ _ hbit).symm
      rw [hid k (List.mem_range.mp hk)]
  · rw [hn]
    exact fun j hj => ⟨(hline j).trans (if_neg (by omega)), fun i hi => (hbyte j i hi).trans (if_neg (by omega))⟩

/-- The pass loop of one bus that ends without error registers one entry a completed pass (44 R212). -/
theorem enumerateBus_found (room : Nat) : ∀ s t : State, s.registry.count.toNat + room ≤ 255 →
    s.registry.lines.wf = true ∧ s.registry.addrs.wf = true → enumerateBus room s = .ok () t → ∃ ev, s.Found t ev := by
  induction room with
  | zero =>
    intro s t _ _ h
    rw [enumerateBus] at h
    split at h
    · rename_i hu
      obtain rfl : _ = t := by injection h
      exact ⟨_, searchPass_found_none hu⟩
    · simp at h
    · simp at h
  | succ room ih =>
    intro s t hroom hwf h
    rw [enumerateBus] at h
    split at h
    · rename_i hu
      obtain rfl : _ = t := by injection h
      exact ⟨_, searchPass_found_none hu⟩
    · simp at h
    · rename_i u hu
      obtain ⟨⟨ev, hf⟩, hn⟩ := searchPass_found_one hu (by omega) hwf
      rcases searchPass_walked s _ hu with ⟨e, _, he, -⟩ | ⟨u', he, hw, hr, hg, hl, hln⟩
      · simp at he
      obtain rfl : u = u' := by injection he
      obtain ⟨hlo, -⟩ := register_looped (room := room) hroom hw hr hg hwf hl hln
      dsimp only at h
      split at h
      · obtain ⟨ev', hf'⟩ := ih (register u) t (by omega) ⟨hlo.linesWf, hlo.addrsWf⟩ h
        exact ⟨_, hf.trans hf' hlo.walked.params (by rw [hlo.regs])⟩
      · obtain rfl : register u = t := by injection h
        exact ⟨ev, hf⟩

/-- The buses of a list and one more. -/
theorem discoverBuses_concat (i : Nat) (is : List Nat) : ∀ s : State,
    discoverBuses (is ++ [i]) s = (discoverBuses is s).bind fun _ t => discoverBus i t := by
  induction is with
  | nil =>
    intro s
    simp only [List.nil_append, discoverBuses, Run.bind]
    cases discoverBus i s <;> rfl
  | cons k is ih =>
    intro s
    simp only [List.cons_append, discoverBuses]
    cases discoverBus k s with
    | ok a t => exact ih t
    | raised e t => rfl

/-- The first `n` buses of the list, enumerated without error: what each registered, in list order, and BUSSEL at the
last of them (44 R212). -/
theorem discoverBuses_found (n : Nat) : ∀ s t : State, s.Enumerable → discoverBuses (List.range n) s = .ok () t →
    (0 < n → t.regs.bussel = s.buslist.read (n - 1)) ∧
    ∃ (ev : Nat → List WireEvent) (first : Nat → Nat),
      t.env.wire = s.env.wire ++ (List.range n).flatMap ev ∧
      first 0 = s.registry.count.toNat ∧ first n = t.registry.count.toNat ∧
      s.registry.count.toNat ≤ t.registry.count.toNat ∧
      (∀ i, i < n → t.registry.Registers s.params (s.buslist.read i) (ev i) (first i) (first (i + 1)) ∧
        first (i + 1) ≤ t.registry.count.toNat) ∧
      ∀ j, j < s.registry.count.toNat ∨ t.registry.count.toNat ≤ j → s.registry.SameEntry t.registry j := by
  induction n with
  | zero =>
    intro s t _ h
    obtain rfl : s = t := by injection h
    exact ⟨fun h => absurd h (by omega), fun _ => [], fun _ => s.registry.count.toNat, by simp, rfl, rfl,
      Nat.le_refl _, fun i hi => absurd hi (by omega), fun _ _ => ⟨rfl, fun _ _ => rfl⟩⟩
  | succ n ih =>
    intro s t hs h
    rw [List.range_succ, discoverBuses_concat] at h
    rcases discoverBuses_spec (List.range n) s hs with ⟨u, hu, hk, -⟩ | ⟨e, u, hu, -⟩
    · rw [hu] at h
      simp only [Run.bind] at h
      obtain ⟨-, ev, first, hw, h0, hn, hle, hreg, hoth⟩ := ih s u hs hu
      have hcap := hk.enumerable.capacity
      have hcnt := hk.enumerable.count
      have hp : u.params = s.params := hk.walked.params
      have hbl : u.buslist = s.buslist := hk.walked.buslist
      obtain ⟨v, hv, hbv, -, hv' | ⟨e, hv', -⟩⟩ := discoverBus_spec n u hk.enumerable
      · rw [hv'] at h
        obtain rfl : v = t := by injection h
        obtain ⟨x, hx⟩ : ∃ ev, ({ u with regs := { u.regs with bussel := u.buslist.read n } } : State).searchInit.Found
            v ev :=
          enumerateBus_found _ _ v
            (by show u.registry.count.toNat + (u.params.registryCapacity - u.registry.count.toNat) ≤ 255; omega)
            ⟨hk.enumerable.linesWf, hk.enumerable.addrsWf⟩ hv'
        have hxw : v.env.wire = u.env.wire ++ x := hx.wire
        have hxr : v.registry.Registers u.params (u.buslist.read n) x u.registry.count.toNat
          v.registry.count.toNat := hx.registers
        have hxo : ∀ j, j < u.registry.count.toNat ∨ v.registry.count.toNat ≤ j →
          u.registry.SameEntry v.registry j := hx.others
        have hord := hxr.order
        refine ⟨fun _ => by rw [hbv, hbl]; rfl, fun i => if i = n then x else ev i,
          fun i => if i = n + 1 then v.registry.count.toNat else first i, ?_, by simpa using h0, by simp, by omega,
          fun i hi => ?_, fun j hj => ?_⟩
        · have : (List.range n).flatMap (fun i => if i = n then x else ev i) = (List.range n).flatMap ev :=
            List.flatMap_congr fun i hi => if_neg (by have := List.mem_range.mp hi; omega)
          rw [List.range_succ, List.flatMap_append, this, hxw, hw]
          simp
        · by_cases hin : i = n
          · subst hin
            simp only [if_true, if_neg (show i ≠ i + 1 by omega)]
            rw [hn, ← hp, ← hbl]
            exact ⟨hxr, Nat.le_refl _⟩
          · simp only [if_neg hin, if_neg (show i ≠ n + 1 by omega), if_neg (show i + 1 ≠ n + 1 by omega)]
            obtain ⟨a, b⟩ := hreg i (by omega)
            exact ⟨a.congr fun j _ hj => hxo j (Or.inl (by omega)), by omega⟩
        · have a := hoth j (by omega)
          have b := hxo j (by omega)
          exact ⟨b.1.trans a.1, fun i hi => (b.2 i hi).trans (a.2 i hi)⟩
      · rw [hv'] at h; simp at h
    · rw [hu] at h; simp [Run.bind] at h

end Sys2Proof.Machine
end

