-- ==== Sys2Proof/Laws/PerInstr.lean ====
section
/-! SUPPORT. The per-instruction family Encoding: the word of each command has the fields of its row, and they
are legal (30_encoding R101, R104, R106). -/

namespace Sys2Proof.Laws.Encoding

/-- The word of `i` has `Z` = 00, its opcode and its flag, and is none of the illegal words. -/
def Statement (i : Instr) : Prop :=
  commandFields (encode i) = fieldsOf i ∧ (fieldsOf i).wf = true

theorem configureOutput : Statement .configureOutput := ⟨by decide, by decide⟩
theorem driveLow : Statement .driveLow := ⟨by decide, by decide⟩
theorem releaseHigh : Statement .releaseHigh := ⟨by decide, by decide⟩
theorem readLevel : Statement .readLevel := ⟨by decide, by decide⟩
theorem configureInput : Statement .configureInput := ⟨by decide, by decide⟩
theorem driveHigh : Statement .driveHigh := ⟨by decide, by decide⟩
theorem guardEnter : Statement .guardEnter := ⟨by decide, by decide⟩
theorem guardExit : Statement .guardExit := ⟨by decide, by decide⟩
theorem reset : Statement .reset := ⟨by decide, by decide⟩
theorem writeBit : Statement .writeBit := ⟨by decide, by decide⟩
theorem readBit : Statement .readBit := ⟨by decide, by decide⟩
theorem writeByte : Statement .writeByte := ⟨by decide, by decide⟩
theorem readByte : Statement .readByte := ⟨by decide, by decide⟩
theorem crc8 : Statement .crc8 := ⟨by decide, by decide⟩
theorem validate : Statement .validate := ⟨by decide, by decide⟩
theorem searchInit : Statement .searchInit := ⟨by decide, by decide⟩
theorem searchPass : Statement .searchPass := ⟨by decide, by decide⟩
theorem discover : Statement .discover := ⟨by decide, by decide⟩
theorem convert (a : Addressing) : Statement (.convert a) := by
  cases a <;> exact ⟨by decide, by decide⟩
theorem readScratchpad (a : Addressing) : Statement (.readScratchpad a) := by
  cases a <;> exact ⟨by decide, by decide⟩
theorem writeScratchpad (a : Addressing) : Statement (.writeScratchpad a) := by
  cases a <;> exact ⟨by decide, by decide⟩
theorem copyScratchpad (a : Addressing) : Statement (.copyScratchpad a) := by
  cases a <;> exact ⟨by decide, by decide⟩
theorem readRom : Statement .readRom := ⟨by decide, by decide⟩
theorem decodeTemperature : Statement .decodeTemperature := ⟨by decide, by decide⟩
theorem readTemperature (a : Addressing) : Statement (.readTemperature a) := by
  cases a <;> exact ⟨by decide, by decide⟩

end Sys2Proof.Laws.Encoding
end

