-- ==== Sys2Proof/Tests/Slice0.lean ====
section
/-! SUPPORT. Tests: the checks refuse ill-formed terms; words written out from 30_encoding R101 and R104
decode; one step of each command against the vectors of 95_test_vectors; witnesses for the hypotheses of the
obligations. Expected results are the spec's, named in each docstring. -/

namespace Sys2Proof.Tests

open Sys2Proof.Machine

/-! One theorem at a time: the kernel evaluations below would each hold a thread while they wait. -/
set_option Elab.async false

/-! States and one step. -/

/-- Line 0 selected, every pull-up present, ideal responders, HOST_IE = 1 (95_test_vectors, "From reset"). -/
def onBus (devices : List Device) : State :=
  let s := State.launch Params.default { BusEnv.atLaunch Params.default with oracle := 0, devices := devices }
    { HostSide.atLaunch with ie := true }
  { s with regs := { s.regs with bussel := 0x01 } }

/-- Eight bytes, lowest index first. -/
def addrOf (b0 b1 b2 b3 b4 b5 b6 b7 : Byte) : DeviceAddress := b7 ++ b6 ++ b5 ++ b4 ++ b3 ++ b2 ++ b1 ++ b0

/-- Nine bytes, lowest index first. -/
def spOf (b0 b1 b2 b3 b4 b5 b6 b7 b8 : Byte) : Scratchpad := b8 ++ addrOf b0 b1 b2 b3 b4 b5 b6 b7

/-- The addresses A, B and X of 95_test_vectors. -/
def addrA : DeviceAddress := addrOf 0x28 0x01 0 0 0 0 0 0x29
def addrB : DeviceAddress := addrOf 0x28 0x02 0 0 0 0 0 0x70
def addrX : DeviceAddress := addrOf 0x28 0xFF 0x4B 0x46 0x92 0x16 0x04 0x78

/-- The scratchpad of programs P1 and P6 of 95_test_vectors. -/
def spX : Scratchpad := spOf 0x91 0x01 0x4B 0x46 0x7F 0xFF 0x0F 0x10 0x25

/-- A device on line 0. -/
def device (addr : DeviceAddress) (sp : Scratchpad) : Device :=
  { line := 0, addr := addr, sp := sp, nv := 0, busy := false, due := [], mode := .off }

/-- The state a command ends in. -/
def after (i : Instr) (s : State) : State :=
  match exec i s with
  | .next t => t
  | .fault _ => s
  | .refused _ => s

/-- The host writes `v` to register `n` (46 R356). -/
def wr (n v : Nat) (s : State) : State := s.writeReg n v

/-- STATUS as read. -/
def status (s : State) : Nat := s.readReg 0x01

/-- LINE_DIR, LINE_OUT and LINE_STRONG as read. -/
def latches (s : State) : Nat × Nat × Nat := (s.readReg 0x0E, s.readReg 0x0F, s.readReg 0x10)

/-- The first `n` cells of BUF. -/
def buf (s : State) (n : Nat) : List Byte := s.bufWindow n

/-- The slots of the wire history. -/
def wire (s : State) : List Slot := s.env.wire.map fun x => x.slot

/-- `B(xx)`: eight write slots, bit 0 first. -/
def sentByte (b : Byte) : List Slot := (List.range 8).map fun k => .w (b.getLsbD k)

/-- `RB(xx)`: eight read slots, bit 0 first. -/
def gotByte (b : Byte) : List Slot := (List.range 8).map fun k => .r (b.getLsbD k)

/-! The checks refuse ill-formed terms. -/

/-- Z must be 00 (30_encoding R101). -/
theorem test_zClear_refuses : ({ op := 0x08, z := 1, a := false } : CommandWord).zClear = false ∧
    ({ op := 0x08, z := 1, a := false } : CommandWord).wf = false := by decide +kernel

/-- 0x0D is a reserved opcode (30_encoding R106). -/
theorem test_opAssigned_refuses : ({ op := 0x0D, z := 0, a := false } : CommandWord).opAssigned = false ∧
    ({ op := 0x0D, z := 0, a := false } : CommandWord).wf = false := by decide +kernel

/-- RESET has no addressing flag (30_encoding R106). -/
theorem test_flagAllowed_refuses : ({ op := 0x08, z := 0, a := true } : CommandWord).flagAllowed = false ∧
    ({ op := 0x08, z := 0, a := true } : CommandWord).wf = false := by decide +kernel

/-- Register 0x80 does not exist (46 R356). -/
theorem test_access_refuses : (HostAccess.read 0x80).wf = false ∧ (HostAccess.write 0xFF 0).wf = false ∧
    (HostAccess.read 0x7F).wf = true := by decide +kernel

/-- The sizes have ranges (00_scope R9). -/
theorem test_sizes_refuse : { Params.default with guardMax := 1 }.sizesWf = false ∧
    { Params.default with nLines := 0 }.sizesWf = false ∧
    { Params.default with maxBuses := 65 }.sizesWf = false ∧
    { Params.default with registryCapacity := 0 }.sizesWf = false ∧ Params.default.wf = true := by decide +kernel

/-- T_RSTL is at least 480 µs (70 R330). -/
theorem test_times_refuse : { Params.default with tRstl := 479 }.timesWf = false ∧
    { Params.default with tW1l := 16 }.timesWf = false := by decide +kernel

/-! Words written out from 30_encoding R101 (A, Z, OP) and R104. -/

theorem test_decode_line : decode 0b0_00_00000 = .ok .configureOutput ∧ decode 0b0_00_00001 = .ok .driveLow ∧
    decode 0b0_00_00010 = .ok .releaseHigh ∧ decode 0b0_00_00011 = .ok .readLevel ∧
    decode 0b0_00_00100 = .ok .configureInput ∧ decode 0b0_00_00101 = .ok .driveHigh ∧
    decode 0b0_00_00110 = .ok .guardEnter ∧ decode 0b0_00_00111 = .ok .guardExit := by decide +kernel

theorem test_decode_transport : decode 0b0_00_01000 = .ok .reset ∧ decode 0b0_00_01001 = .ok .writeBit ∧
    decode 0b0_00_01010 = .ok .readBit ∧ decode 0b0_00_01011 = .ok .writeByte ∧
    decode 0b0_00_01100 = .ok .readByte := by decide +kernel

theorem test_decode_crc : decode 0b0_00_10000 = .ok .crc8 ∧ decode 0b0_00_10001 = .ok .validate := by decide +kernel

theorem test_decode_search : decode 0b0_00_10100 = .ok .searchInit ∧ decode 0b0_00_10101 = .ok .searchPass ∧
    decode 0b0_00_10110 = .ok .discover := by decide +kernel

theorem test_decode_sensor : decode 0b0_00_11000 = .ok (.convert .skip) ∧
    decode 0b1_00_11000 = .ok (.convert .matched) ∧ decode 0b0_00_11001 = .ok (.readScratchpad .skip) ∧
    decode 0b1_00_11001 = .ok (.readScratchpad .matched) ∧ decode 0b0_00_11010 = .ok (.writeScratchpad .skip) ∧
    decode 0b1_00_11010 = .ok (.writeScratchpad .matched) ∧ decode 0b0_00_11011 = .ok (.copyScratchpad .skip) ∧
    decode 0b1_00_11011 = .ok (.copyScratchpad .matched) ∧ decode 0b0_00_11100 = .ok .readRom ∧
    decode 0b0_00_11101 = .ok .decodeTemperature ∧ decode 0b0_00_11110 = .ok (.readTemperature .skip) ∧
    decode 0b1_00_11110 = .ok (.readTemperature .matched) := by decide +kernel

/-- V-E8 to V-E12: the illegal words of 95_test_vectors. -/
theorem test_decode_illegal : [0x9C, 0x88, 0x0D, 0x0E, 0x0F, 0x12, 0x13, 0x17, 0x1F, 0x20, 0x7F, 0xA0, 0xFF, 0x38,
    0xD8, 0x8D].all (fun w => decodeTableWord 8 w == none) = true := by decide +kernel

/-- "256 words = 25 commands using 30 words + 226 illegal words" (95_test_vectors section 2.1). -/
theorem test_thirty_words : ((List.range 256).filter fun w => (decodeTableWord 8 w).isSome).length = 30 := by
  decide +kernel

/-- Each legal word is the first command after reset and answers a next state; so is an illegal one, with
STATUS 0x17 (V-E8). -/
theorem test_first_after_reset : ((List.range 256).all fun w =>
    match step (State.reset.withFetchWord 8 w) with
    | .next _ => true
    | .fault _ => false
    | .refused _ => false) = true := by decide +kernel

theorem test_illegal_status : (match step ((onBus []).withFetchWord 8 0x9C) with
    | .next t => status t
    | .fault _ => 0
    | .refused _ => 0) = 0x17 := by decide +kernel

/-! Line Interface: V-L1 to V-L13. -/

theorem test_configureOutput : latches (after .configureOutput (wr 0x02 0x05 (onBus []))) = (0x05, 0xFF, 0x00) := by
  decide +kernel

/-- The state after V-L2: lines 0 and 2 low. -/
def linesLow : State := after .driveLow (after .configureOutput (wr 0x02 0x05 (onBus [])))

theorem test_driveLow : latches linesLow = (0x05, 0xFA, 0x00) := by decide +kernel

theorem test_readLevel_low : (after .readLevel linesLow).readReg 0x04 = 0x00 := by decide +kernel

/-- V-L6: line 2 released, line 0 still low. -/
theorem test_readLevel_high :
    (after .readLevel (after .releaseHigh (wr 0x02 0x04 linesLow))).readReg 0x04 = 0x01 := by decide +kernel

theorem test_releaseHigh : latches (after .releaseHigh (wr 0x02 0x04 linesLow)) = (0x05, 0xFE, 0x00) := by decide +kernel

theorem test_configureInput : latches (after .configureInput (wr 0x02 0x01 linesLow)) = (0x04, 0xFA, 0x00) := by
  decide +kernel

/-- V-L9: SPU stays 0 because DIR = 0. -/
theorem test_driveHigh_input : latches (after .driveHigh (onBus [])) = (0x00, 0xFF, 0x01) ∧
    status (after .driveHigh (onBus [])) = 0x10 := by decide +kernel

/-- V-L10: the line is now an output, driven high. -/
theorem test_driveHigh_output : status (after .configureOutput (after .driveHigh (onBus []))) = 0x30 := by decide +kernel

/-! The guard: V-G1 to V-G11. -/

theorem test_guardEnter : (after .guardEnter (onBus [])).readReg 0x11 = 0x81 ∧
    (after .guardEnter (onBus [])).host.ie = false ∧ status (after .guardEnter (onBus [])) = 0x50 := by decide +kernel

/-- V-G9: the seventh GUARD_ENTER. -/
theorem test_guardEnter_limit :
    status (after .guardEnter { onBus [] with guard := { depth := 6, savedIe := true } }) = 0x57 ∧
    (after .guardEnter { onBus [] with guard := { depth := 6, savedIe := true } }).readReg 0x11 = 0x86 := by decide +kernel

theorem test_guardExit : (after .guardExit (after .guardEnter (onBus []))).readReg 0x11 = 0x80 ∧
    (after .guardExit (after .guardEnter (onBus []))).host.ie = true := by decide +kernel

theorem test_guardExit_none : status (after .guardExit (onBus [])) = 0x17 := by decide +kernel

/-! Bit Transport: V-B1 to V-B14. -/

theorem test_reset_presence : status (after .reset (onBus [device addrX spX])) = 0x18 ∧
    wire (after .reset (onBus [device addrX spX])) = [.rst true] ∧
    latches (after .reset (onBus [device addrX spX])) = (0x01, 0xFF, 0x00) := by decide +kernel

theorem test_reset_none : status (after .reset (onBus [])) = 0x11 ∧ wire (after .reset (onBus [])) = [.rst false] := by
  decide +kernel

/-- V-B6: only TXD[0] is used. -/
theorem test_writeBit : wire (after .writeBit (wr 0x03 0xFE (onBus []))) = [.w false] := by decide +kernel

/-- V-G11: the guard inside the primitive leaves HOST_IE as it was and its bit in the latch. -/
theorem test_writeBit_guard : (after .writeBit (onBus [])).readReg 0x11 = 0x80 ∧
    (after .writeBit (onBus [])).host.ie = true := by decide +kernel

theorem test_readBit : wire (after .readBit (onBus [])) = [.r true] ∧ (after .readBit (onBus [])).readReg 0x04 = 0x01 := by
  decide +kernel

theorem test_writeByte : wire (after .writeByte (wr 0x03 0xCC (onBus []))) =
    [.w false, .w false, .w true, .w true, .w false, .w false, .w true, .w true] := by decide +kernel

/-- V-B10: the device sends 1,0,0,0,1,0,0,1. -/
theorem test_readByte : (after .readByte (onBus [{ device addrX spX with mode := .send 0x91 8 }])).readReg 0x04 =
    0x91 := by decide +kernel

theorem test_readByte_none : (after .readByte (onBus [])).readReg 0x04 = 0xFF := by decide +kernel

/-! CRC8: V-C2 to V-C26. -/

/-- V-C2, V-C7, V-C12. -/
theorem test_crc8_values : crc8 0 [0x01] = 0x5E ∧
    crc8 0 [0x31, 0x32, 0x33, 0x34, 0x35, 0x36, 0x37, 0x38, 0x39] = 0xA1 ∧
    crc8 0 [0x91, 0x01, 0x4B, 0x46, 0x7F, 0xFF, 0x0F, 0x10] = 0x25 := by decide +kernel

/-- V-C2: the register after each bit of the byte 01. -/
theorem test_crcBit : crcBit 0 true = 0x8C ∧ crcBit 0x8C false = 0x46 ∧ crcBit 0x23 false = 0x9D := by decide +kernel

/-- BUF of V-C20. -/
def crcBuf : State := wr 0x33 0x01 (wr 0x32 0xB8 (wr 0x31 0x1C (wr 0x30 0x02 (onBus []))))

theorem test_crc8 : (after .crc8 (wr 0x05 7 crcBuf)).readReg 0x04 = 0xA2 ∧
    status (after .crc8 (wr 0x05 7 crcBuf)) = 0x10 := by decide +kernel

theorem test_crc8_length : status (after .crc8 (wr 0x05 10 crcBuf)) = 0x17 ∧
    (after .crc8 (wr 0x05 10 crcBuf)).readReg 0x04 = 0x00 := by decide +kernel

theorem test_validate : (after .validate (wr 0x03 0xA2 (wr 0x05 7 crcBuf))).readReg 0x04 = 0x01 := by decide +kernel

theorem test_validate_mismatch : (after .validate (wr 0x03 0xA3 (wr 0x05 7 crcBuf))).readReg 0x04 = 0x00 ∧
    status (after .validate (wr 0x03 0xA3 (wr 0x05 7 crcBuf))) = 0x10 := by decide +kernel

/-! Device Discovery Engine: V-S2, V-S7, V-D2, V-D6, V-D8. -/

theorem test_searchInit : (after .searchInit (wr 0x28 0x28 (wr 0x0D 0x48 (onBus [])))).search =
    { ldisc := 0, prevId := 0 } ∧ status (after .searchInit (wr 0x0D 0x48 (onBus []))) = 0x10 := by decide +kernel

/-- V-S2, first pass: the collision at position 8 takes 0 and finds B. -/
theorem test_searchPass_collision : (after .searchPass (onBus [device addrA 0, device addrB 0])).search =
    { ldisc := 0x48, prevId := addrB } := by decide +kernel

/-- V-S7: a search state the host wrote sends the pass to A. -/
theorem test_searchPass_written : (after .searchPass { onBus [device addrA 0, device addrB 0] with
    search := { ldisc := 0x48, prevId := addrB } }).search = { ldisc := 0, prevId := addrA } := by decide +kernel

/-- V-D6: no device. -/
theorem test_discover_empty : status (after .discover (wr 0x0C 1 (wr 0x40 0x01 (onBus [])))) = 0x10 ∧
    (after .discover (wr 0x0C 1 (wr 0x40 0x01 (onBus [])))).readReg 0x0B = 0 := by decide +kernel

/-- One device on the bus of the list: COUNT and the entry (44 R212). -/
theorem test_discover_lone :
    (fun t => (t.readReg 0x0B, t.readReg 0x13, t.readReg 0x18, t.readReg 0x1F))
      (after .discover (wr 0x0C 1 (wr 0x40 0x01 (onBus [device addrX 0])))) = (1, 0x01, 0x28, 0x78) := by decide +kernel

/-- V-D2: three buses, A on line 0, nothing on line 1, B on line 2. -/
def threeBuses : State :=
  wr 0x0C 3 (wr 0x42 0x04 (wr 0x41 0x02 (wr 0x40 0x01 (onBus [device addrA 0, { device addrB 0 with line := 2 }]))))

/-- V-D2: each entry has the line of its own bus, in list order. -/
theorem test_discover_buses :
    (fun t => ([status t, t.readReg 0x0B, t.registry.lineOf 0, t.registry.lineOf 1, t.readReg 0x02, t.readReg 0x0E],
      t.registry.addrBytes 0 8, t.registry.addrBytes 1 8)) (after .discover threeBuses) =
      ([0x18, 2, 0x01, 0x04, 0x04, 0x07], addrBytes addrA 8, addrBytes addrB 8) := by decide +kernel

/-! Sensor Protocol: V-P1 to V-P14, programs P1, P2, P6. -/

/-- P1 step 2: the device converts; the wire carries CC and 44. -/
theorem test_convert : status (after (.convert .skip) (onBus [device addrX spX])) = 0x18 ∧
    wire (after (.convert .skip) (onBus [device addrX spX])) = [.rst true] ++ sentByte 0xCC ++ sentByte 0x44 ∧
    ((after (.convert .skip) (onBus [device addrX spX])).env.devices.all fun d => d.busy) = true := by decide +kernel

/-- V-P13: an empty mask. -/
theorem test_convert_noLine : status (after (.convert .matched) (wr 0x02 0x00 (onBus []))) = 0x11 := by decide +kernel

/-- V-P8. -/
theorem test_readScratchpad : buf (after (.readScratchpad .skip) (onBus [device addrX spX])) 9 =
    [0x91, 0x01, 0x4B, 0x46, 0x7F, 0xFF, 0x0F, 0x10, 0x25] ∧
    status (after (.readScratchpad .skip) (onBus [device addrX spX])) = 0x18 := by decide +kernel

/-- V-P10: ADDR = B and only A present: nobody answers. -/
theorem test_readScratchpad_other :
    status (after (.readScratchpad .matched) (wr 0x27 0x70 (wr 0x21 0x02 (wr 0x20 0x28 (onBus [device addrA spX]))))) =
      0x1B := by decide +kernel

/-- P6 step 3: the device's new scratchpad. -/
theorem test_writeScratchpad :
    (after (.writeScratchpad .skip) (wr 0x08 0x1F (wr 0x07 0x05 (wr 0x06 0x50 (onBus [device addrX spX]))))).env.devices.map
      (fun d => d.sp) = [spOf 0x91 0x01 0x50 0x05 0x1F 0xFF 0x0F 0x10 0xB1] := by decide +kernel

/-- P6 step 6: line 0 driven high, the device's nonvolatile bytes (line 0 of spX: 4B 46 7F). -/
theorem test_copyScratchpad : status (after (.copyScratchpad .skip) (onBus [device addrX spX])) = 0x38 ∧
    (after (.copyScratchpad .skip) (onBus [device addrX spX])).readReg 0x10 = 0x01 ∧
    (after (.copyScratchpad .skip) (onBus [device addrX spX])).env.devices.map (fun d => d.nv) = [0x7F464B] := by decide +kernel

/-- V-P9: after a failed COPY_SCRATCHPAD the line is not driven high. -/
theorem test_copyScratchpad_none : status (after (.copyScratchpad .skip) (onBus [])) = 0x11 ∧
    (after (.copyScratchpad .skip) (onBus [])).readReg 0x10 = 0x00 := by decide +kernel

/-- P6 step 9. -/
theorem test_readRom : buf (after .readRom (onBus [device addrX spX])) 8 =
    [0x28, 0xFF, 0x4B, 0x46, 0x92, 0x16, 0x04, 0x78] := by decide +kernel

/-- P2: two devices at once give a CRC error and a zeroed buffer; BUF[8] is untouched. -/
theorem test_readRom_two : buf (after .readRom (wr 0x38 0x55 (onBus [device addrA spX, device addrB spX]))) 9 =
    [0, 0, 0, 0, 0, 0, 0, 0, 0x55] := by decide +kernel

/-- V-P1: "raw value 0x0191 = 401". -/
theorem test_decodeTemperature :
    (after .decodeTemperature (wr 0x31 0x01 (wr 0x30 0x91 (onBus [])))).regs.temp.toInt = 401 := by decide +kernel

/-- V-P2. -/
theorem test_decodeTemperature_negative :
    (after .decodeTemperature (wr 0x31 0xFF (wr 0x30 0x5E (onBus [])))).regs.temp.toInt = -162 := by decide +kernel

/-- V-P7: a corrupted ninth byte; TEMP keeps its value. -/
theorem test_readTemperature_corrupt :
    (fun t => (status t, t.regs.temp))
      (after (.readTemperature .skip) (onBus [device addrX (spOf 0x91 0x01 0x4B 0x46 0x7F 0xFF 0x0F 0x10 0x24)])) =
      (0x1B, 0) := by decide +kernel

/-- P2 step 11: one of two devices by its address. -/
theorem test_readTemperature_matched :
    (after (.readTemperature .matched) (wr 0x27 0x29 (wr 0x21 0x01 (wr 0x20 0x28
      (onBus [device addrA (spOf 0x50 0x05 0x4B 0x46 0x7F 0xFF 0x0C 0x10 0x1C), device addrB spX]))))).regs.temp =
      0x0550 := by decide +kernel

/-! The world: conversions, devices, the reset input. -/

/-- The state after one input of the world. -/
def given (x : Input) (s : State) : State :=
  match perform x s with
  | .next t => t
  | .fault _ => s
  | .refused _ => s

/-- A conversion that ends after four of the eight slots of a READ_BYTE: "read slots return 0 while busy and 1 when
done" (20_memory R80, R84). -/
theorem test_conversion_ends_inside :
    (after .readByte (given (.conversionEnds 0 4 0x0550)
      (onBus [{ device addrX spX with busy := true, mode := .convert }]))).readReg 0x04 = 0xF0 := by decide +kernel

/-- A conversion that ends between commands: the reading is in the scratchpad. -/
theorem test_conversion_ends :
    (given (.conversionEnds 0 0 0x0550) (onBus [{ device addrX spX with busy := true }])).env.devices.map
      (fun d => (d.busy, byteAt d.sp 0, byteAt d.sp 1)) = [(false, 0x50, 0x05)] := by decide +kernel

/-- A conversion that starts and ends inside one WRITE_BYTE: four bits of the convert byte 0x44 were written before, the
other four are its low bits, and the end comes two slots later (20_memory R84). -/
theorem test_conversion_within_command :
    (after .writeByte (wr 0x03 0x04 (given (.conversionEnds 0 3 0x0550)
      (onBus [{ device addrX spX with mode := .funcCmd 4 0x04 }])))).env.devices.map
      (fun d => (d.busy, byteAt d.sp 0, byteAt d.sp 1, d.due)) = [(false, 0x50, 0x05, [])] := by decide +kernel

/-- A reset after nine primitives of CONVERT: the history holds its bus reset and its skip byte (42 R173, 70 R310). -/
theorem test_reset_inside : wire (given (.resetInside 0x18 9 false) (onBus [device addrX spX])) =
    [.rst true] ++ sentByte 0xCC ∧
    status (given (.resetInside 0x18 9 false) (onBus [device addrX spX])) = 0x10 := by decide +kernel

/-- Inside the tenth primitive: the mark follows, and the line is unconstrained (70 R311). -/
theorem test_reset_torn : wire (given (.resetInside 0x18 9 true) (onBus [device addrX spX])) =
    [.rst true] ++ sentByte 0xCC ++ [.cut] ∧
    (given (.resetInside 0x18 9 true) (onBus [device addrX spX])).env.oracle = 0x01 := by decide +kernel

/-- A device connected to a line held low, and to a released one (70 R324). -/
theorem test_attach : (given (.attach 2 addrX spX) linesLow).env.oracle = 0x04 ∧
    (given (.attach 1 addrX spX) linesLow).env.oracle = 0x00 := by decide +kernel

/-- Twelve lines: BUSSEL keeps twelve bits, and twelve lines are released at reset (10_state R41). -/
theorem test_wide_lines :
    (fun s => ((wr 0x02 0x1FFF s).readReg 0x02, (wr 0x40 0x0801 s).readReg 0x40, s.readReg 0x0F))
      (State.launch { Params.default with nLines := 12 } (BusEnv.atLaunch Params.default) HostSide.atLaunch) =
      (0xFFF, 0x801, 0xFFF) ∧ { Params.default with nLines := 12 }.wf = true := by decide +kernel

/-! Registers and reset: V-X1 to V-X5. -/

theorem test_registers_reset : (List.range 0x80).all (fun n =>
    State.reset.readReg n == if n = 0x01 then 0x10 else if n = 0x0F then 0xFF else 0x00) = true := by decide +kernel

/-- V-X4: bit 7 of LDISC is not kept; LAST follows VALID. -/
theorem test_ldisc_write : (wr 0x0D 0xFF (onBus [])).readReg 0x0D = 0x7F ∧ status (wr 0x0D 0xFF (onBus [])) = 0x00 := by
  decide +kernel

/-- V-X2: read-only registers ignore writes. -/
theorem test_readOnly : (wr 0x04 0x55 (onBus [])).readReg 0x04 = 0x00 ∧ status (wr 0x01 0xFF (onBus [])) = 0x10 ∧
    (wr 0x0B 3 (onBus [])).readReg 0x0B = 0x00 := by decide +kernel

/-- The memories of the state after reset have their canonical form. -/
theorem test_reset_wf : State.reset.buf.wf = true ∧ State.reset.registry.lines.wf = true ∧
    State.reset.registry.addrs.wf = true ∧ State.reset.buslist.wf = true := by decide +kernel

/-! Witnesses: for each obligation with hypotheses, states and operands that meet them together, at the values
where its clauses meet. -/

/-- One bus, line 0, in the list, and the inputs `xs` to come. -/
def asked (devices : List Device) (xs : List Input) : State :=
  let s := onBus devices
  { s with
    regs := { s.regs with nbus := 1 }
    buslist := [(0, 0x01)]
    host := { s.host with inputs := xs } }

/-- The state after a launch satisfies the invariant. -/
theorem launch_inv (p : Params) (e : BusEnv) (h : HostSide) (hp : p.wf = true) : (State.launch p e h).Inv where
  params := hp
  idle := ⟨rfl, rfl, rfl, rfl⟩
  err := by show (0 : BitVec 3) ≠ 6; decide
  last := by show true = !SearchState.valid { ldisc := 0, prevId := 0 }; decide
  bussel := within_zero p
  dir := within_zero p
  out := within_lineMask p
  strong := within_zero p
  buslist := fun _ => within_zero p
  guardRoom := Nat.zero_le _
  masked := fun hd => absurd rfl hd
  count := Nat.zero_le _
  bufWf := rfl
  linesWf := rfl
  addrsWf := rfl
  buslistWf := rfl

/-- The test states satisfy the invariant. -/
theorem asked_inv (devices : List Device) (xs : List Input) : (asked devices xs).Inv :=
  { launch_inv Params.default { BusEnv.atLaunch Params.default with oracle := 0, devices := devices }
      { HostSide.atLaunch with ie := true, inputs := xs } (by decide) with
    bussel := by show 0x01 < 2 ^ 8; decide
    buslist := fun i => by
      show Store.read [(0, 0x01)] i < 2 ^ 8
      unfold Store.read
      split
      · decide
      · show 0 < 2 ^ 8
        decide
    buslistWf := by show Store.wf [(0, 0x01)] = true; decide }

/-- The list of three buses satisfies it too. -/
theorem threeBuses_inv : threeBuses.Inv :=
  { asked_inv [device addrA 0, { device addrB 0 with line := 2 }] [] with
    buslist := fun i => by
      show Store.read [(0, 0x01), (1, 0x02), (2, 0x04)] i < 2 ^ 8
      simp only [Store.read]
      split
      · decide
      · split
        · decide
        · split <;> decide
    buslistWf := by show Store.wf [(0, 0x01), (1, 0x02), (2, 0x04)] = true; decide }

/-- Device X on line 0, which is selected, alone. -/
theorem alone_X : (asked [device addrX spX] []).Alone (device addrX spX) :=
  ⟨rfl, by decide, by decide, by decide⟩

theorem witness_DecodeEncodeRoundTrip : decode 0x00 = .ok .configureOutput ∧
    decode 0x9E = .ok (.readTemperature .matched) := by decide

/-- One word for each ground of an illegal word, and a value of more than eight bits. -/
theorem witness_IllegalWordsOnlySetErr : ([0x20, 0x0D, 0x88, 0x10D] : List Nat).all (fun v =>
    ((asked [] [.access (.write 0 v)]).seq.idle) && decide ((asked [] [.access (.write 0 v)]).host.inputs =
      .access (.write 0 v) :: [])) = true ∧
    decode (BitVec.ofNat 8 0x20) = .error .zNotClear ∧ decode (BitVec.ofNat 8 0x0D) = .error .reservedOpcode ∧
    decode (BitVec.ofNat 8 0x88) = .error .flagNotAllowed ∧
    decode (BitVec.ofNat 8 0x10D) = .error .reservedOpcode := by decide

theorem witness_StepRunsTheDecodedCommand : (asked [] [.access (.write 0 0x98)]).seq.idle = true ∧
    (asked [] [.access (.write 0 0x98)]).host.inputs = .access (.write 0 0x98) :: [] ∧
    decode (BitVec.ofNat 8 0x98) = .ok (.convert .matched) := by decide

theorem witness_NothingRunsWithoutInput : State.reset.host.inputs = [] := rfl

/-- A state in which a command runs, with an input that is no reset and with a reset; a reset inside WRITE_BIT, which
has one primitive. -/
theorem witness_RunningCommandHoldsTheHost :
    ({ asked [] [.preempt] with seq := { (onBus []).seq with idle := false } } : State).seq.idle = false ∧
    (asked [] [.preempt]).host.inputs = .preempt :: [] ∧ isReset .preempt = false ∧
    (asked [] [.reset]).host.inputs = .reset :: [] ∧
    (asked [] [.resetInside 0x09 0 true]).seq.idle = true ∧
    (asked [] [.resetInside 0x09 0 true]).host.inputs = .resetInside 0x09 0 true :: [] ∧
    ∃ u, step ((asked [] [.resetInside 0x09 0 true]).takeInput [.access (.write 0 (0x09 : Byte).toNat)]) = .next u ∧
      u.env.wire = (asked [] []).env.wire ++ [{ mask := 0x01, slot := .w false }] :=
  ⟨rfl, rfl, rfl, rfl, rfl, rfl, _, rfl, rfl⟩

/-- A reset input in a state with a guard open, and one inside a command. -/
theorem witness_ResetLeavesTheResetValues :
    ({ asked [] [.reset] with guard := { depth := 2, savedIe := true } } : State).host.inputs = .reset :: [] ∧
    (asked [] [.resetInside 0x18 9 false]).host.inputs = .resetInside 0x18 9 false :: [] ∧
    (asked [] [.resetInside 0x18 9 false]).seq.idle = true := ⟨rfl, rfl, rfl⟩

theorem witness_StepKeepsTheInvariant : State.reset.Inv ∧ step State.reset = .next State.reset ∧
    (asked [] [.access (.write 0 0x06)]).Inv :=
  ⟨launch_inv _ _ _ (by decide), rfl, asked_inv _ _⟩

/-- Writable registers at the ends of their ranges. -/
theorem witness_RegisterWriteThenRead (n : Byte) (v : Nat) :
    (asked [] [.access (.write n v), .access (.read n)]).Inv ∧
    (asked [] [.access (.write n v), .access (.read n)]).host.inputs =
      .access (.write n v) :: .access (.read n) :: [] ∧
    [0x02, 0x03, 0x05, 0x08, 0x0C, 0x0D, 0x12, 0x20, 0x38, 0x40, 0x47].all (writableRegister Params.default) = true :=
  ⟨asked_inv _ _, rfl, by decide⟩

/-- LDISC with STATUS, and LDISC and REGIDX with the locations next to those they move. -/
theorem witness_RegisterWriteTouchesOneCell : (asked [] []).Inv ∧
    ([(0x0D, 0x01), (0x0D, 0x00), (0x0D, 0x02), (0x12, 0x14), (0x12, 0x17), (0x12, 0x20), (0x7F, 0x00), (0x01, 0x7F)] :
      List (Nat × Nat)).all (fun x =>
        decide (x.1 ≠ 0 ∧ x.2 ≠ x.1 ∧ x.1 < 0x80 ∧ x.2 < 0x80 ∧
          ¬(x.1 = 0x12 ∧ (x.2 = 0x13 ∨ (0x18 ≤ x.2 ∧ x.2 ≤ 0x1F))))) = true :=
  ⟨asked_inv _ _, by decide⟩

/-- Read-only STATUS, the reserved 0x7F, a bus beyond the list, and LDISC. -/
theorem witness_ReadOnlyLocationsIgnoreWrites (n : Byte) (v : Nat) : (asked [] [.access (.write n v)]).seq.idle = true ∧
    (asked [] [.access (.write n v)]).host.inputs = .access (.write n v) :: [] ∧
    ([0x01, 0x04, 0x39, 0x48, 0x7F] : List Byte).all (fun n =>
      decide (n ≠ 0 ∧ n.toNat < 0x80) && !writableRegister Params.default n.toNat) = true ∧
    (0x0D : Byte) ≠ 0 ∧ (0x0D : Byte).toNat < 0x80 :=
  ⟨rfl, rfl, by decide, by decide, by decide⟩

/-- 0x7F is the last register, 0x80 is none. -/
theorem witness_RegistersAbove7FDoNotExist (n : Byte) (v : Nat) : (asked [] [.access (.read n)]).seq.idle = true ∧
    (asked [] [.access (.read n)]).host.inputs = .access (.read n) :: [] ∧
    (asked [] [.access (.write n v)]).host.inputs = .access (.write n v) :: [] ∧
    0x80 ≤ (0x80 : Byte).toNat ∧ (0x7F : Byte).toNat < 0x80 :=
  ⟨rfl, rfl, rfl, by decide, by decide⟩

/-- REGIDX at the last entry and one beyond. -/
theorem witness_RegistryWindow :
    (wr 0x12 7 (onBus [])).regs.regidx.toNat < (wr 0x12 7 (onBus [])).params.registryCapacity ∧
    (wr 0x12 8 (onBus [])).params.registryCapacity ≤ (wr 0x12 8 (onBus [])).regs.regidx.toNat := by decide

/-- Line 0 is selected, line 1 is not. -/
theorem witness_ConfigureDirection : (onBus []).regs.bussel.testBit 0 = true := by decide
theorem witness_DriveLatches : (onBus []).regs.bussel.testBit 0 = true ∧
    (onBus []).regs.bussel.testBit 1 = false := by decide

/-- The empty mask; a selected line that the host drives low. -/
theorem witness_ReadLevelSamplesTheSelectedLines : State.reset.regs.bussel = 0 ∧
    linesLow.regs.bussel.testBit 2 = true ∧ linesLow.lines.drv 2 = .low := by decide

/-- The six cases of a line's level, and a line with and without a device on it. -/
theorem witness_LineLevelRule :
    linesLow.lines.drv 0 = .low ∧ (onBus []).lines.drv 0 = .rel ∧
    (onBus [device addrX 0]).env.pulled .presence 0 = true ∧ (onBus []).env.pulled .presence 0 = false ∧
    (onBus []).env.pullup.testBit 0 = true ∧ ({ BusEnv.atLaunch Params.default with pullup := 0 } : BusEnv).pullup.testBit 0 = false ∧
    ({ BusEnv.atLaunch Params.default with pullup := 0, oracle := 0 } : BusEnv).pulled .slot 0 = false ∧
    ((onBus []).lines.drive 0x01 .high).drv 0 = .high ∧ (onBus []).env.oracle.testBit 0 = false := by decide

/-- DEPTH 5 leaves room for one more, DEPTH 6 does not (GUARD_MAX = 7). -/
theorem witness_GuardEnterEffect : (5 : BitVec 3).toNat < Params.default.guardMax - 1 ∧
    Params.default.guardMax - 1 ≤ (6 : BitVec 3).toNat := by decide

theorem witness_GuardExitEffect : (after .guardEnter (onBus [])).guard.depth = 1 ∧ (onBus []).guard.depth = 0 := by
  decide

/-- From no guard, and from one open guard. -/
theorem witness_GuardPairRestores : (onBus []).params.guardMax ≤ 7 ∧
    (onBus []).guard.depth.toNat < (onBus []).params.guardMax - 1 ∧
    (after .guardEnter (onBus [])).guard.depth.toNat < (onBus []).params.guardMax - 1 ∧
    (after .guardEnter (onBus [])).guard.depth ≠ 0 ∧ (after .guardEnter (onBus [])).host.ie = false := by decide

/-- With one guard open. -/
theorem witness_openGuard (x : Input) :
    ({ asked [] [x] with
        guard := { depth := 1, savedIe := true }
        host := { ie := false, inputs := [x], rdata := 0 } } : State).Inv :=
  { asked_inv [] [x] with
    guardRoom := by show (1 : BitVec 3).toNat ≤ Params.default.guardMax - 1; decide
    masked := fun _ => rfl }

/-- From no guard, and from an open one in a state of the invariant. -/
theorem witness_CommandsKeepTheGuard : Instr.reset ≠ .guardEnter ∧ Instr.reset ≠ .guardExit ∧
    exec .reset (onBus []) = .next (after .reset (onBus [])) ∧ (onBus []).guard.depth = 0 ∧
    ∃ s : State, s.Inv ∧ s.guard.depth ≠ 0 ∧ exec .reset s = .next (after .reset s) :=
  ⟨by decide, by decide, rfl, rfl, _, witness_openGuard .preempt, by decide, rfl⟩

/-- With no guard open, HOST_IE = 1; and with one open. -/
theorem witness_GuardExcludesTheCollaborator : (asked [] [.setHostIe false]).Inv ∧ (asked [] [.preempt]).Inv ∧
    (asked [] [.setHostIe false]).host.inputs = .setHostIe false :: [] ∧
    (asked [] [.preempt]).host.inputs = .preempt :: [] ∧ (asked [] []).guard.depth = 0 ∧
    (asked [] []).host.ie = true := ⟨asked_inv _ _, asked_inv _ _, rfl, rfl, rfl, rfl⟩

theorem witness_ResetSamplesPresence : State.reset.regs.bussel = 0 ∧ (onBus []).presence = false ∧
    (onBus [device addrX 0]).presence = true := by decide +kernel

theorem witness_BusCommandsReleaseTheLines : releasesLines .reset = true ∧ releasesLines (.readTemperature .skip) = true ∧
    (onBus []).regs.bussel.testBit 0 = true ∧ (onBus []).regs.bussel.testBit 7 = false := by decide

theorem witness_SlotPhasesSumToTheSlot : Params.default.timesWf = true := by decide

theorem witness_DurationsOfTransactions : (onBus [device addrX spX]).params = Params.default ∧
    (onBus [device addrX spX]).presence = true ∧ (after .searchPass (onBus [device addrX spX])).status.err = 0 := by
  decide +kernel

/-- LEN at 9 and at 10. -/
theorem witness_CrcCommandResult : (wr 0x05 9 crcBuf).regs.len.toNat ≤ 9 ∧ 9 < (wr 0x05 10 crcBuf).regs.len.toNat := by
  decide
theorem witness_ValidateResult : (wr 0x05 9 crcBuf).regs.len.toNat ≤ 9 ∧ 9 < (wr 0x05 10 crcBuf).regs.len.toNat := by
  decide

theorem witness_CrcLaws : crc8 0 ([0x02, 0x1C, 0xB8, 0x01, 0x00, 0x00, 0x00] ++ [0xA2]) = 0 := by decide +kernel

/-- LD at position 8: before, at and after it; no LD; the last position. -/
theorem witness_CollisionChoice : SearchState.valid { ldisc := 0x48, prevId := addrB } = true ∧
    7 < SearchState.discPos { ldisc := 0x48, prevId := addrB } ∧
    8 = SearchState.discPos { ldisc := 0x48, prevId := addrB } ∧
    SearchState.discPos { ldisc := 0x48, prevId := addrB } < 9 ∧
    SearchState.valid { ldisc := 0x00, prevId := addrB } = false ∧ 63 < 64 := by decide

/-- No device; Ok; and CommError: with no search command sent the device stays silent and both reads give 1. -/
theorem witness_SearchPassOutcomes : (onBus []).presence = false ∧
    (after .searchPass (onBus [])).status.err = 1 ∧
    (after .searchPass (onBus [device addrX 0])).status.err = 0 ∧
    (after .searchPass { onBus [device addrX 0] with
      params := { Params.default with searchSendsCommand := false } }).status.err = 2 := by decide +kernel

theorem witness_SearchPassSlotCounts :
    exec .searchPass (onBus [device addrX 0]) = .next (after .searchPass (onBus [device addrX 0])) ∧
    (after .searchPass (onBus [device addrX 0])).status.err = 0 := ⟨rfl, by decide +kernel⟩

theorem witness_LoneDevicePass : (asked [device addrX spX] []).Alone (device addrX spX) ∧
    (asked [device addrX spX] []).regs.bussel = 2 ^ (device addrX spX).line ∧
    Params.default.searchSendsCommand = true ∧
    (device addrX spX).romFunction Params.default Params.default.cmdSearchRom = .search 0 0 :=
  ⟨alone_X, by decide, rfl, by decide⟩

/-- NBUS at 9 with MAX_BUSES = 8, and NBUS = 0. -/
theorem witness_DiscoverOperandCheck : Params.default.maxBuses < (wr 0x0C 9 (onBus [])).regs.nbus.toNat ∧
    (onBus []).regs.nbus = 0 := by decide

theorem witness_DiscoverRegistryIsClean : (asked [device addrX 0] []).Inv ∧
    exec .discover (asked [device addrX 0] []) = .next (after .discover (asked [device addrX 0] [])) ∧
    (after .discover (asked [device addrX 0] [])).status.err = 0 ∧
    0 < (after .discover (asked [device addrX 0] [])).registry.count.toNat :=
  ⟨asked_inv _ _, rfl, by decide +kernel, by decide +kernel⟩

/-- A legal list, a failed DISCOVER (an address whose last byte is wrong), one that ends Ok, and a line on and off the
listed bus; and a list of three buses that ends Ok with an entry at COUNT left and two registered (V-D2). -/
theorem witness_DiscoverOutcomesAndFrame : (asked [device (addrX ^^^ 1) 0] []).Inv ∧
    (asked [device (addrX ^^^ 1) 0] []).regs.nbus.toNat ≤ (asked [device (addrX ^^^ 1) 0] []).params.maxBuses ∧
    (after .discover (asked [device (addrX ^^^ 1) 0] [])).status.err ≠ 0 ∧
    (after .discover (asked [device addrX 0] [])).status.err = 0 ∧
    ((asked [] []).buslist.read 0).testBit 0 = true ∧ ((asked [] []).buslist.read 0).testBit 1 = false ∧
    threeBuses.Inv ∧ 0 < threeBuses.regs.nbus.toNat ∧ threeBuses.regs.nbus.toNat ≤ threeBuses.params.maxBuses ∧
    (after .discover threeBuses).status.err = 0 ∧ (after .discover threeBuses).registry.count.toNat = 2 :=
  ⟨asked_inv _ _, by decide, by decide +kernel, by decide +kernel, by decide, by decide, threeBuses_inv, by decide,
    by decide, by decide +kernel, by decide +kernel⟩

theorem witness_DiscoverPassBound : exec .discover (asked [] []) = .next (after .discover (asked [] [])) := rfl

theorem witness_DiscoverOfEmptyBuses : (asked [] []).env.devices = [] ∧ (asked [] []).env.oracle = 0 ∧
    (asked [] []).env.pullup = (asked [] []).params.lineMask ∧ (asked [] []).regs.nbus.toNat ≤ (asked [] []).params.maxBuses ∧
    0 < (asked [] []).regs.nbus.toNat := by decide

theorem witness_LoneDeviceDiscovery : (asked [device addrX spX] []).Inv ∧
    (asked [device addrX spX] []).Alone (device addrX spX) ∧ (asked [device addrX spX] []).regs.nbus = 1 ∧
    (asked [device addrX spX] []).buslist.read 0 = 2 ^ (device addrX spX).line ∧
    Params.default.searchSendsCommand = true ∧
    (device addrX spX).romFunction Params.default Params.default.cmdSearchRom = .search 0 0 ∧
    crc8 Params.default.crcInit (addrBytes addrX 7) = byteAt addrX 7 :=
  ⟨asked_inv _ _, alone_X, rfl, by decide, rfl, by decide, by decide +kernel⟩

/-- Devices A and B on line 0. -/
theorem witness_DiscoverFindsEveryDevice : (asked [device addrA 0, device addrB 0] []).Inv ∧ 0 < 8 ∧
    (fun s : State => s.env.oracle.testBit 0 = false ∧ s.env.pullup.testBit 0 = true ∧ s.regs.nbus = 1 ∧
      s.buslist.read 0 = 2 ^ 0 ∧ s.params.searchSendsCommand = true ∧ s.env.devices ≠ [] ∧
      s.env.devices.length ≤ s.params.registryCapacity ∧ (s.env.devices.map fun d => d.addr).Nodup ∧
      ∀ d, d ∈ s.env.devices → d.line = 0 ∧ d.romFunction s.params s.params.cmdSearchRom = .search 0 0 ∧
        crc8 s.params.crcInit (addrBytes d.addr 7) = byteAt d.addr 7)
      (asked [device addrA 0, device addrB 0] []) :=
  ⟨asked_inv _ _, by decide, by decide +kernel⟩

/-- A device answers the reset, or none does: the hypothesis of the transactions, and of their short circuit. -/
theorem witness_ConvertTransaction : (onBus [device addrX spX]).presence = true := by decide +kernel
theorem witness_WriteScratchpadTransaction : (onBus [device addrX spX]).presence = true := by decide +kernel
theorem witness_CopyScratchpadHoldsTheLinesHigh : (onBus [device addrX spX]).presence = true ∧
    (onBus [device addrX spX]).regs.bussel.testBit 0 = true := by decide +kernel
theorem witness_AbsentDeviceShortCircuits : (onBus []).presence = false := by decide +kernel

theorem witness_ReadScratchpadOutcome : (onBus [device addrX spX]).presence = true ∧
    (onBus [device addrX spX]).buf.wf = true := by decide +kernel
theorem witness_ReadRomOutcome : (onBus [device addrX spX]).presence = true ∧
    (onBus [device addrX spX]).buf.wf = true := by decide +kernel
theorem witness_ReadTemperatureOutcome : (onBus [device addrX spX]).presence = true ∧
    (onBus [device addrX spX]).buf.wf = true := by decide +kernel

/-- All three outcomes of a reception: Ok, CRCError (V-P7), PullupMissing (a device that sends nine zeros). -/
theorem witness_receptionOutcomes :
    (after (.readScratchpad .skip) (onBus [device addrX spX])).status.err = 0 ∧
    (after (.readScratchpad .skip) (onBus [device addrX (spX ^^^ 1)])).status.err = 3 ∧
    (after (.readScratchpad .skip) (onBus [device addrX 0])).status.err = 4 := by decide +kernel

/-- One state and device for all the hypotheses, with the device's own address in ADDR, so for both addressings. -/
theorem witness_LoneDeviceTemperature : (fun (s : State) (d : Device) =>
    s.buf.wf = true ∧ s.Alone d ∧ (d.busy = true → d.due = []) ∧ s.regs.bussel = 2 ^ d.line ∧
      s.params.cmdReadScratchpad ≠ s.params.cmdConvertT ∧
      (Addressing.matched = .matched → s.regs.addr = d.addr ∧ s.params.cmdMatchRom ≠ s.params.cmdSkipRom) ∧
      scratchpadCrc s.params.crcInit d.sp = byteAt d.sp 8 ∧ d.sp ≠ 0)
      { onBus [device addrX spX] with regs := { (onBus [device addrX spX]).regs with addr := addrX } }
      (device addrX spX) :=
  ⟨rfl, ⟨rfl, by decide, by decide, by decide⟩, fun _ => rfl, by decide, by decide, fun _ => ⟨rfl, by decide⟩,
    by decide +kernel, by decide⟩

theorem witness_LoneDeviceRom : (asked [device addrX spX] []).buf.wf = true ∧
    (asked [device addrX spX] []).Alone (device addrX spX) ∧
    (asked [device addrX spX] []).regs.bussel = 2 ^ (device addrX spX).line ∧
    (device addrX spX).romFunction Params.default Params.default.cmdReadRom = .send (addrX.setWidth 72) 64 ∧
    crc8 Params.default.crcInit (addrBytes addrX 7) = byteAt addrX 7 :=
  ⟨rfl, alone_X, by decide, by decide, by decide +kernel⟩

/-- A command that writes nothing of BUF, and one that writes nothing but RXD. -/
theorem witness_CommandFrame : exec .crc8 (onBus []) = .next (after .crc8 (onBus [])) ∧
    (resultsOf .crc8).buf = false ∧ (resultsOf .crc8).lines = false ∧ (resultsOf .reset).rxd = false ∧
    exec .reset (onBus []) = .next (after .reset (onBus [])) := ⟨rfl, rfl, rfl, rfl, rfl⟩

end Sys2Proof.Tests
end

/-! Family 10_state, 1: the next input. What a step does with the first pending input (log 1), and that a command
word always runs to a next state (46 R350). -/

namespace Sys2Proof.Machine

@[simp] theorem State.takeInput_takeInput (s : State) (xs ys : List Input) :
    (s.takeInput xs).takeInput ys = s.takeInput ys := rfl

/-- Between commands every input of the world has its move. -/
theorem step_of_idle {s : State} {x : Input} {rest : List Input} (hidle : s.seq.idle = true)
    (hin : s.host.inputs = x :: rest) : step s = perform x (s.takeInput rest) := by
  simp [step, nextInput, hin, hidle]

/-- The reset input has a move also while a command runs (70 R310). -/
theorem step_of_reset {s : State} {rest : List Input} (hin : s.host.inputs = .reset :: rest) :
    step s = .next (s.takeInput rest).blockReset := by
  simp [step, nextInput, hin, isReset, perform]

/-- While a command runs no other input has one (70 R320; log 22). -/
theorem step_of_busy {s : State} {x : Input} {rest : List Input} (hbusy : s.seq.idle = false)
    (hin : s.host.inputs = x :: rest) (hx : isReset x = false) : step s = .refused .sequencerBusy := by
  simp [step, nextInput, hin, hbusy, hx]

/-- The host's write to CMD runs the low byte of its value as a command word (46 R350; log 4). -/
theorem step_writeCmd {s : State} {v : Nat} {rest : List Input} (hidle : s.seq.idle = true)
    (hin : s.host.inputs = .access (.write 0 v) :: rest) :
    step s = runWord (BitVec.ofNat 8 v) (s.takeInput rest) :=
  step_of_idle hidle hin

/-- The host's write to another location that exists. -/
theorem step_writeReg {s : State} {n : Byte} {v : Nat} {rest : List Input} (hidle : s.seq.idle = true)
    (hin : s.host.inputs = .access (.write n v) :: rest) (hn : n ≠ 0) (hlt : n.toNat < 0x80) :
    step s = .next ((s.takeInput rest).writeReg n.toNat v) := by
  rw [step_of_idle hidle hin]
  simp only [perform, hostAccess, if_neg hn, if_pos hlt]

theorem runWord_of_decode {w : Byte} {i : Instr} (h : decode w = .ok i) (s : State) : runWord w s = exec i s := by
  simp only [runWord, h]

/-- Every command, and so every command word, an illegal one included, runs to a next state (46 R350). -/
theorem exec_next (i : Instr) (s : State) : ∃ t, exec i s = .next t := by
  cases i <;> exact ⟨_, rfl⟩

theorem runWord_next (w : Byte) (s : State) : ∃ t, runWord w s = .next t := by
  cases h : decode w with
  | ok i => simpa only [runWord_of_decode h] using exec_next i s
  | error e =>
    simp only [runWord, h]
    exact ⟨_, rfl⟩

end Sys2Proof.Machine

/-! Family 10_state, 2: the reset input, between commands and inside one (10_state R48, 70 R310, R311; log 13). -/

namespace Sys2Proof.Machine

/-! The primitives a reset inside a command leaves. Throughout `s` is where the command began, `t` where it would
have ended, and `tr` are the events it would have put on the wire. -/

section
variable {s t : State} {tr : List WireEvent} (hw : t.env.wire = s.env.wire ++ tr) (k : Nat)
include hw

theorem nextMask_eq : nextMask k s t = tr[k]?.map fun x => x.mask := by
  rw [nextMask, hw, List.drop_left]

/-- The command has more than `k` primitives: the first `k` of them were heard. -/
theorem cutShort_of_lt (hk : k < tr.length) : cutShort k s t = s.env.replay s.params (tr.take k) := by
  simp only [cutShort, hw, List.drop_left, if_pos hk]

/-- It has no more than `k`: all it did stays. -/
theorem cutShort_of_le (hk : tr.length ≤ k) : cutShort k s t = t.env := by
  simp only [cutShort, hw, List.drop_left, if_neg (Nat.not_lt.mpr hk)]

end

/-- A reset between two primitives, or after the last: HOST_IE is what the command restores (41 R153). -/
theorem resetAfter_between {s t : State} {k : Nat} {torn : Bool} (h : torn = false ∨ nextMask k s t = none) :
    resetAfter k torn s t = State.launch s.params (cutShort k s t) { s.host with ie := t.host.ie } := by
  rcases h with rfl | h
  · rfl
  · cases torn <;> simp only [resetAfter, h]

/-- A reset inside a primitive on the lines `m` (70 R311, 93 U25). -/
theorem resetAfter_torn {s t : State} {k : Nat} {m : BusLine} (h : nextMask k s t = some m) :
    resetAfter k true s t =
      State.launch s.params (((cutShort k s t).disturb m).hear s.params { mask := m, slot := .cut })
        { s.host with ie := Config.drawIe (cutShort k s t).samples } := by
  simp only [resetAfter, h]

/-- A reset inside a command launches the block again, with HOST_IE and the bus as log 13 says. -/
theorem resetAfter_eq_launch (k : Nat) (torn : Bool) (s t : State) :
    ∃ e b, resetAfter k torn s t = State.launch s.params e { s.host with ie := b } := by
  unfold resetAfter
  split <;> exact ⟨_, _, rfl⟩

/-- The step of a reset inside the command of the word `w`, which would have ended in `u`. -/
theorem step_resetInside {s u : State} {w : Byte} {k : Nat} {torn : Bool} {rest : List Input}
    (hidle : s.seq.idle = true) (hin : s.host.inputs = .resetInside w k torn :: rest)
    (hu : runWord w (s.takeInput rest) = .next u) : step s = .next (resetAfter k torn (s.takeInput rest) u) := by
  rw [step_of_idle hidle hin]
  simp only [perform, resetInside, hu]

/-- The reset input, whenever it comes, launches the block again (70 R310). -/
theorem step_anyReset {s : State} {x : Input} {rest : List Input} (hin : s.host.inputs = x :: rest)
    (hx : x = .reset ∨ (s.seq.idle = true ∧ ∃ w k torn, x = .resetInside w k torn)) :
    ∃ e b, step s = .next (State.launch s.params e { s.host with inputs := rest, ie := b }) ∧
      (x = .reset → b = s.host.ie ∧ e = s.env) := by
  rcases hx with rfl | ⟨hidle, w, k, torn, rfl⟩
  · exact ⟨_, _, step_of_reset hin, fun _ => ⟨rfl, rfl⟩⟩
  · obtain ⟨u, hu⟩ := runWord_next w (s.takeInput rest)
    obtain ⟨e, b, hr⟩ := resetAfter_eq_launch k torn (s.takeInput rest) u
    exact ⟨e, b, (step_resetInside hidle hin hu).trans (congrArg _ hr), nofun⟩

/-! What the launched block reads (10_state R48). -/

section
variable (p : Params) (e : BusEnv) (h : HostSide)

@[simp] theorem State.launch_params : (State.launch p e h).params = p := rfl
@[simp] theorem State.launch_seq : (State.launch p e h).seq = Seq.ended 0 := rfl
@[simp] theorem State.launch_regs : (State.launch p e h).regs =
    { txd := 0, rxd := 0, argTh := 0, argTl := 0, argCfg := 0, addr := 0, temp := 0, bussel := 0,
      regidx := 0, len := 0, nbus := 0 } := rfl
@[simp] theorem State.launch_status : (State.launch p e h).status = { err := 0, pres := false, last := true } := rfl
@[simp] theorem State.launch_search : (State.launch p e h).search = { ldisc := 0, prevId := 0 } := rfl
@[simp] theorem State.launch_lines : (State.launch p e h).lines = { dir := 0, out := p.lineMask, strong := 0 } := rfl
@[simp] theorem State.launch_guard : (State.launch p e h).guard = { depth := 0, savedIe := false } := rfl
@[simp] theorem State.launch_registry : (State.launch p e h).registry = { count := 0, lines := [], addrs := [] } := rfl
@[simp] theorem State.launch_buf : (State.launch p e h).buf = [] := rfl
@[simp] theorem State.launch_buslist : (State.launch p e h).buslist = [] := rfl
@[simp] theorem State.launch_env : (State.launch p e h).env = e := rfl
@[simp] theorem State.launch_host : (State.launch p e h).host = h := rfl

@[simp] theorem Store.read_nil {α : Type} [OfNat α 0] (i : Nat) : Store.read ([] : Store α) i = 0 := rfl

@[simp] theorem Registry.lineOf_nil (c : Byte) (a : Memory) (j : Nat) :
    Registry.lineOf { count := c, lines := [], addrs := a } j = 0 := rfl
@[simp] theorem Registry.addrByte_nil (c : Byte) (l : LineStore) (j i : Nat) :
    Registry.addrByte { count := c, lines := l, addrs := [] } j i = 0 := rfl

@[simp] theorem byteAt_zero (w i : Nat) : byteAt (0#w) i = 0#8 := by
  simp [byteAt]

/-- STATUS after reset has LAST alone (10_state R36, R48). -/
@[simp] theorem State.launch_statusByte : (State.launch p e h).statusByte = 0x10 := by
  simp [State.statusByte, State.busy, State.grd, State.spu, Seq.ended]

@[simp] theorem State.launch_guardByte : (State.launch p e h).guardByte = 0 := by
  simp [State.guardByte]

/-- Every line is released. -/
@[simp] theorem State.launch_drv (l : Nat) : (State.launch p e h).lines.drv l = .rel := by
  simp [Lines.drv]

/-- Every register location after reset: LAST in STATUS, OUT of all lines high, 0 elsewhere. -/
theorem State.launch_readReg (n : Nat) : (State.launch p e h).readReg n =
    if n = 0x01 then 0x10 else if n = 0x0F then p.lineMask else 0 := by
  unfold State.readReg
  split
  case h_21 =>
    rw [if_neg ‹n = 0x01 → False›, if_neg ‹n = 0x0F → False›]
    split_ifs <;> simp
  all_goals simp

end

/-- Settles O7: the block is launched again, whatever the rest of the world holds. -/
theorem resetLeavesTheResetValues : Obligations.ResetLeavesTheResetValues := by
  intro s x rest hin hx
  obtain ⟨e, b, hstep, hkept⟩ := step_anyReset hin hx
  exact ⟨_, hstep, fun n _ => State.launch_readReg _ _ _ n, rfl, State.launch_drv _ _ _, rfl, rfl, rfl,
    fun _ _ => ⟨rfl, rfl⟩, fun _ => ⟨rfl, rfl⟩, rfl, rfl, hkept⟩

/-- Settles O6: a running command holds every input but the reset, and a reset inside a command keeps the events of
its first primitives. -/
theorem runningCommandHoldsTheHost : Obligations.RunningCommandHoldsTheHost := by
  refine ⟨fun s x rest hbusy hin => ⟨step_of_busy hbusy hin, ?_⟩, ?_⟩
  · rintro rfl
    exact ⟨_, step_of_reset hin, rfl⟩
  · intro s u w k torn rest tr hidle hin hu hw
    rw [step_writeCmd (s := s.takeInput (.access (.write 0 w.toNat) :: rest)) hidle rfl, BitVec.ofNat_toNat,
      BitVec.setWidth_eq, State.takeInput_takeInput] at hu
    have hw' : u.env.wire = (s.takeInput rest).env.wire ++ tr := hw
    refine ⟨_, _, step_resetInside hidle hin hu, step_of_reset (s := s.takeInput (.reset :: rest)) rfl, ?_, ?_, ?_, ?_⟩
    · obtain ⟨e, b, hlaunch⟩ := resetAfter_eq_launch k torn (s.takeInput rest) u
      rw [hlaunch]
      rfl
    · intro hk
      rw [resetAfter_between (.inr (by simp [nextMask_eq hw', hk])), cutShort_of_le hw' k hk]
      exact ⟨rfl, rfl⟩
    · intro hk htorn
      rw [resetAfter_between (.inl htorn), cutShort_of_lt hw' k hk]
      exact ⟨rfl, rfl⟩
    · rintro x hx rfl
      have hk : k < tr.length := (List.getElem?_eq_some_iff.mp hx).1
      rw [resetAfter_torn (m := x.mask) (by simp [nextMask_eq hw', hx]), cutShort_of_lt hw' k hk]
      exact ⟨rfl, rfl⟩

/-- The empty mask selects only lines that exist. -/
theorem BusLine.within_zero (p : Params) : BusLine.within p 0 := Nat.two_pow_pos _

/-- So does the mask of all lines. -/
theorem BusLine.within_lineMask (p : Params) : BusLine.within p p.lineMask :=
  Nat.sub_lt (Nat.two_pow_pos _) Nat.one_pos

/-- The launched block meets the invariant for all parameters in range, on any bus and with any host. -/
theorem State.launch_inv {p : Params} (hp : p.wf = true) (e : BusEnv) (h : HostSide) : (State.launch p e h).Inv where
  params := hp
  idle := ⟨rfl, rfl, rfl, rfl⟩
  err := by simp
  last := by simp [SearchState.valid]
  bussel := BusLine.within_zero p
  dir := BusLine.within_zero p
  out := BusLine.within_lineMask p
  strong := BusLine.within_zero p
  buslist := fun _ => BusLine.within_zero p
  guardRoom := Nat.zero_le _
  masked := fun hopen => absurd rfl hopen
  count := Nat.zero_le _
  bufWf := rfl
  linesWf := rfl
  addrsWf := rfl
  buslistWf := rfl

/-- Settles O8: the default parameters are in range, and a launched block has no guard open. -/
theorem resetStateIsSafe : Obligations.ResetStateIsSafe :=
  ⟨State.launch_inv (by decide) _ _, rfl⟩

end Sys2Proof.Machine

/-! Family 10_state, 3: STATUS and the register space (10_state R36, R40, R41). -/

namespace Sys2Proof.Machine

/-- A line is driven actively high exactly when its three latches are 1 (10_state R42). -/
theorem Lines.drv_eq_high_iff (ln : Lines) (l : Nat) :
    ln.drv l = .high ↔ (ln.dir &&& ln.out &&& ln.strong).testBit l = true := by
  rw [Lines.drv, Nat.testBit_and, Nat.testBit_and]
  cases ln.dir.testBit l <;> cases ln.out.testBit l <;> cases ln.strong.testBit l <;> decide

/-- SPU: some line is driven actively high (10_state R36). -/
theorem State.spu_iff (s : State) : s.spu = true ↔ ∃ l, s.lines.drv l = .high := by
  simp only [State.spu, decide_eq_true_eq, Lines.drv_eq_high_iff]
  constructor
  · exact Nat.exists_testBit_of_ne_zero
  · rintro ⟨l, hl⟩ h0
    simp [h0] at hl

/-- STATUS bit by bit (10_state R36). -/
theorem State.statusByte_testBit (s : State) :
    s.statusByte.toNat.testBit 3 = s.status.pres ∧ s.statusByte.toNat.testBit 4 = s.status.last ∧
    s.statusByte.toNat.testBit 5 = s.spu ∧ s.statusByte.toNat.testBit 6 = s.grd ∧
    s.statusByte.toNat.testBit 7 = s.busy := by
  simp only [BitVec.testBit_toNat, State.statusByte, BitVec.getLsbD_append]
  simp

/-- ERR is bits 2:0 of STATUS (10_state R36). -/
theorem State.statusByte_mod_eight (s : State) : s.statusByte.toNat % 8 = s.status.err.toNat := by
  have h : s.statusByte.setWidth 3 = s.status.err := BitVec.setWidth_append_eq_right
  rw [← h, BitVec.toNat_setWidth]

/-- Settles O15: bit by bit, with SPU as the line drivers give it. -/
theorem statusByteFields : Obligations.StatusByteFields := by
  intro s
  obtain ⟨hpres, hlast, hspu, hgrd, hbusy⟩ := s.statusByte_testBit
  refine ⟨s.statusByte.isLt, s.statusByte_mod_eight, hpres, hlast, ?_, ?_, ?_⟩
  · exact hspu ▸ s.spu_iff
  · simp [State.readReg, hgrd, State.grd]
  · simp [State.readReg, hbusy, State.busy]

/-- A read-only or reserved location ignores a write (10_state R41). -/
theorem State.writeReg_of_not_writable (s : State) {n : Nat} (v : Nat) (hlt : n < 0x80)
    (hro : writableRegister s.params n = false) : s.writeReg n v = s := by
  simp only [writableRegister, Bool.or_eq_false_iff, decide_eq_false_iff_not] at hro
  obtain ⟨⟨hcell, hbytes⟩, hlist⟩ := hro
  have haddr : ¬(0x20 ≤ n ∧ n ≤ 0x27) := by omega
  have hprevId : ¬(0x28 ≤ n ∧ n ≤ 0x2F) := by omega
  have hbuf : ¬(0x30 ≤ n ∧ n ≤ 0x38) := by omega
  have hbus : ¬(0x40 ≤ n ∧ n < 0x40 + s.params.maxBuses) := fun ⟨hlo, hhi⟩ => hlist ⟨hlo, hhi, hlt⟩
  unfold State.writeReg
  split
  case h_10 => rw [if_neg haddr, if_neg hprevId, if_neg hbuf, if_neg hbus]
  all_goals exact absurd hcell (by decide)

/-- Settles O12: such a location has no branch of `writeReg`, and the branch of LDISC sets LAST. -/
theorem readOnlyLocationsIgnoreWrites : Obligations.ReadOnlyLocationsIgnoreWrites := by
  intro s n v rest hidle hin hn hlt
  refine ⟨_, step_writeReg hidle hin hn hlt, fun hro => State.writeReg_of_not_writable _ v hlt hro, ?_⟩
  rintro rfl
  rfl

end Sys2Proof.Machine

/-! Family 10_state, 4: what a step runs (10_state R34, R44, 41 R155). -/

namespace Sys2Proof.Machine

/-- Settles O4: the write to CMD is taken from the queue and its word decoded. -/
theorem stepRunsTheDecodedCommand : Obligations.StepRunsTheDecodedCommand := by
  constructor
  · intro s v rest i hidle hin hdec
    exact (step_writeCmd hidle hin).trans (runWord_of_decode hdec _)
  · intro s w i hdec
    rw [State.withFetchWord, Nat.mod_eq_of_lt w.isLt, BitVec.ofNat_toNat, BitVec.setWidth_eq,
      step_writeCmd rfl rfl, BitVec.ofNat_toNat, BitVec.setWidth_eq, runWord_of_decode hdec]
    rfl

/-- Settles O24: the invariant keeps HOST_IE at 0 inside a guard, so the two clauses of the collaborator exclude each
other. -/
theorem guardExcludesTheCollaborator : Obligations.GuardExcludesTheCollaborator := by
  intro s rest hinv
  have hidle : s.seq.idle = true := hinv.idle.1
  refine ⟨fun b hin => ?_, fun hin => ?_⟩ <;> rw [step_of_idle hidle hin]
  · exact ⟨fun h => if_pos h, fun h => if_neg h⟩
  · refine ⟨fun hie => if_pos hie, fun hopen => if_neg ?_⟩
    simp [hinv.masked hopen]

end Sys2Proof.Machine

/-! Family 20_memory: the registry window (20_memory R64) and the level of a line (20_memory R72, R84). -/

namespace Sys2Proof.Machine

/-- The window's line location (20_memory R64). -/
theorem State.readReg_windowLine (s : State) : s.readReg 0x13 =
    if s.regs.regidx.toNat < s.params.registryCapacity then s.registry.lineOf s.regs.regidx.toNat else 0 := rfl

/-- The window's address locations (20_memory R64). -/
theorem State.readReg_windowAddr (s : State) {i : Nat} (hi : i < 8) : s.readReg (0x18 + i) =
    if s.regs.regidx.toNat < s.params.registryCapacity then
      (s.registry.addrByte s.regs.regidx.toNat i).toNat else 0 := by
  unfold State.readReg
  split
  case h_21 => rw [if_pos (by omega), Nat.add_sub_cancel_left]
  all_goals omega

/-- Settles O14: both kinds of window location test REGIDX against the capacity. -/
theorem registryWindow : Obligations.RegistryWindow := by
  intro s i hi
  rw [s.readReg_windowLine, s.readReg_windowAddr hi]
  constructor
  · intro hin
    exact ⟨if_pos hin, if_pos hin⟩
  · intro hout
    exact ⟨if_neg (Nat.not_lt.mpr hout), if_neg (Nat.not_lt.mpr hout)⟩

/-! `level(l)` for each driver state (20_memory R72). -/

section
variable (e : BusEnv) (k : SampleKind) (l : Nat)

@[simp] theorem BusEnv.level_low : e.level .low k l = false := rfl

theorem BusEnv.level_rel : e.level .rel k l =
    if e.pulled k l then false
    else if e.pullup.testBit l then true else Config.drawLevel e.samples l := rfl

theorem BusEnv.level_high : e.level .high k l =
    if e.pulled k l then Config.drawLevel e.samples l else true := rfl

/-- Off the unconstrained lines a pull is that of a device on the line, which has its pull-up (20_memory R84;
log 8). -/
theorem BusEnv.pulled_iff_of_ideal (hideal : e.oracle.testBit l = false) : e.pulled k l = true ↔
    ∃ d, d ∈ e.devices ∧ d.line = l ∧ e.pullup.testBit l = true ∧
      d.pulls k (Config.drawPull e.samples l) = true := by
  simp [BusEnv.pulled, hideal, and_assoc]

end

/-- Settles O19: the driver state, the pull and the pull-up choose the branch of `level`. -/
theorem lineLevelRule : Obligations.LineLevelRule := by
  intro e k l
  refine ⟨e.level_low k l, ?_, ?_, ?_, ?_, ?_, e.pulled_iff_of_ideal k l⟩
  · intro hpull
    rw [e.level_rel, if_pos hpull]
  · intro hfree hup
    rw [e.level_rel, hfree, if_neg Bool.false_ne_true, if_pos hup]
  · intro hfree hup
    rw [e.level_rel, hfree, hup, if_neg Bool.false_ne_true, if_neg Bool.false_ne_true]
  · intro hfree
    rw [e.level_high, hfree, if_neg Bool.false_ne_true]
  · intro hpull
    rw [e.level_high, if_pos hpull]

end Sys2Proof.Machine

/-! Family 30_encoding, 1: the fields of a command word, the rows of the opcode map and the legal words
(30_encoding R101 to R106). -/

namespace Sys2Proof

/-! The word and its fields (30_encoding R101). -/

theorem commandFields_wordOf (c : CommandWord) : commandFields (wordOf c) = c := by
  obtain ⟨op, z, a⟩ := c
  have hop : (BitVec.ofBool a ++ z ++ op).extractLsb' 0 5 = op := BitVec.extractLsb'_append_eq_right
  have hz : (BitVec.ofBool a ++ z ++ op).extractLsb' 5 2 = z :=
    (BitVec.extractLsb'_append_eq_of_le le_rfl).trans BitVec.extractLsb'_append_eq_right
  have ha : (BitVec.ofBool a ++ z ++ op).getLsbD 7 = a := by
    simp only [BitVec.getLsbD_append]
    cases a <;> rfl
  simp only [commandFields, wordOf, hop, hz, ha]

theorem wordOf_commandFields (w : Byte) : wordOf (commandFields w) = w := by
  have ha : BitVec.ofBool (w.getLsbD 7) = w.extractLsb' 7 1 := by
    ext k hk
    obtain rfl : k = 0 := by omega
    simp
  have haz : w.extractLsb' 7 1 ++ w.extractLsb' 5 2 = w.extractLsb' 5 3 :=
    BitVec.extractLsb'_append_extractLsb'_eq_extractLsb' rfl
  calc BitVec.ofBool (w.getLsbD 7) ++ w.extractLsb' 5 2 ++ w.extractLsb' 0 5
      = w.extractLsb' 5 3 ++ w.extractLsb' 0 5 := by rw [ha, haz]
    _ = w.extractLsb' 0 8 := BitVec.extractLsb'_append_extractLsb'_eq_extractLsb' rfl
    _ = w := BitVec.extractLsb'_eq_self

theorem commandFields_eq_iff {w : Byte} {c : CommandWord} : commandFields w = c ↔ wordOf c = w := by
  constructor
  · rintro rfl
    exact wordOf_commandFields w
  · rintro rfl
    exact commandFields_wordOf c

/-! The rows of the opcode map (30_encoding R104). -/

theorem opcodeRow_opcodeOf (i : Instr) : opcodeRow (opcodeOf i) (addressingOf (flagOf i)) = some i := by
  cases i
  case convert a | readScratchpad a | writeScratchpad a | copyScratchpad a | readTemperature a => cases a <;> rfl
  all_goals rfl

theorem opcodeOf_of_opcodeRow {op : BitVec 5} {a : Addressing} {i : Instr} (h : opcodeRow op a = some i) :
    opcodeOf i = op := by
  unfold opcodeRow at h
  split at h <;> cases h <;> exact BitVec.eq_of_toNat_eq (Eq.symm ‹_›)

/-- The flag of the word reaches the command exactly where the opcode is an addressed one (30_encoding R102). -/
theorem flagOf_of_opcodeRow {c : CommandWord} {i : Instr} (h : opcodeRow c.op (addressingOf c.a) = some i) :
    flagOf i = (c.a && c.opAddressed) := by
  rw [CommandWord.opAddressed, ← opcodeOf_of_opcodeRow h]
  unfold opcodeRow at h
  split at h <;> cases h <;> cases c.a <;> rfl

/-- The opcodes without a row are the seven reserved ones (30_encoding R106). -/
theorem opcodeRow_isSome (op : BitVec 5) (a : Addressing) :
    (opcodeRow op a).isSome = !([0x0D, 0x0E, 0x0F, 0x12, 0x13, 0x17, 0x1F].contains op) := by
  cases a <;> revert op <;> decide

/-! Legal words (30_encoding R106). -/

/-- A flag is allowed where the command keeps it (30_encoding R102, R106). -/
theorem CommandWord.flagAllowed_iff {c : CommandWord} : c.flagAllowed = true ↔ (c.a && c.opAddressed) = c.a := by
  unfold CommandWord.flagAllowed
  cases c.a <;> cases c.opAddressed <;> decide

/-- The three grounds of 30_encoding R106. -/
theorem CommandWord.wf_eq_false_iff (c : CommandWord) : c.wf = false ↔ c.z ≠ 0 ∨
    [0x0D, 0x0E, 0x0F, 0x12, 0x13, 0x17, 0x1F].contains c.op = true ∨
    (c.a = true ∧ [0x18, 0x19, 0x1A, 0x1B, 0x1E].contains c.op = false) := by
  simp only [CommandWord.wf, CommandWord.zClear, CommandWord.opAssigned, CommandWord.flagAllowed,
    CommandWord.opAddressed, Bool.and_eq_false_iff, Bool.or_eq_false_iff, Bool.not_eq_false', beq_eq_false_iff_ne,
    or_assoc]

end Sys2Proof

/-! Family 30_encoding, 2: the words that decode, and those that do not (30_encoding R105, R106). -/

namespace Sys2Proof

/-- What decoding asks of the fields, ground by ground. -/
theorem decodeFields_eq_ok_iff {c : CommandWord} {i : Instr} : decodeFields c = .ok i ↔
    c.zClear = true ∧ opcodeRow c.op (addressingOf c.a) = some i ∧ c.flagAllowed = true := by
  unfold decodeFields
  cases c.zClear
  case false => simp
  case true =>
    cases opcodeRow c.op (addressingOf c.a) <;> cases c.flagAllowed <;> simp

theorem decodeFields_fieldsOf (i : Instr) : decodeFields (fieldsOf i) = .ok i := by
  have hrow : opcodeRow (fieldsOf i).op (addressingOf (fieldsOf i).a) = some i := opcodeRow_opcodeOf i
  have hflag : (fieldsOf i).flagAllowed = true := CommandWord.flagAllowed_iff.mpr (flagOf_of_opcodeRow hrow).symm
  exact decodeFields_eq_ok_iff.mpr ⟨rfl, hrow, hflag⟩

theorem eq_fieldsOf_of_decodeFields {c : CommandWord} {i : Instr} (h : decodeFields c = .ok i) : c = fieldsOf i := by
  obtain ⟨hz, hrow, hflag⟩ := decodeFields_eq_ok_iff.mp h
  have hop : opcodeOf i = c.op := opcodeOf_of_opcodeRow hrow
  have hz0 : c.z = 0 := eq_of_beq hz
  have ha : flagOf i = c.a := (flagOf_of_opcodeRow hrow).trans (CommandWord.flagAllowed_iff.mp hflag)
  rw [fieldsOf, hop, ha, ← hz0]

theorem decode_eq_ok_iff {w : Byte} {i : Instr} : decode w = .ok i ↔ encode i = w := by
  rw [encode, ← commandFields_eq_iff]
  constructor
  · exact eq_fieldsOf_of_decodeFields
  · intro h
    rw [decode, h, decodeFields_fieldsOf]

/-- The fields that do not decode are the illegal ones. -/
theorem decodeFields_error_iff (c : CommandWord) : (∃ e, decodeFields c = .error e) ↔ c.wf = false := by
  have hop : c.opAssigned = (opcodeRow c.op (addressingOf c.a)).isSome := (opcodeRow_isSome _ _).symm
  unfold decodeFields CommandWord.wf
  rw [hop]
  cases c.zClear
  case false => simp
  case true =>
    cases opcodeRow c.op (addressingOf c.a) <;> cases c.flagAllowed <;> simp

/-- Settles O1: a word decodes to a command exactly when it is the command's word. -/
theorem decodeEncodeRoundTrip : Obligations.DecodeEncodeRoundTrip :=
  ⟨fun _ => decode_eq_ok_iff.mpr rfl, fun _ _ => decode_eq_ok_iff.mp⟩

/-- Settles O3: the table is evaluated on the thirteen words. -/
theorem wordsOfTheOpcodeMap : Obligations.WordsOfTheOpcodeMap := by
  unfold Obligations.WordsOfTheOpcodeMap
  decide

end Sys2Proof

/-! Family 30_encoding, 3: the step of an illegal word (30_encoding R106, 46 R350, 60 R274). -/

namespace Sys2Proof.Machine

theorem runWord_of_decode_error {w : Byte} {e : DecodeError} (h : decode w = .error e) (s : State) :
    runWord w s = illegalWord w s := by
  simp only [runWord, h]

/-- Between the start and the `raise` nothing of the block is touched (60 R276). -/
theorem illegalWord_eq (w : Byte) (s : State) : illegalWord w s = .next { s with
    seq := Seq.ended (w.extractLsb' 0 5)
    status := { s.status with err := 7 } } := rfl

/-- Settles O2: the grounds of R106 are those of `CommandWord.wf`, and the frame of 46 R350 around an immediate
`raise` leaves the outcome and SEQ. -/
theorem illegalWordsOnlySetErr : Obligations.IllegalWordsOnlySetErr := by
  constructor
  · intro w
    exact (decodeFields_error_iff _).trans (CommandWord.wf_eq_false_iff _)
  · intro s v rest e hidle hin hdec
    rw [step_writeCmd hidle hin, runWord_of_decode_error hdec, illegalWord_eq]
    rfl

end Sys2Proof.Machine

/-! Family 41_line_interface, 1: the rule of each command in the frame of 46 R350. -/

namespace Sys2Proof.Machine

/-- The rule of each command, which `exec` runs in the frame of 46 R350. -/
def ruleOf : Instr → State → Run Unit
  | .configureOutput => fun s => .ok () s.configureOutput
  | .driveLow => fun s => .ok () s.driveLow
  | .releaseHigh => fun s => .ok () s.releaseHigh
  | .readLevel => fun s => .ok () s.readLevel
  | .configureInput => fun s => .ok () s.configureInput
  | .driveHigh => fun s => .ok () s.driveHigh
  | .guardEnter => guardEnterCommand
  | .guardExit => guardExitCommand
  | .reset => busReset
  | .writeBit => fun s => .ok () (writeSlot (s.regs.txd.getLsbD 0) s)
  | .readBit => fun s => .ok () ((readSlot s).2.setRxd (zext8 (readSlot s).1))
  | .writeByte => fun s => .ok () (writeByte s.regs.txd s)
  | .readByte => fun s => .ok () ((readByte s).2.setRxd (readByte s).1)
  | .crc8 => crcCommand
  | .validate => validateCommand
  | .searchInit => fun s => .ok () s.searchInit
  | .searchPass => searchPass
  | .discover => discover
  | .convert a => convert a
  | .readScratchpad a => readScratchpad a
  | .writeScratchpad a => writeScratchpad a
  | .copyScratchpad a => copyScratchpad a
  | .readRom => readRom
  | .decodeTemperature => fun s => .ok () s.decodeTemperature
  | .readTemperature a => readTemperature a

theorem exec_eq_runCommand (i : Instr) (s : State) : exec i s = runCommand (opcodeOf i) (ruleOf i) s := by
  cases i <;> rfl

/-- The state a rule ended in, normally or by `raise`. -/
def Run.state {α : Type} : Run α → State
  | .ok _ s => s
  | .raised _ s => s

theorem Run.close_eq_finish (r : Run Unit) : ∃ e, r.close = r.state.finish e := by
  cases r <;> exact ⟨_, rfl⟩

/-- No outcome has the reserved code (60 R271). -/
theorem ErrCode.code_ne_six (e : ErrCode) : e.code ≠ 6 := by
  cases e <;> decide

theorem exec_of_rule {i : Instr} {s : State} {r : Run Unit} (h : ruleOf i (s.start (opcodeOf i)) = r) :
    exec i s = .next r.close := by
  rw [exec_eq_runCommand, runCommand, h]

/-- A command that ran to `t`: its rule, then the end of 46 R350. -/
theorem exec_eq_finish {i : Instr} {s t : State} (h : exec i s = .next t) :
    ∃ e, t = (ruleOf i (s.start (opcodeOf i))).state.finish e := by
  obtain rfl := Host.Outcome.next.inj ((exec_of_rule rfl).symm.trans h)
  exact Run.close_eq_finish _

end Sys2Proof.Machine

/-! Family 41_line_interface, 2: the raw line commands and READ_LEVEL (41 R142 to R148). -/

namespace Sys2Proof.Machine

/-- A raw line command as a whole: the latches, and what the log leaves of the devices (41 R143 to R148; log 10). -/
theorem State.setLatches_onlyLatches (s : State) (op : BitVec 5) (ln : Lines) :
    s.onlyLatches (((s.start op).setLatches ln).finish .ok) op := rfl

/-- An input line is released whatever its latches hold (10_state R42). -/
theorem Lines.drv_of_input {ln : Lines} {l : Nat} (h : ln.dir.testBit l = false) : ln.drv l = .rel := by
  simp [Lines.drv, h]

/-- With OUT = 0 an output line is driven low (10_state R42). -/
theorem Lines.drv_of_out_low {ln : Lines} {l : Nat} (h : ln.out.testBit l = false) :
    ln.drv l = if ln.dir.testBit l then .low else .rel := by
  simp [Lines.drv, h]

/-- With OUT = 1 and STRONG = 0 a line is released (10_state R42). -/
theorem Lines.drv_of_weak {ln : Lines} {l : Nat} (ho : ln.out.testBit l = true) (hs : ln.strong.testBit l = false) :
    ln.drv l = .rel := by
  simp [Lines.drv, ho, hs]

/-- With OUT = 1 and STRONG = 1 an output line is driven actively high (10_state R42). -/
theorem Lines.drv_of_strong {ln : Lines} {l : Nat} (ho : ln.out.testBit l = true) (hs : ln.strong.testBit l = true) :
    ln.drv l = if ln.dir.testBit l then .high else .rel := by
  simp [Lines.drv, ho, hs]

/-- Settles O16: DIR alone is written, and with DIR = 0 a line is released. -/
theorem configureDirection : Obligations.ConfigureDirection := by
  refine fun s => ⟨⟨_, rfl, s.setLatches_onlyLatches 0x00 _, fun l => ?_⟩,
    ⟨_, rfl, s.setLatches_onlyLatches 0x04 _, fun l => ?_⟩⟩
  · exact ⟨Nat.testBit_or .., rfl, rfl⟩
  · have hdir := testBit_clearBits s.lines.dir s.regs.bussel l
    exact ⟨hdir, rfl, rfl, fun hl => Lines.drv_of_input (hdir.trans (by simp [hl]))⟩

/-- Settles O17: OUT and STRONG of the selected lines are written, and the pin follows where DIR = 1. -/
theorem driveLatches : Obligations.DriveLatches := by
  intro s
  have hset := fun (m : BusLine) l => Nat.testBit_or m s.regs.bussel l
  have hclear := fun (m : BusLine) l => testBit_clearBits m s.regs.bussel l
  refine ⟨⟨_, rfl, s.setLatches_onlyLatches 0x01 _, fun l => ⟨rfl, hclear _ l, hclear _ l, fun hl => ?_⟩⟩,
    ⟨_, rfl, s.setLatches_onlyLatches 0x02 _, fun l => ⟨rfl, hset _ l, hclear _ l, fun hl => ?_⟩⟩,
    ⟨_, rfl, s.setLatches_onlyLatches 0x05 _, fun l => ⟨rfl, hset _ l, hset _ l, fun hl => ?_⟩⟩⟩
  · exact Lines.drv_of_out_low ((hclear _ l).trans (by simp [hl]))
  · exact Lines.drv_of_weak ((hset _ l).trans (by simp [hl])) ((hclear _ l).trans (by simp [hl]))
  · exact Lines.drv_of_strong ((hset _ l).trans (by simp [hl])) ((hset _ l).trans (by simp [hl]))

/-- `LineSample` is 1 exactly when every selected line is high (41 R142, 20_memory R73). -/
theorem State.lineSample_iff (k : SampleKind) (m : BusLine) (s : State) : s.lineSample k m = true ↔
    ∀ l, l < s.params.nLines → m.testBit l = true → s.env.level (s.lines.drv l) k l = true := by
  simp only [State.lineSample, List.all_eq_true, List.mem_range, Bool.or_eq_true, Bool.not_eq_true',
    ← Bool.not_eq_true, ← imp_iff_not_or]

@[simp] theorem zext8_eq_one_iff (b : Bool) : zext8 b = 1 ↔ b = true := by
  cases b <;> decide

@[simp] theorem zext8_eq_zero_iff (b : Bool) : zext8 b = 0 ↔ b = false := by
  cases b <;> decide

/-- Settles O18: RXD is the sample, which the empty mask leaves 1 and a line driven low makes 0. -/
theorem readLevelSamplesTheSelectedLines : Obligations.ReadLevelSamplesTheSelectedLines := by
  intro s
  have hsample := s.lineSample_iff .idle s.regs.bussel
  have hone := zext8_eq_one_iff (s.lineSample .idle s.regs.bussel)
  have hzero := zext8_eq_zero_iff (s.lineSample .idle s.regs.bussel)
  refine ⟨_, rfl, rfl, ?_, hone.trans hsample, fun hempty => ?_, fun ⟨l, hl, hsel, hlow⟩ => ?_⟩
  · exact (Bool.eq_false_or_eq_true _).symm.imp hzero.mpr hone.mpr
  · exact hone.mpr (hsample.mpr fun l _ hsel => by simp [hempty] at hsel)
  · refine hzero.mpr (Bool.eq_false_iff.mpr fun hhigh => ?_)
    have hlevel := hsample.mp hhigh l hl hsel
    rw [hlow, BusEnv.level_low] at hlevel
    exact Bool.false_ne_true hlevel

end Sys2Proof.Machine

/-! Family 41_line_interface, 3: the guard commands (41 R149 to R152). -/

namespace Sys2Proof.Machine

/-- Settles O20: the limit of R151 chooses between the entry of R149 and the `raise`. -/
theorem guardEnterEffect : Obligations.GuardEnterEffect := by
  refine fun s => ⟨fun hroom => ?_, fun hfull => ?_⟩
  · have hrule : ruleOf .guardEnter (s.start 0x06) = .ok () (s.start 0x06).guardEnter :=
      if_neg (Nat.not_le.mpr hroom)
    exact exec_of_rule hrule
  · have hrule : ruleOf .guardEnter (s.start 0x06) = .raised .illegalCommand (s.start 0x06) := if_pos hfull
    exact exec_of_rule hrule

/-- Settles O21: R152 asks whether a guard is open, R150 whether it was the last one. -/
theorem guardExitEffect : Obligations.GuardExitEffect := by
  refine fun s => ⟨fun hopen => ?_, fun hclosed => ?_⟩
  · have hrule : ruleOf .guardExit (s.start 0x07) = .ok () (s.start 0x07).guardExit := if_neg hopen
    have hlast : s.guard.depth - 1 = 0 ↔ s.guard.depth = 1 := sub_eq_zero
    simp only [← hlast]
    exact exec_of_rule hrule
  · have hrule : ruleOf .guardExit (s.start 0x07) = .raised .illegalCommand (s.start 0x07) := if_pos hclosed
    exact exec_of_rule hrule

/-- Below the highest limit the depth counts up without overflow. -/
theorem depth_succ_toNat {d : BitVec 3} {n : Nat} (hn : n ≤ 7) (hd : d.toNat < n - 1) :
    (d + 1).toNat = d.toNat + 1 := by
  have hone : (1 : BitVec 3).toNat = 1 := rfl
  rw [BitVec.toNat_add, hone, Nat.mod_eq_of_lt (by omega)]

/-- Settles O22: the exit meets the latch that the entry wrote, at the depth it started from. -/
theorem guardPairRestores : Obligations.GuardPairRestores := by
  intro s hmax hroom hmasked
  have hopen : s.guard.depth + 1 ≠ 0 := fun h0 => by
    have := depth_succ_toNat hmax hroom
    rw [h0] at this
    exact Nat.succ_ne_zero _ this.symm
  refine ⟨_, _, (guardEnterEffect s).1 hroom, (guardExitEffect _).1 hopen, rfl, hopen, add_sub_cancel_right _ _,
    ?_, rfl⟩
  have hie : (if s.guard.depth + 1 = 1 then if s.guard.depth = 0 then s.host.ie else s.guard.savedIe else false) =
      s.host.ie := by
    by_cases h0 : s.guard.depth = 0
    · simp [h0]
    · rw [if_neg fun h1 => h0 (add_eq_right.mp h1), hmasked h0]
  exact congrArg (fun b => { s.host with ie := b }) hie

end Sys2Proof.Machine

/-! Family 41_line_interface, 4: what a command's rule keeps, operation by operation (41 R153, 10_state R39, R40,
20_memory R62). -/

namespace Sys2Proof.Machine

/-! What every rule but those of the guard commands keeps. -/

/-- `t` comes from `s` inside a command by anything but GUARD_ENTER and GUARD_EXIT: the storage and the masks keep
their form (`Enumerable`), and the events `tr` put on the wire leave of the guard what the pairing inside each
primitive leaves (41 R149, R150, R153). -/
structure State.Ran (s t : State) : Prop where
  params : t.params = s.params
  buslist : t.buslist = s.buslist
  bufWf : s.buf.wf = true → t.buf.wf = true
  enumerable : s.Enumerable → t.Enumerable
  depth : t.guard.depth = s.guard.depth
  guard : ∃ tr, t.env.wire = s.env.wire ++ tr ∧
    t.guard.savedIe = (if s.guard.depth = 0 ∧ tr ≠ [] then s.host.ie else s.guard.savedIe) ∧
    t.host.ie = (if s.guard.depth ≠ 0 ∧ tr ≠ [] then false else s.host.ie)

theorem State.Ran.refl (s : State) : s.Ran s where
  params := rfl
  buslist := rfl
  bufWf := id
  enumerable := id
  depth := rfl
  guard := ⟨[], by simp⟩

theorem State.Ran.trans {s t u : State} (h : s.Ran t) (k : t.Ran u) : s.Ran u where
  params := k.params.trans h.params
  buslist := k.buslist.trans h.buslist
  bufWf := k.bufWf ∘ h.bufWf
  enumerable := k.enumerable ∘ h.enumerable
  depth := k.depth.trans h.depth
  guard := by
    obtain ⟨x, hwire, hsaved, hie⟩ := h.guard
    obtain ⟨y, kwire, ksaved, kie⟩ := k.guard
    refine ⟨x ++ y, by rw [kwire, hwire, List.append_assoc], ?_, ?_⟩
    · rw [ksaved, hsaved, hie, h.depth]
      by_cases hd : s.guard.depth = 0#3 <;> by_cases hx : x = [] <;> simp [hd, hx]
    · rw [kie, hie, h.depth]
      by_cases hd : s.guard.depth = 0#3 <;> by_cases hx : x = [] <;> simp [hd, hx]

/-- Passes and registrations are such a run, as far as they keep the storage and the masks. -/
theorem State.Walked.ran {s t : State} (h : s.Walked t) (he : s.Enumerable → t.Enumerable) : s.Ran t where
  params := h.params
  buslist := h.buslist
  bufWf := fun hb => h.buf ▸ hb
  enumerable := he
  depth := h.depth
  guard := by
    obtain ⟨tr, henv, -, hsaved, hie⟩ := h.bus
    exact ⟨tr, by rw [henv, BusEnv.replay_wire], hsaved, hie⟩

/-- What leaves the selected lines released keeps every mask on existing lines (42 R174). -/
theorem State.Enumerable.ofReleased {s t : State} (h : s.Enumerable) (hw : s.Walked t)
    (hreg : t.registry = s.registry) (hregs : t.regs = s.regs) (hlast : t.status.last = !t.search.valid)
    (hlines : t.lines = s.lines.drive s.regs.bussel .rel) : t.Enumerable where
  capacity := hw.params ▸ h.capacity
  count := by rw [hreg, hw.params]; exact h.count
  linesWf := hreg ▸ h.linesWf
  addrsWf := hreg ▸ h.addrsWf
  last := hlast
  bussel := by rw [hregs, hw.params]; exact h.bussel
  lines := by rw [hlines, hw.params]; exact h.lines.drive h.bussel .rel
  buslist := by rw [hw.buslist, hw.params]; exact h.buslist

theorem State.Slots.ran {s t : State} {x : WireEvent} {tr : List WireEvent} (h : s.Slots (x :: tr) t) : s.Ran t :=
  h.walked.ran fun he => he.ofReleased h.walked h.registry h.regs (by rw [h.status, h.search]; exact he.last) h.lines

theorem Run.bind_ran {α β : Type} {s : State} {r : Run α} {f : α → State → Run β} (hr : s.Ran r.state)
    (hf : ∀ (a : α) (t : State), t.Ran (f a t).state) : s.Ran (r.bind f).state := by
  cases r with
  | ok a t => exact hr.trans (hf a t)
  | raised e t => exact hr

theorem Run.bind_ok_ran {α : Type} {s : State} {r : Run α} {g : State → State} (hr : s.Ran r.state)
    (hg : ∀ t : State, t.Ran (g t)) : s.Ran (r.bind fun _ t => .ok () (g t)).state :=
  Run.bind_ran hr fun _ t => hg t

theorem foldl_ran {α : Type} {f : State → α → State} (hf : ∀ (s : State) (a : α), s.Ran (f s a)) (l : List α)
    (s : State) : s.Ran (l.foldl f s) := by
  induction l generalizing s with
  | nil => exact .refl s
  | cons a l ih => exact (hf s a).trans (ih (f s a))

/-! The operations. -/

section
variable (s : State)

theorem setBytecnt_ran (i : Nat) : s.Ran (s.setBytecnt i) :=
  { State.Ran.refl s with enumerable := fun h => { h with } }
theorem setRxd_ran (v : Byte) : s.Ran (s.setRxd v) :=
  { State.Ran.refl s with enumerable := fun h => { h with } }
theorem decodeTemperature_ran : s.Ran s.decodeTemperature :=
  { State.Ran.refl s with enumerable := fun h => { h with } }
theorem setPres_ran (b : Bool) : s.Ran (s.setPres b) := (walked_setPres s b).ran fun h => { h with }
theorem start_ran (op : BitVec 5) : s.Ran (s.start op) :=
  { State.Ran.refl s with enumerable := fun h => { h with } }
theorem finish_ran (e : ErrCode) : s.Ran (s.finish e) :=
  { State.Ran.refl s with enumerable := fun h => { h with } }
theorem readLevel_ran : s.Ran s.readLevel :=
  { State.Ran.refl s with enumerable := fun h => { h with } }

theorem setCount_ran : s.Ran (s.setCount 0) := (walked_setCount s 0).ran fun h => h.setCount

theorem searchInit_ran : s.Ran s.searchInit :=
  (walked_searchInit s).ran fun h => { h with last := searchInit_last s }

theorem setBuf_ran (i : Nat) (v : Byte) : s.Ran (s.setBuf i v) :=
  { State.Ran.refl s with
    bufWf := Store.write_wf s.buf i v
    enumerable := fun h => { h with } }

/-- A write of the latches that stays on existing lines. -/
theorem setLatches_ran {ln : Lines} (hln : s.Enumerable → ln.Within s.params) : s.Ran (s.setLatches ln) :=
  { State.Ran.refl s with enumerable := fun h => { h with lines := hln h } }

theorem lineDrive_ran (d : Drive) : s.Ran (s.lineDrive s.regs.bussel d) :=
  { State.Ran.refl s with enumerable := fun h => { h with lines := h.lines.drive h.bussel d } }

/-! Slots and bytes (42_bit_transport). -/

theorem busReset_ran : s.Ran (busReset s).state := by
  obtain ⟨t, hslots, heq⟩ := busReset_spec s
  have hran : s.Ran (t.setPres s.presence) := hslots.ran.trans (setPres_ran t _)
  rw [heq]
  split <;> exact hran

theorem writeSlot_ran (b : Bool) : s.Ran (writeSlot b s) := (writeSlot_slots b s).ran
theorem readSlot_ran : s.Ran (readSlot s).2 := (readSlot_slots s).ran
theorem writeByte_ran (b : Byte) : s.Ran (writeByte b s) := (writeByte_slots b s).ran
theorem readByte_ran : s.Ran (readByte s).2 := (readByte_slots s).ran

theorem writeBytes_ran (bs : List Byte) : s.Ran (writeBytes bs s) :=
  foldl_ran (fun s b => writeByte_ran s b) bs s

theorem readIntoBuf_ran (i : Nat) : s.Ran (readIntoBuf s i) :=
  ((setBytecnt_ran s i).trans (readByte_ran _)).trans (setBuf_ran _ _ _)

theorem readBytes_ran (n : Nat) : s.Ran (readBytes n s) := foldl_ran readIntoBuf_ran (List.range n) s

/-! Search (44_rom_search). -/

theorem searchPass_ran : s.Ran (searchPass s).state := by
  rcases searchPass_walked s _ rfl with ⟨e, t, ht, -, hw, hreg, hregs, hlast, hlines⟩ |
    ⟨t, ht, hw, hreg, hregs, hlast, hlines⟩ <;>
  · rw [ht]
    exact hw.ran fun he => he.ofReleased hw hreg hregs hlast hlines

/-- The pass loop of a bus, however many entries the registry takes. -/
theorem enumerateBus_walked (room : Nat) (s : State) : s.Walked (enumerateBus room s).state := by
  induction room generalizing s with
  | zero =>
    rcases searchPass_walked s _ rfl with ⟨e, t, ht, rfl | rfl, hw, -⟩ | ⟨t, ht, hw, -⟩ <;> rw [enumerateBus, ht]
    · exact hw
    · exact hw.trans (walked_setCount t 0)
    · exact hw.trans (walked_setCount t 0)
  | succ room ih =>
    rcases searchPass_walked s _ rfl with ⟨e, t, ht, rfl | rfl, hw, -⟩ | ⟨t, ht, hw, -⟩ <;> rw [enumerateBus, ht]
    · exact hw
    · exact hw.trans (walked_setCount t 0)
    · have hreg : s.Walked (register t) := hw.trans (walked_register t)
      dsimp only
      split
      · exact hreg.trans (ih _)
      · exact hreg

theorem discoverBus_walked (i : Nat) : s.Walked (discoverBus i s).state :=
  have hmask : s.Walked ({ s with regs := { s.regs with bussel := s.buslist.read i } } : State).searchInit :=
    { State.Walked.refl s with regs := rfl }
  hmask.trans (enumerateBus_walked _ _)

theorem discoverBuses_walked (is : List Nat) (s : State) : s.Walked (discoverBuses is s).state := by
  induction is generalizing s with
  | nil => exact .refl s
  | cons i is ih =>
    have hbus := discoverBus_walked s i
    rw [discoverBuses]
    cases hi : discoverBus i s <;> rw [hi] at hbus
    case ok a t => exact hbus.trans (ih t)
    case raised e t => exact hbus

theorem discoverBuses_ran (is : List Nat) : s.Ran (discoverBuses is s).state := by
  refine (discoverBuses_walked is s).ran fun he => ?_
  rcases discoverBuses_spec is s he with ⟨t, ht, hk, -⟩ | ⟨e, t, ht, -, hk, -⟩ <;>
  · rw [ht]
    exact hk.enumerable

theorem discoverCheck_ran : s.Ran (discoverCheck s).state := by
  unfold discoverCheck
  split
  · exact .refl s
  · exact setCount_ran s

theorem discover_ran : s.Ran (discover s).state := by
  unfold discover
  split
  · exact .refl s
  · exact Run.bind_ran ((setCount_ran s).trans (discoverBuses_ran _ _)) fun _ t => discoverCheck_ran t

/-! Sensor transactions (45_sensor_protocol). -/

theorem sendAddrByte_ran (i : Nat) : s.Ran (sendAddrByte s i) := (setBytecnt_ran s i).trans (writeByte_ran _ _)

theorem address_ran (a : Addressing) : s.Ran (address a s).state := by
  refine Run.bind_ok_ran (busReset_ran s) fun t => ?_
  split
  · exact writeByte_ran t _
  · exact (writeByte_ran t _).trans (foldl_ran sendAddrByte_ran (List.range 8) _)

theorem checkScratchpad_ran : s.Ran (checkScratchpad s).state := by
  unfold checkScratchpad
  split_ifs <;> exact .refl s

theorem checkRom_ran : s.Ran (checkRom s).state := by
  unfold checkRom
  split
  · exact .refl s
  · exact foldl_ran (fun s i => setBuf_ran s i 0) (List.range 8) s

theorem convert_ran (a : Addressing) : s.Ran (convert a s).state :=
  Run.bind_ok_ran (address_ran s a) fun t => writeByte_ran t _

theorem readScratchpad_ran (a : Addressing) : s.Ran (readScratchpad a s).state :=
  Run.bind_ran (address_ran s a) fun _ t =>
    ((writeByte_ran t _).trans (readBytes_ran _ 9)).trans (checkScratchpad_ran _)

theorem writeScratchpad_ran (a : Addressing) : s.Ran (writeScratchpad a s).state :=
  Run.bind_ok_ran (address_ran s a) fun t => writeBytes_ran t _

theorem copyScratchpad_ran (a : Addressing) : s.Ran (copyScratchpad a s).state := by
  refine Run.bind_ok_ran (address_ran s a) fun t => ?_
  have hregs : (writeByte t.params.cmdCopyScratchpad t).regs = t.regs := (writeByte_slots _ t).regs
  have hhigh := lineDrive_ran (writeByte t.params.cmdCopyScratchpad t) .high
  rw [hregs] at hhigh
  exact (writeByte_ran t _).trans hhigh

theorem readRom_ran : s.Ran (readRom s).state :=
  Run.bind_ran (busReset_ran s) fun _ t => ((writeByte_ran t _).trans (readBytes_ran _ 8)).trans (checkRom_ran _)

theorem readTemperature_ran (a : Addressing) : s.Ran (readTemperature a s).state :=
  Run.bind_ok_ran (readScratchpad_ran s a) decodeTemperature_ran

/-! The other commands with an operand check (43_crc8). -/

theorem crcCommand_ran : s.Ran (crcCommand s).state := by
  unfold crcCommand
  split
  · exact .refl s
  · exact setRxd_ran s _

theorem validateCommand_ran : s.Ran (validateCommand s).state := by
  unfold validateCommand
  split
  · exact .refl s
  · exact setRxd_ran s _

end

/-- The rule of every command but the guard commands. -/
theorem ruleOf_ran (i : Instr) (s : State) (hent : i ≠ .guardEnter) (hexit : i ≠ .guardExit) :
    s.Ran (ruleOf i s).state := by
  cases i with
  | configureOutput =>
    exact setLatches_ran s fun h => { h.lines with dir := within_or h.lines.dir h.bussel }
  | driveLow =>
    exact setLatches_ran s fun h =>
      { h.lines with out := within_clearBits _ h.lines.out, strong := within_clearBits _ h.lines.strong }
  | releaseHigh =>
    exact setLatches_ran s fun h =>
      { h.lines with out := within_or h.lines.out h.bussel, strong := within_clearBits _ h.lines.strong }
  | readLevel => exact readLevel_ran s
  | configureInput => exact setLatches_ran s fun h => { h.lines with dir := within_clearBits _ h.lines.dir }
  | driveHigh =>
    exact setLatches_ran s fun h =>
      { h.lines with out := within_or h.lines.out h.bussel, strong := within_or h.lines.strong h.bussel }
  | guardEnter => exact absurd rfl hent
  | guardExit => exact absurd rfl hexit
  | reset => exact busReset_ran s
  | writeBit => exact writeSlot_ran s _
  | readBit => exact (readSlot_ran s).trans (setRxd_ran _ _)
  | writeByte => exact writeByte_ran s _
  | readByte => exact (readByte_ran s).trans (setRxd_ran _ _)
  | crc8 => exact crcCommand_ran s
  | validate => exact validateCommand_ran s
  | searchInit => exact searchInit_ran s
  | searchPass => exact searchPass_ran s
  | discover => exact discover_ran s
  | convert a => exact convert_ran s a
  | readScratchpad a => exact readScratchpad_ran s a
  | writeScratchpad a => exact writeScratchpad_ran s a
  | copyScratchpad a => exact copyScratchpad_ran s a
  | readRom => exact readRom_ran s
  | decodeTemperature => exact decodeTemperature_ran s
  | readTemperature a => exact readTemperature_ran s a

theorem exec_ran {i : Instr} {s t : State} (hent : i ≠ .guardEnter) (hexit : i ≠ .guardExit)
    (h : exec i s = .next t) : s.Ran t := by
  obtain ⟨e, rfl⟩ := exec_eq_finish h
  exact ((start_ran s _).trans (ruleOf_ran i _ hent hexit)).trans (finish_ran _ e)

/-- Settles O23: the primitives of a command, of which `Ran` says what each leaves, leave the guard as the pairing
inside them does. -/
theorem commandsKeepTheGuard : Obligations.CommandsKeepTheGuard := by
  intro i s t hent hexit h
  have hran := exec_ran hent hexit h
  obtain ⟨tr, hwire, hsaved, hie⟩ := hran.guard
  refine ⟨tr, hwire, hran.depth, fun hclosed => ⟨?_, ?_⟩, fun hopen => ⟨?_, fun hinv => ?_⟩⟩
  · rw [hie, if_neg fun hp => hp.1 hclosed]
  · by_cases htr : tr = [] <;> simp [hsaved, hclosed, htr]
  · rw [hsaved, if_neg fun hp => hopen hp.1]
  · rw [hie, hinv.masked hopen, ite_self]

end Sys2Proof.Machine

/-! Family 41_line_interface, 5: the invariant of the machine, input by input. -/

namespace Sys2Proof.Machine

theorem Params.capacity_le_of_wf {p : Params} (h : p.wf = true) : p.registryCapacity ≤ 255 := by
  simp only [Params.wf, Params.sizesWf, Bool.and_eq_true, decide_eq_true_eq] at h
  omega

theorem Params.guardMax_le_of_wf {p : Params} (h : p.wf = true) : p.guardMax ≤ 7 := by
  simp only [Params.wf, Params.sizesWf, Bool.and_eq_true, decide_eq_true_eq] at h
  omega

theorem State.Inv.enumerable {s : State} (h : s.Inv) : s.Enumerable :=
  { h with
    capacity := Params.capacity_le_of_wf h.params
    lines := { h with } }

/-- The end of a command that ran keeps the invariant. -/
theorem State.Inv.ran {s t : State} (h : s.Inv) (hran : s.Ran t)
    (hidle : t.seq.idle = true ∧ t.seq.bitcnt = 0 ∧ t.seq.bytecnt = 0 ∧ t.seq.pos = 0) (herr : t.status.err ≠ 6) :
    t.Inv :=
  have he := hran.enumerable h.enumerable
  { he, he.lines with
    params := hran.params ▸ h.params
    idle := hidle
    err := herr
    guardRoom := by rw [hran.depth, hran.params]; exact h.guardRoom
    masked := fun hopen => by
      obtain ⟨tr, -, -, hie⟩ := hran.guard
      rw [hie, h.masked (hran.depth ▸ hopen), ite_self]
    bufWf := hran.bufWf h.bufWf
    buslistWf := hran.buslist ▸ h.buslistWf }

/-- The outcome in ERR, the sequencer ended, and nothing else. -/
theorem State.Inv.ended {s : State} (h : s.Inv) (op : BitVec 5) {err : BitVec 3} (herr : err ≠ 6) :
    ({ s with seq := Seq.ended op, status := { s.status with err := err } } : State).Inv :=
  { h with idle := ⟨rfl, rfl, rfl, rfl⟩, err := herr }

/-- GUARD_ENTER stays below the limit and masks the host (41 R151). -/
theorem exec_guardEnter_inv {s t : State} (hinv : s.Inv) (h : exec .guardEnter s = .next t) : t.Inv := by
  obtain ⟨hbelow, hat⟩ := guardEnterEffect s
  rcases Nat.lt_or_ge s.guard.depth.toNat (s.params.guardMax - 1) with hroom | hfull
  · obtain rfl := Host.Outcome.next.inj ((hbelow hroom).symm.trans h)
    have hdepth := depth_succ_toNat (Params.guardMax_le_of_wf hinv.params) hroom
    exact { hinv.ended 0x06 (err := 0) (by decide) with
      guardRoom := hdepth.trans_le hroom
      masked := fun _ => rfl }
  · obtain rfl := Host.Outcome.next.inj ((hat hfull).symm.trans h)
    exact hinv.ended 0x06 (by decide)

/-- GUARD_EXIT leaves the host masked unless it closes the last guard (41 R150). -/
theorem exec_guardExit_inv {s t : State} (hinv : s.Inv) (h : exec .guardExit s = .next t) : t.Inv := by
  obtain ⟨hopened, hclosed⟩ := guardExitEffect s
  by_cases hzero : s.guard.depth = 0
  · obtain rfl := Host.Outcome.next.inj ((hclosed hzero).symm.trans h)
    exact hinv.ended 0x07 (by decide)
  · obtain rfl := Host.Outcome.next.inj ((hopened hzero).symm.trans h)
    have hle : (s.guard.depth - 1).toNat ≤ s.guard.depth.toNat := by bv_omega
    exact { hinv.ended 0x07 (err := 0) (by decide) with
      guardRoom := hle.trans hinv.guardRoom
      masked := fun hopen => by
        have hlast : s.guard.depth ≠ 1 := fun h1 => hopen (sub_eq_zero.mpr h1)
        exact (if_neg hlast).trans (hinv.masked hzero) }

theorem exec_inv {i : Instr} {s t : State} (hinv : s.Inv) (h : exec i s = .next t) : t.Inv := by
  by_cases hent : i = .guardEnter
  · exact exec_guardEnter_inv hinv (hent ▸ h)
  by_cases hexit : i = .guardExit
  · exact exec_guardExit_inv hinv (hexit ▸ h)
  have hran := exec_ran hent hexit h
  obtain ⟨e, rfl⟩ := exec_eq_finish h
  exact hinv.ran hran ⟨rfl, rfl, rfl, rfl⟩ e.code_ne_six

theorem runWord_inv {w : Byte} {s t : State} (hinv : s.Inv) (h : runWord w s = .next t) : t.Inv := by
  cases hdec : decode w with
  | ok i => exact exec_inv hinv ((runWord_of_decode hdec s).symm.trans h)
  | error e =>
    rw [runWord_of_decode_error hdec, illegalWord_eq] at h
    obtain rfl := Host.Outcome.next.inj h
    exact hinv.ended _ (by decide)

/-! The host's writes (46 R356). -/

/-- A write to LDISC keeps LAST against VALID (10_state R40). -/
theorem valid_ofNat (v : Nat) (id : DeviceAddress) :
    SearchState.valid { ldisc := BitVec.ofNat 7 v, prevId := id } = v.testBit 6 := by
  rw [SearchState.valid, BitVec.getLsbD_ofNat, decide_eq_true (by decide), Bool.true_and]

/-- An entry of the bus list takes the bits of existing lines (20_memory R63; log 4). -/
theorem read_write_within {p : Params} {m : LineStore} (hwf : m.wf = true)
    (h : ∀ i, BusLine.within p (m.read i)) (a v : Nat) (i : Nat) :
    BusLine.within p ((m.write a (v &&& p.lineMask)).read i) := by
  rw [Store.read_write _ _ _ _ hwf]
  split
  · exact within_masked p v
  · exact h i

theorem State.Inv.writeReg {s : State} (h : s.Inv) (n v : Nat) : (s.writeReg n v).Inv := by
  unfold State.writeReg
  split
  case h_1 => exact { h with bussel := within_masked s.params v }
  case h_8 => exact { h with last := congrArg (!·) (valid_ofNat v s.search.prevId).symm }
  case h_10 =>
    split_ifs
    · exact { h with }
    · exact { h with }
    · exact { h with bufWf := Store.write_wf _ _ _ h.bufWf }
    · exact { h with
        buslist := read_write_within h.buslistWf h.buslist _ v
        buslistWf := Store.write_wf _ _ _ h.buslistWf }
    · exact h
  all_goals exact { h with }

theorem hostAccess_inv {x : HostAccess} {s t : State} (hinv : s.Inv) (h : hostAccess x s = .next t) : t.Inv := by
  cases x with
  | read n =>
    simp only [hostAccess] at h
    split_ifs at h
    obtain rfl := Host.Outcome.next.inj h
    exact { hinv with }
  | write n v =>
    simp only [hostAccess] at h
    split_ifs at h
    · exact runWord_inv hinv h
    · obtain rfl := Host.Outcome.next.inj h
      exact hinv.writeReg _ v

/-! The other inputs of the world. -/

theorem resetInside_inv {w : Byte} {k : Nat} {torn : Bool} {s t : State} (hinv : s.Inv)
    (h : resetInside w k torn s = .next t) : t.Inv := by
  obtain ⟨u, hu⟩ := runWord_next w s
  obtain ⟨e, b, hlaunch⟩ := resetAfter_eq_launch k torn s u
  rw [resetInside, hu] at h
  obtain rfl := Host.Outcome.next.inj h
  rw [hlaunch]
  exact State.launch_inv hinv.params _ _

/-- The invariant says nothing of the bus. -/
theorem State.Inv.withEnv {s : State} (h : s.Inv) (e : BusEnv) : ({ s with env := e } : State).Inv := { h with }

theorem conversionEnds_inv {i n : Nat} {reading : BitVec 16} {s t : State} (hinv : s.Inv)
    (h : conversionEnds i n reading s = .next t) : t.Inv := by
  unfold conversionEnds at h
  split at h
  · cases h
  · split at h
    · obtain rfl := Host.Outcome.next.inj h
      exact hinv.withEnv _
    · cases h
  · obtain rfl := Host.Outcome.next.inj h
    exact hinv.withEnv _

theorem perform_inv {x : Input} {s t : State} (hinv : s.Inv) (h : perform x s = .next t) : t.Inv := by
  cases x with
  | access a => exact hostAccess_inv hinv h
  | setHostIe b =>
    simp only [perform] at h
    split at h
    · rename_i hclosed
      obtain rfl := Host.Outcome.next.inj h
      exact { hinv with masked := fun hopen => absurd hclosed hopen }
    · cases h
  | preempt =>
    simp only [perform] at h
    split at h
    · exact Host.Outcome.next.inj h ▸ hinv
    · cases h
  | reset =>
    obtain rfl := Host.Outcome.next.inj h
    exact State.launch_inv hinv.params _ _
  | resetInside w k torn => exact resetInside_inv hinv h
  | attach line addr sp =>
    obtain rfl := Host.Outcome.next.inj h
    exact hinv.withEnv _
  | detach i =>
    obtain rfl := Host.Outcome.next.inj h
    exact hinv.withEnv _
  | conversionEnds i n reading => exact conversionEnds_inv hinv h

/-- Settles O9: every input that has a move keeps the invariant, and with no input pending nothing happens. -/
theorem stepKeepsTheInvariant : Obligations.StepKeepsTheInvariant := by
  intro s t hinv h
  cases hin : s.host.inputs with
  | nil =>
    simp only [step, nextInput, hin] at h
    exact Host.Outcome.next.inj h ▸ hinv
  | cons x rest =>
    rw [step_of_idle hinv.idle.1 hin] at h
    have htaken : (s.takeInput rest).Inv := { hinv with }
    exact perform_inv htaken h

end Sys2Proof.Machine

/-! Family 42_bit_transport, 1: the samples of released lines, and a command that ends after slots as a whole (42 R160
to R174, 46 R350). -/

namespace Sys2Proof.Machine

/-- Released lines sample 1 exactly when every selected one is high (41 R142, 20_memory R73). -/
theorem BusEnv.sample_iff (p : Params) (k : SampleKind) (m : BusLine) (e : BusEnv) : e.sample p k m = true ↔
    ∀ l, l < p.nLines → m.testBit l = true → e.level .rel k l = true := by
  simp only [BusEnv.sample, List.all_eq_true, List.mem_range, Bool.or_eq_true, Bool.not_eq_true',
    ← Bool.not_eq_true, ← imp_iff_not_or]

/-- The `k`-th event of a trace records what the bus gives once it has heard the `k` events before. -/
theorem BusEnv.givesAll.gives_getElem {p : Params} {e : BusEnv} {tr : List WireEvent} (h : e.givesAll p tr) {k : Nat}
    (hk : k < tr.length) : (e.replay p (tr.take k)).gives p tr[k] := by
  rw [← List.take_append_drop k tr, BusEnv.givesAll_append, List.drop_eq_getElem_cons hk] at h
  obtain ⟨-, hx, -⟩ := h
  exact hx

/-- The result register is outside what slots read or change. -/
theorem State.Slots.setRxd {s t : State} {tr : List WireEvent} (h : s.Slots tr t) (v : Byte) :
    (s.setRxd v).Slots tr (t.setRxd v) :=
  { h with regs := by rw [State.setRxd_regs, State.setRxd_regs, h.regs] }

/-- The end of a command after slots, from a start that already has PRES, the registers and BUF as the command leaves
them: the whole next state (46 R350). -/
theorem State.Slots.busResult {s u : State} {op : BitVec 5} {pres : Bool} {regs : Regs} {buf : Memory}
    {tr : List WireEvent} (h : ({ (s.start op).setPres pres with regs := regs, buf := buf } : State).Slots tr u)
    (hsel : regs.bussel = s.regs.bussel) (e : ErrCode) :
    s.busResult (u.finish e) op e pres regs s.linesReleased buf tr := by
  have hseq : (u.finish e).seq = Seq.ended op := congrArg Seq.ended h.op
  have hstatus : (u.finish e).status = { s.status with err := e.code, pres := pres } := by
    rw [State.finish_status, h.status]
    rfl
  have hlines : u.lines = s.linesReleased := by
    rw [h.lines]
    exact congrArg (fun m => s.lines.drive m .rel) hsel
  have hguard := (Guard.mk.injEq ..).mpr ⟨h.depth, h.saved⟩
  have hhost := (HostSide.mk.injEq ..).mpr ⟨h.ie, h.inputs, h.rdata⟩
  refine ⟨(State.mk.injEq ..).mpr ?_, h.gives⟩
  exact ⟨h.params, hseq, h.regs, hstatus, h.search, hlines, hguard, h.buf, h.registry, h.buslist, h.env, hhost⟩

/-- RESET as slots from a start that already has PRES (42 R160). -/
theorem busReset_slots (s : State) : ∃ t, (s.setPres s.presence).Slots [resetEvent s.regs.bussel s.presence] t ∧
    busReset s = if s.presence then .ok () t else .raised .noPresence t := by
  obtain ⟨t, hs, heq⟩ := busReset_spec s
  exact ⟨t.setPres s.presence, { hs with status := by rw [State.setPres_status, hs.status]; rfl }, heq⟩

/-- The end of a command whose rule chooses between two outcomes in one state. -/
theorem Run.close_ite (b : Bool) (e : ErrCode) (t : State) :
    (if b then Run.ok () t else .raised e t).close = t.finish (if b then .ok else e) := by
  cases b <;> rfl

/-- The devices after a bus reset: those that hear it start a transaction (20_memory R84). -/
theorem BusEnv.hear_reset_devices (p : Params) (e : BusEnv) (m : BusLine) (presence : Bool) :
    (e.hear p (resetEvent m presence)).devices = e.devices.map fun d =>
      if m.testBit d.line ∧ e.pullup.testBit d.line then ({ d with mode := .romCmd 0 0 } : Device).tick p else d := by
  simp only [← Bool.and_eq_true]
  rfl

/-- Settles O25: the one event of RESET, its sample, and what it is to the devices. -/
theorem resetSamplesPresence : Obligations.ResetSamplesPresence := by
  intro s
  obtain ⟨t, hs, heq⟩ := busReset_slots (s.start 0x08)
  have hpresence : s.presence = false ↔ ∀ l, l < s.params.nLines → s.regs.bussel.testBit l = true →
      s.env.level .rel .presence l = true := by
    rw [State.presence, Bool.not_eq_false', BusEnv.sample_iff]
  refine ⟨_, exec_of_rule heq, ?_, ?_, hpresence, fun hempty => ?_⟩
  · rw [Run.close_ite]
    exact hs.busResult rfl _
  · rw [Run.close_ite]
    exact (congrArg BusEnv.devices hs.env).trans (BusEnv.hear_reset_devices ..)
  · exact hpresence.mpr fun l _ hsel => by simp [hempty] at hsel

/-- Settles O26: the one write slot. -/
theorem writeBitSendsOneSlot : Obligations.WriteBitSendsOneSlot := fun s =>
  have hs := writeSlot_slots (s.regs.txd.getLsbD 0) (s.start 0x09)
  ⟨_, rfl, hs.busResult rfl .ok⟩

/-- Settles O27: the one read slot, whose event fixes its sample. -/
theorem readBitSamplesOneSlot : Obligations.ReadBitSamplesOneSlot := by
  intro s
  have hs := readSlot_slots (s.start 0x0A)
  obtain ⟨hsample, -⟩ := hs.gives
  refine ⟨_, (readSlot (s.start 0x0A)).1, rfl, (hs.setRxd (zext8 _)).busResult rfl .ok, ?_⟩
  exact hsample ▸ BusEnv.sample_iff s.params .slot s.regs.bussel s.env

/-- Settles O28: the eight write slots of a byte. -/
theorem writeByteIsLsbFirst : Obligations.WriteByteIsLsbFirst := fun s =>
  have hs := writeByte_slots s.regs.txd (s.start 0x0B)
  ⟨_, rfl, hs.busResult rfl .ok⟩

/-- Settles O29: the eight read slots of a byte, each of whose events fixes its sample. -/
theorem readByteIsLsbFirst : Obligations.ReadByteIsLsbFirst := by
  intro s
  have hs := readByte_slots (s.start 0x0C)
  have hresult := (hs.setRxd (readByte (s.start 0x0C)).1).busResult rfl .ok
  refine ⟨_, (readByte (s.start 0x0C)).1, rfl, hresult, fun k hk => ?_⟩
  have hlen : k < (receivedByte s.regs.bussel (readByte (s.start 0x0C)).1).length := hk
  have hsample := hs.gives.gives_getElem hlen
  simp only [receivedByte, List.getElem_map, List.getElem_range, BusEnv.gives] at hsample
  rw [hsample]
  exact BusEnv.sample_iff ..

end Sys2Proof.Machine

/-! Family 42_bit_transport, 2: what releases the selected lines (42 R174). -/

namespace Sys2Proof.Machine

/-- `t` comes from `s` with the lines selected in `s` released, the other lines unchanged, and the same selection. -/
structure State.Releases (s t : State) : Prop where
  bussel : t.regs.bussel = s.regs.bussel
  lines : t.lines = s.lines.drive s.regs.bussel .rel

/-- What slots do is to release the selected lines (42 R174). -/
theorem State.Slots.releases {s t : State} {tr : List WireEvent} (h : s.Slots tr t) : s.Releases t where
  bussel := by rw [h.regs]
  lines := h.lines

theorem State.Releases.trans {s t u : State} (h : s.Releases t) (k : t.Releases u) : s.Releases u where
  bussel := k.bussel.trans h.bussel
  lines := by rw [k.lines, h.lines, h.bussel, Lines.drive_rel_rel]

/-- Go on after an operation that released the lines, or stop there with its `raise`: R174 holds also for a command
that failed. -/
theorem Run.bind_releases {α β : Type} {s : State} {r : Run α} {f : α → State → Run β} (hr : s.Releases r.state)
    (hf : ∀ (a : α) (t : State), s.Releases t → s.Releases (f a t).state) : s.Releases (r.bind f).state := by
  cases r with
  | ok a t => exact hf a t hr
  | raised e t => exact hr

theorem Run.bind_ok_releases {α : Type} {s : State} {r : Run α} {g : State → State} (hr : s.Releases r.state)
    (hg : ∀ t : State, s.Releases t → s.Releases (g t)) : s.Releases (r.bind fun _ t => .ok () (g t)).state :=
  Run.bind_releases hr fun _ t ht => hg t ht

theorem State.Releases.writeByte {s t : State} (h : s.Releases t) (b : Byte) : s.Releases (writeByte b t) :=
  h.trans (writeByte_slots b t).releases

theorem State.Releases.sendAddr {s t : State} (h : s.Releases t) :
    s.Releases ((List.range 8).foldl sendAddrByte t) :=
  h.trans (sendAddr_slots t).releases

theorem State.Releases.withBuf {s t : State} (h : s.Releases t) (m : Memory) : s.Releases { t with buf := m } where
  bussel := h.bussel
  lines := h.lines

theorem State.Releases.readBytes {s t : State} (h : s.Releases t) {n : Nat} (hn : 0 < n) :
    s.Releases (readBytes n t) := by
  obtain ⟨bs, -, hreceived⟩ := readBytes_spec n t hn
  obtain ⟨hbussel, hlines⟩ := hreceived.slots.releases
  exact h.trans ⟨hbussel, hlines⟩

theorem busReset_releases (s : State) : s.Releases (busReset s).state := by
  obtain ⟨t, hs, heq⟩ := busReset_slots s
  have hreleases : s.Releases t := { hs.releases with }
  rw [heq]
  split <;> exact hreleases

theorem searchPass_releases (s : State) : s.Releases (searchPass s).state := by
  rcases searchPass_walked s _ rfl with ⟨e, t, ht, -, -, -, hregs, -, hlines⟩ | ⟨t, ht, -, -, hregs, -, hlines⟩ <;>
  · rw [ht]
    exact ⟨by rw [Run.state, hregs], hlines⟩

theorem address_releases (a : Addressing) (s : State) : s.Releases (address a s).state := by
  refine Run.bind_ok_releases (busReset_releases s) fun t ht => ?_
  split
  · exact ht.writeByte _
  · exact (ht.writeByte _).sendAddr

/-- The checks on a scratchpad only choose the outcome (45 R236, R238). -/
theorem checkScratchpad_state (s : State) : (checkScratchpad s).state = s := by
  unfold checkScratchpad
  split_ifs <;> rfl

/-- The check of READ_ROM touches BUF alone (45 R244). -/
theorem checkRom_state (s : State) : ∃ m, (checkRom s).state = { s with buf := m } := by
  obtain ⟨m, hzero, -⟩ := zeroRom_spec s
  unfold checkRom
  split
  · exact ⟨s.buf, rfl⟩
  · exact ⟨m, hzero⟩

theorem convert_releases (a : Addressing) (s : State) : s.Releases (convert a s).state :=
  Run.bind_ok_releases (address_releases a s) fun _ ht => ht.writeByte _

theorem readScratchpad_releases (a : Addressing) (s : State) : s.Releases (readScratchpad a s).state := by
  refine Run.bind_releases (address_releases a s) fun _ t ht => ?_
  rw [checkScratchpad_state]
  exact (ht.writeByte _).readBytes (by decide)

theorem writeScratchpad_releases (a : Addressing) (s : State) : s.Releases (writeScratchpad a s).state :=
  Run.bind_ok_releases (address_releases a s) fun t ht =>
    ht.trans (writeBytes_slots _ t (List.cons_ne_nil _ _)).releases

theorem readRom_releases (s : State) : s.Releases (readRom s).state := by
  refine Run.bind_releases (busReset_releases s) fun _ t ht => ?_
  obtain ⟨m, hcheck⟩ := checkRom_state (readBytes 8 (writeByte t.params.cmdReadRom t))
  rw [hcheck]
  exact ((ht.writeByte _).readBytes (by decide)).withBuf m

theorem readTemperature_releases (a : Addressing) (s : State) : s.Releases (readTemperature a s).state :=
  Run.bind_ok_releases (readScratchpad_releases a s) fun _ ht => { ht with }

/-- The rule of every command that runs primitives on the lines of BUSSEL and drives none high at its end. -/
theorem ruleOf_releases {i : Instr} (h : releasesLines i = true) (s : State) : s.Releases (ruleOf i s).state := by
  cases i with
  | reset => exact busReset_releases s
  | writeBit => exact (writeSlot_slots _ s).releases
  | readBit => exact { (readSlot_slots s).releases with }
  | writeByte => exact (writeByte_slots _ s).releases
  | readByte => exact { (readByte_slots s).releases with }
  | searchPass => exact searchPass_releases s
  | convert a => exact convert_releases a s
  | readScratchpad a => exact readScratchpad_releases a s
  | writeScratchpad a => exact writeScratchpad_releases a s
  | readRom => exact readRom_releases s
  | readTemperature a => exact readTemperature_releases a s
  | _ => exact absurd h Bool.false_ne_true

/-- Settles O30: every such command ends with its selected lines released and no other line touched. -/
theorem busCommandsReleaseTheLines : Obligations.BusCommandsReleaseTheLines := by
  intro i s hi
  obtain ⟨e, hclose⟩ := (ruleOf i (s.start (opcodeOf i))).close_eq_finish
  refine ⟨_, exec_of_rule rfl, fun l => ?_⟩
  have hlines : (ruleOf i (s.start (opcodeOf i))).state.lines = s.lines.drive s.regs.bussel .rel :=
    (ruleOf_releases hi _).lines
  rw [hclose, State.finish_lines, hlines]
  have hreleased := fun hsel => s.lines.drive_releasedAt s.regs.bussel l (.inl hsel)
  exact ⟨fun hsel => ⟨(hreleased hsel).drv, hreleased hsel⟩, s.lines.drive_sameAt s.regs.bussel .rel l⟩

end Sys2Proof.Machine

/-! Family 43_crc8, 1: the CRC register (43_crc8 R190, R192). -/

namespace Sys2Proof.Machine

/-- One bit step, bit by bit: the shift, and the feedback constant where the XORed bit is 1 (43_crc8 R190). -/
theorem getLsbD_crcBit (c : Byte) (x : Bool) (k : Nat) : (crcBit c x).getLsbD k =
    (c.getLsbD (k + 1) ^^ ((c.getLsbD 0 ^^ x) && Config.crcPoly.getLsbD k)) := by
  have hshift : (c >>> 1).getLsbD k = c.getLsbD (k + 1) := by rw [BitVec.getLsbD_ushiftRight, Nat.add_comm]
  unfold crcBit
  split
  · next hf => rw [BitVec.getLsbD_xor, hshift, hf, Bool.true_and]
  · next hf => rw [hshift, Bool.eq_false_iff.mpr hf, Bool.false_and, Bool.xor_false]

/-- Settles O36: bits 7, 3 and 2 are those of the feedback constant, and the shift brings 0 into bit 7. -/
theorem crcBitStep : Obligations.CrcBitStep := by
  intro c x
  have hset : ∀ k ∈ [7, 3, 2], Config.crcPoly.getLsbD k = true := by decide
  have hclear : ∀ k < 7, k ≠ 3 → k ≠ 2 → Config.crcPoly.getLsbD k = false := by decide
  have htop : c.getLsbD 8 = false := BitVec.getLsbD_of_ge c 8 (Nat.le_refl 8)
  refine ⟨?_, ?_, ?_, fun k hk h3 h2 => ?_⟩
  · rw [getLsbD_crcBit, htop, hset 7 (by decide), Bool.and_true, Bool.false_xor]
  · rw [getLsbD_crcBit, hset 3 (by decide), Bool.and_true]
  · rw [getLsbD_crcBit, hset 2 (by decide), Bool.and_true]
  · rw [getLsbD_crcBit, hclear k hk h3 h2, Bool.and_false, Bool.xor_false]

/-- Two registers that a bit step makes equal were equal: bit 7 tells bit 0, and with it the feedback. -/
theorem crcBit_injective (x : Bool) : Function.Injective (crcBit · x) := by
  intro c d h
  have hbits : ∀ k, (crcBit c x).getLsbD k = (crcBit d x).getLsbD k := fun k => congrArg (BitVec.getLsbD · k) h
  have hlow : c.getLsbD 0 = d.getLsbD 0 := by
    have h7 := hbits 7
    rw [(crcBitStep c x).1, (crcBitStep d x).1] at h7
    exact Bool.xor_left_inj.mp h7
  refine BitVec.eq_of_getLsbD_eq fun k _ => ?_
  cases k with
  | zero => exact hlow
  | succ k =>
    have hk := hbits k
    rw [getLsbD_crcBit, getLsbD_crcBit, hlow] at hk
    exact Bool.xor_left_inj.mp hk

/-- The input bit may be put into bit 0 of the register instead, and the bits above it wait there. -/
theorem crcBit_xor (c b : Byte) : crcBit (c ^^^ b) false = crcBit c (b.getLsbD 0) ^^^ (b >>> 1) := by
  refine BitVec.eq_of_getLsbD_eq fun k _ => ?_
  simp [getLsbD_crcBit, Nat.add_comm 1 k, Bool.xor_comm, Bool.xor_left_comm]

/-- `n` bit steps over the bits of `b`, against `n` bit steps of a register that holds them already: what is left of
`b` is the difference. -/
theorem foldl_crcBit_xor (c b : Byte) (n : Nat) :
    (crcBit · false)^[n] (c ^^^ b) = (List.range n).foldl (fun c k => crcBit c (b.getLsbD k)) c ^^^ (b >>> n) := by
  induction n with
  | zero => simp
  | succ n ih =>
    rw [Function.iterate_succ_apply', ih, crcBit_xor, List.range_succ, List.foldl_append, BitVec.getLsbD_ushiftRight,
      ← BitVec.shiftRight_add]
    rfl

/-- A byte step is eight bit steps without input on the exclusive or of register and byte (43_crc8 R192 (e)). -/
theorem crcByte_eq_iterate (c b : Byte) : crcByte c b = (crcBit · false)^[8] (c ^^^ b) := by
  have hdone : b >>> 8 = 0#8 := BitVec.ushiftRight_eq_zero (Nat.le_refl 8)
  rw [foldl_crcBit_xor, hdone, BitVec.xor_zero, crcByte]

/-- The register is 0 after a byte step exactly when the byte was the register. -/
theorem crcByte_eq_zero_iff (c b : Byte) : crcByte c b = 0 ↔ c = b := by
  have hzero : (crcBit · false)^[8] 0 = 0 := by decide
  rw [← BitVec.xor_eq_zero_iff (x := c), crcByte_eq_iterate]
  exact ((crcBit_injective false).iterate 8).eq_iff' hzero

/-- `crc8` is a left fold (43_crc8 R192 (b)). -/
theorem crc8_append_singleton (init : Byte) (d : List Byte) (b : Byte) :
    crc8 init (d ++ [b]) = crcByte (crc8 init d) b :=
  List.foldl_concat ..

/-- From initial value 0 the checksum of the whole is 0 exactly when the last byte is the checksum of the others. -/
theorem crc8_append_eq_zero_iff (d : List Byte) (b : Byte) : crc8 0 (d ++ [b]) = 0 ↔ crc8 0 d = b := by
  rw [crc8_append_singleton, crcByte_eq_zero_iff]

/-- Zeros leave the register 0 (43_crc8 R192). -/
theorem crc8_replicate_zero (n : Nat) : crc8 0 (List.replicate n 0) = 0 := by
  induction n with
  | zero => rfl
  | succ n ih => rw [List.replicate_succ', crc8_append_eq_zero_iff, ih]

/-- Settles O35: the fold, and the two facts about a byte step that its laws come down to. -/
theorem crcLaws : Obligations.CrcLaws := by
  refine ⟨fun _ => rfl, crc8_append_singleton, fun d => ?_, fun d b => ?_, crc8_replicate_zero, fun c b => ?_⟩
  · exact (crc8_append_eq_zero_iff d _).mpr rfl
  · exact (crc8_append_eq_zero_iff d b).mp
  · have hself : c ^^^ b ^^^ 0 = c ^^^ b := BitVec.xor_zero
    rw [crcByte_eq_iterate, crcByte_eq_iterate (c ^^^ b), hself]

end Sys2Proof.Machine

/-! Family 43_crc8, 2: the commands CRC8 and VALIDATE (43_crc8 R191, R193). -/

namespace Sys2Proof.Machine

/-- Settles O33: the check of LEN chooses between the checksum and the `raise`. -/
theorem crcCommandResult : Obligations.CrcCommandResult := by
  refine fun s => ⟨fun hlen => ?_, fun hlen => ?_⟩
  · have hrule : ruleOf .crc8 (s.start 0x10) =
        .ok () ((s.start 0x10).setRxd (crc8 s.params.crcInit (s.bufWindow s.regs.len.toNat))) :=
      if_neg (Nat.not_lt.mpr hlen)
    exact exec_of_rule hrule
  · have hrule : ruleOf .crc8 (s.start 0x10) = .raised .illegalCommand (s.start 0x10) := if_pos hlen
    exact exec_of_rule hrule

/-- The byte that answers a comparison (43_crc8 R193). -/
theorem zext8_decide (p : Prop) [Decidable p] : zext8 (decide p) = if p then 1 else 0 := by
  simp only [zext8, decide_eq_true_eq]

/-- Settles O34: the check of LEN first; then the comparison only chooses RXD. -/
theorem validateResult : Obligations.ValidateResult := by
  refine fun s => ⟨fun hlen => ?_, fun hlen => ?_⟩
  · have hrule : ruleOf .validate (s.start 0x11) = .ok () ((s.start 0x11).setRxd
        (if crc8 s.params.crcInit (s.bufWindow s.regs.len.toNat) = s.regs.txd then 1 else 0)) := by
      rw [← zext8_decide]
      exact if_neg (Nat.not_lt.mpr hlen)
    exact exec_of_rule hrule
  · have hrule : ruleOf .validate (s.start 0x11) = .raised .illegalCommand (s.start 0x11) := if_pos hlen
    exact exec_of_rule hrule

end Sys2Proof.Machine

/-! Family 44_rom_search, 1: SEARCH_INIT, the choice at a collision and the outcomes of SEARCH_PASS (44 R200
to R204). -/

namespace Sys2Proof.Machine

/-- Settles O37: the body of SEARCH_INIT in the frame of 46 R350. -/
theorem searchInitEffect : Obligations.SearchInitEffect := fun _ => ⟨exec_of_rule rfl, rfl⟩

/-! The choice and what LDISC says of it (44 R202, 10_state R40). -/

theorem searchChoice_before {ld : SearchState} {p : Nat} (hv : ld.valid = true) (hp : p < ld.discPos) :
    searchChoice ld p = idBit ld.prevId p := if_pos ⟨hv, hp⟩

theorem searchChoice_at {ld : SearchState} {p : Nat} (hv : ld.valid = true) (hp : p = ld.discPos) :
    searchChoice ld p = true := by
  subst hp
  simp [searchChoice, hv]

theorem searchChoice_after {ld : SearchState} {p : Nat} (h : ld.valid = false ∨ ld.discPos < p) :
    searchChoice ld p = false := by
  rcases h with hv | hp
  · simp [searchChoice, hv]
  · rw [searchChoice, if_neg fun h => Nat.lt_asymm hp h.2, if_neg fun h => hp.ne' h.2]

/-- A collision leaves the bit to the choice. -/
@[simp] theorem tripletBit_collision (ld : SearchState) (p : Nat) (b : Bool) :
    tripletBit ld p b b = searchChoice ld p := if_pos rfl

theorem tripletBit_of_ne {b c : Bool} (h : b ≠ c) (ld : SearchState) (p : Nat) : tripletBit ld p b c = b := if_neg h

theorem tripletCand_of_ne {b c : Bool} (h : b ≠ c) (ld : SearchState) (p : Nat) (cand : Option Nat) :
    tripletCand ld p b c cand = cand := if_neg fun ⟨hb, hc, _⟩ => h (hb.trans hc.symm)

@[simp] theorem tripletCand_collision (ld : SearchState) (p : Nat) (cand : Option Nat) :
    tripletCand ld p false false cand = if searchChoice ld p = false then some p else cand := by
  simp [tripletCand]

/-- The position in LDISC is the recorded one. -/
theorem discPos_ldiscOf {p : Nat} (hp : p < 64) (id : DeviceAddress) :
    SearchState.discPos { ldisc := ldiscOf (some p), prevId := id } = p := by
  have h : ∀ p < 64, ((0x40 ||| BitVec.ofNat 7 p : BitVec 7).extractLsb' 0 6).toNat = p := by decide
  exact h p hp

/-- Settles O38: the three positions against LD.POS, and what is recorded. -/
theorem collisionChoice : Obligations.CollisionChoice := by
  refine fun ld p cand => ⟨fun hv hp => ?_, fun hv hp => ?_, fun h => ?_, ?_, fun b c hne => ?_, fun hp id => ?_⟩
  · rw [tripletBit_collision, searchChoice_before hv hp]
  · rw [tripletBit_collision, searchChoice_at hv hp]
  · rw [tripletBit_collision, searchChoice_after h]
  · rw [tripletBit_collision, tripletCand_collision]
  · exact ⟨tripletBit_of_ne hne ld p, tripletCand_of_ne hne ld p cand⟩
  · exact ⟨valid_ldiscOf _ id, discPos_ldiscOf hp id, valid_ldiscOf _ id⟩

/-- Settles O39: the three outcomes of a pass, each with its trace. -/
theorem searchPassOutcomes : Obligations.SearchPassOutcomes := by
  intro s
  rcases searchPass_spec (s.start 0x15) with ⟨t, ht, hpres, hs⟩ | ⟨n, b, c, t, ht, hpres, hn, hno, hs⟩ |
    ⟨b, c, t, id, ht, hpres, hno, hs, hid⟩
  · have hp : s.presence = false := hpres
    refine ⟨t.finish .noPresence, exec_of_rule (i := .searchPass) ht, by simp [ErrCode.code],
      by simp [ErrCode.code, hp], fun _ => hs.wire, fun _ => ⟨hs.search, ?_⟩, by simp [ErrCode.code],
      by simp [ErrCode.code], ?_, hs.regs, hs.buf, hs.registry, hs.buslist, hs.lines⟩
    · simp [hs.status, State.searchInit]
    · simp [hs.status, State.searchInit, hp]
  · have hp : s.presence = true := hpres
    refine ⟨t.finish .commError, exec_of_rule (i := .searchPass) ht, by simp [ErrCode.code],
      by simp [ErrCode.code, hp], by simp [hp], fun _ => ⟨hs.search, ?_⟩, by simp [ErrCode.code],
      fun _ => ⟨n, b, c, hn, hno, hs.wire⟩, ?_, hs.regs, hs.buf, hs.registry, hs.buslist, hs.lines⟩
    · simp [hs.status, State.searchInit]
    · simp [hs.status, State.searchInit, hp]
  · have hp : s.presence = true := hpres
    refine ⟨_, exec_of_rule (i := .searchPass) ht, Or.inl rfl, by simp [Run.close, ErrCode.code, hp], by simp [hp],
      fun h => absurd rfl h, fun _ => ⟨b, c, hs.wire, fun p h => ⟨hno p h, hid p h⟩, rfl, ?_⟩,
      by simp [Run.close, ErrCode.code], ?_, hs.regs, hs.buf, hs.registry, hs.buslist, hs.lines⟩
    · simp [Run.close, valid_ldiscOf]
    · simp [Run.close, hs.status, hp]

end Sys2Proof.Machine

/-! Family 44_rom_search, 2: the outcomes of DISCOVER and what it leaves in each (44 R212 to R216). -/

namespace Sys2Proof.Machine

/-- The code 0 is that of Ok alone (60 R271). -/
theorem State.finish_err_eq_zero_iff (t : State) (e : ErrCode) : (t.finish e).status.err = 0 ↔ e = .ok := by
  cases e <;> simp [ErrCode.code]

/-- The check of step 5 leaves COUNT, or clears it, and nothing else (44 R212, R214). -/
theorem discoverCheck_cases (s : State) :
    (discoverCheck s = .ok () s ∧ ∀ j, j < s.registry.count.toNat → s.registry.entryClean s.params.crcInit j = true) ∨
      discoverCheck s = .raised .discoveryError (s.setCount 0) := by
  unfold discoverCheck
  split
  · rename_i hclean
    exact Or.inl ⟨rfl, fun j hj => List.all_eq_true.mp hclean j (List.mem_range.mpr hj)⟩
  · exact Or.inr rfl

/-- DISCOVER with legal operands: the buses of the list, then the check (44 R212). -/
theorem discover_of_le {s : State} (hn : s.regs.nbus.toNat ≤ s.params.maxBuses) : discover s =
    (discoverBuses (List.range s.regs.nbus.toNat) (s.setCount 0)).bind fun _ t => discoverCheck t :=
  if_neg (Nat.not_lt.mpr hn)

/-- Buses enumerated without error, all of whose entries are clean, are an outcome Ok (44 R212). -/
theorem discover_ok {s t : State} (hn : s.regs.nbus.toNat ≤ s.params.maxBuses)
    (ht : discoverBuses (List.range s.regs.nbus.toNat) (s.setCount 0) = .ok () t)
    (hclean : ∀ j, j < t.registry.count.toNat → t.registry.entryClean t.params.crcInit j = true) :
    discover s = .ok () t := by
  rw [discover_of_le hn, ht]
  exact if_pos (List.all_eq_true.mpr fun j hj => hclean j (List.mem_range.mp hj))

/-- Clearing COUNT after an enumeration. -/
theorem State.Enumerated.setCount {s t : State} {is : List Nat} (h : s.Enumerated is t) :
    s.Enumerated is (t.setCount 0) :=
  { h with walked := h.walked.trans (walked_setCount t 0), enumerable := h.enumerable.setCount }

/-- DISCOVER with legal operands ends in `t` with outcome `e`, having enumerated the buses of the list: with Ok, all of
them without error and every entry clean; else with COUNT = 0 (44 R212, R216). -/
theorem discover_spec (s : State) (h : s.Enumerable) (hn : s.regs.nbus.toNat ≤ s.params.maxBuses) :
    ∃ e t, (discover s).close = t.finish e ∧ (s.setCount 0).Enumerated (List.range s.regs.nbus.toNat) t ∧
      (e = .ok ∧ discoverBuses (List.range s.regs.nbus.toNat) (s.setCount 0) = .ok () t ∧
          (∀ j, j < t.registry.count.toNat → t.registry.entryClean t.params.crcInit j = true) ∧
          (∀ i l, i < s.regs.nbus.toNat → (s.buslist.read i).testBit l = true → t.lines.ReleasedAt l) ∨
        (e = .commError ∨ e = .discoveryError) ∧ t.registry.count = 0) := by
  rw [discover_of_le hn]
  rcases discoverBuses_spec (List.range s.regs.nbus.toNat) (s.setCount 0) h.setCount with
    ⟨t, ht, hk, hrel⟩ | ⟨e, t, ht, he, hk, hc⟩ <;> rw [ht]
  · rcases discoverCheck_cases t with ⟨hcheck, hclean⟩ | hcheck
    · exact ⟨.ok, t, congrArg Run.close hcheck, hk, Or.inl ⟨rfl, rfl, hclean, fun i l hi hl =>
        hrel l ⟨i, List.mem_range.mpr hi, hl⟩⟩⟩
    · exact ⟨.discoveryError, t.setCount 0, congrArg Run.close hcheck, hk.setCount, Or.inr ⟨Or.inr rfl, rfl⟩⟩
  · exact ⟨e, t, rfl, hk, Or.inr ⟨he, hc⟩⟩

/-- Settles O42: the check of NBUS comes before anything else, and an empty list leaves COUNT at 0. -/
theorem discoverOperandCheck : Obligations.DiscoverOperandCheck := by
  refine fun s => ⟨fun hbig => ?_, fun hzero => ?_⟩
  · have hrule : ruleOf .discover (s.start 0x16) = .raised .illegalCommand (s.start 0x16) := if_pos hbig
    exact exec_of_rule hrule
  · have hrule : ruleOf .discover (s.start 0x16) = .ok () ((s.start 0x16).setCount 0) := by
      have hlen : (s.start 0x16).regs.nbus.toNat = 0 := by simp [hzero]
      exact discover_ok (by omega) (by rw [hlen]; rfl) fun j hj => absurd hj (Nat.not_lt_zero j)
    exact exec_of_rule hrule

/-- The start of a command keeps what holds between the parts of DISCOVER. -/
theorem State.Inv.start_enumerable {s : State} (h : s.Inv) (op : BitVec 5) : (s.start op).Enumerable :=
  (start_ran s op).enumerable h.enumerable

/-- Settles O43: an outcome Ok is one where the check of step 5 passed. -/
theorem discoverRegistryIsClean : Obligations.DiscoverRegistryIsClean := by
  intro s t hinv hexec herr
  obtain rfl : (discover (s.start 0x16)).close = t := Host.Outcome.next.inj hexec
  by_cases hn : s.regs.nbus.toNat ≤ s.params.maxBuses
  · obtain ⟨e, t, ht, hk, ⟨rfl, -, hclean, -⟩ | ⟨he, -⟩⟩ :=
      discover_spec (s.start 0x16) (hinv.start_enumerable _) hn <;>
      rw [ht] at herr ⊢
    · have hp : t.params = s.params := hk.walked.params
      exact ⟨hp ▸ hk.enumerable.count, fun j hj => hp ▸ of_decide_eq_true (hclean j hj)⟩
    · rcases he with rfl | rfl <;> exact absurd ((t.finish_err_eq_zero_iff _).mp herr) (by decide)
  · have hrule : discover (s.start 0x16) = .raised .illegalCommand (s.start 0x16) := if_pos (Nat.lt_of_not_le hn)
    rw [hrule] at herr
    exact absurd ((State.finish_err_eq_zero_iff _ .illegalCommand).mp herr) (by decide)

/-- Settles O44: the outcomes, the frame, and bus by bus what was registered. -/
theorem discoverOutcomesAndFrame : Obligations.DiscoverOutcomesAndFrame := by
  intro s hinv hn
  have hen := hinv.start_enumerable 0x16
  obtain ⟨e, t, ht, hk, hout⟩ := discover_spec (s.start 0x16) hen hn
  have hexec : exec .discover s = .next (t.finish e) := congrArg _ ht
  have hw := hk.walked
  refine ⟨t.finish e, hexec, ?_, ?_, hw.buf, hw.buslist, hw.regs, hk.entryLines, hk.entryAddrs,
    fun l hl => hk.outside l fun i hi => hl i (List.mem_range.mp hi), ?_⟩
  · rcases hout with ⟨rfl, -⟩ | ⟨rfl | rfl, -⟩
    · exact Or.inl rfl
    · exact Or.inr (Or.inl rfl)
    · exact Or.inr (Or.inr rfl)
  · rcases hout with ⟨rfl, -⟩ | ⟨-, hc⟩
    · exact fun h => absurd rfl h
    · exact fun _ => hc
  · rcases hout with ⟨rfl, hbuses, -, hrel⟩ | ⟨he, -⟩
    · obtain ⟨hlast, ev, first, hwire, h0, hend, -, hreg, hsame⟩ := discoverBuses_found _ _ t hen.setCount hbuses
      exact ⟨fun _ i l hi hl => ⟨(hrel i l hi hl).drv, hrel i l hi hl⟩, fun _ => ⟨hlast,
        fun j hj => hsame j (Or.inr hj), ev, first, hwire, h0, hend, fun i hi => (hreg i hi).1⟩⟩
    · have hne : (t.finish e).status.err ≠ 0 := by
        rcases he with rfl | rfl <;> exact mt (t.finish_err_eq_zero_iff _).mp (by decide)
      exact ⟨fun h => absurd h hne, fun h => absurd h hne⟩

end Sys2Proof.Machine

/-! Family 44_rom_search, 3: DISCOVER of buses without any device (44 R213). -/

namespace Sys2Proof.Machine

/-- No device on any line, no line unconstrained, every line with its pull-up (20_memory R72). -/
structure BusEnv.Empty (p : Params) (e : BusEnv) : Prop where
  devices : e.devices = []
  oracle : e.oracle = 0
  pullup : e.pullup = p.lineMask

/-- On an empty bus every released line is high. -/
theorem BusEnv.Empty.sample {p : Params} {e : BusEnv} (h : e.Empty p) (k : SampleKind) (m : BusLine) :
    e.sample p k m = true := by
  refine (BusEnv.sample_iff p k m e).mpr fun l hl _ => ?_
  have hpulled : e.pulled k l = false := by simp [BusEnv.pulled, h.oracle, h.devices]
  have hpullup : e.pullup.testBit l = true := by rw [h.pullup, Params.lineMask, Nat.testBit_two_pow_sub_one]; simpa
  simp [BusEnv.level, hpulled, hpullup]

/-- An empty bus stays so, whatever is heard. -/
theorem BusEnv.Empty.replay {p : Params} {e : BusEnv} (h : e.Empty p) (tr : List WireEvent) :
    (e.replay p tr).Empty p where
  devices := by
    induction tr generalizing e with
    | nil => exact h.devices
    | cons x tr ih => exact ih ⟨by rw [BusEnv.hear_devices, h.devices, List.map_nil], h.oracle, h.pullup⟩
  oracle := (BusEnv.replay_oracle p e tr).trans h.oracle
  pullup := (BusEnv.replay_pullup p e tr).trans h.pullup

/-- Without presence a pass is its reset alone (44 R203). -/
theorem searchPass_absent {s : State} (h : s.presence = false) : ∃ t, searchPass s = .raised .noPresence t ∧
    ((s.setPres false).searchInit).Slots [resetEvent s.regs.bussel false] t := by
  obtain ⟨t, ht, hs⟩ := busReset_raised s h
  exact ⟨t.searchInit, by rw [searchPass, ht], Slots.searchInit hs⟩

/-- Without presence the pass loop of a bus ends at once, without error (44 R213). -/
theorem enumerateBus_absent {s t : State} (room : Nat) (h : searchPass s = .raised .noPresence t) :
    enumerateBus room s = .ok () t := by
  cases room <;> rw [enumerateBus, h]

/-- Bus `i` of the list selected, with the initial search state: where its pass loop begins (44 R212). -/
def State.selectBus (i : Nat) (s : State) : State :=
  ({ s with regs := { s.regs with bussel := s.buslist.read i } } : State).searchInit

theorem discoverBus_eq (i : Nat) (s : State) : discoverBus i s =
    enumerateBus (s.params.registryCapacity - s.registry.count.toNat) (s.selectBus i) := rfl

/-- `t` comes from `s` by the enumeration of the first `n` buses of the list, none with a device (44 R213). -/
structure State.FoundNone (s : State) (n : Nat) (t : State) : Prop where
  params : t.params = s.params
  buslist : t.buslist = s.buslist
  registry : t.registry = s.registry
  env : t.env = s.env.replay s.params ((List.range n).map fun i => resetEvent (s.buslist.read i) false)
  last : 0 < n → t.regs.bussel = s.buslist.read (n - 1) ∧ t.status.pres = false ∧ t.status.last = true

/-- One more empty bus: its reset without presence. -/
theorem discoverBus_empty (n : Nat) {s t : State} (h : s.env.Empty s.params) (ht : s.FoundNone n t) :
    ∃ u, discoverBus n t = .ok () u ∧ s.FoundNone (n + 1) u := by
  have hempty : t.env.Empty t.params := by rw [ht.env, ht.params]; exact h.replay _
  have hpres : (t.selectBus n).presence = false := congrArg not (hempty.sample .presence _)
  obtain ⟨u, hu, hs⟩ := searchPass_absent hpres
  refine ⟨u, enumerateBus_absent _ hu, hs.params.trans ht.params, hs.buslist.trans ht.buslist,
    hs.registry.trans ht.registry, ?_, fun _ => ⟨?_, ?_, ?_⟩⟩
  · have henv : u.env = t.env.replay t.params [resetEvent (t.buslist.read n) false] := hs.env
    rw [henv, ht.env, ht.params, ht.buslist, ← BusEnv.replay_append, List.range_succ, List.map_append]
    rfl
  · rw [hs.regs, Nat.add_sub_cancel, ← ht.buslist]
    rfl
  · rw [hs.status]
    rfl
  · rw [hs.status]
    rfl

/-- The buses of a list without any device. -/
theorem discoverBuses_empty (n : Nat) {s : State} (h : s.env.Empty s.params) :
    ∃ t, discoverBuses (List.range n) s = .ok () t ∧ s.FoundNone n t := by
  induction n with
  | zero => exact ⟨s, rfl, rfl, rfl, rfl, rfl, fun h => absurd h (Nat.lt_irrefl 0)⟩
  | succ n ih =>
    obtain ⟨t, ht, hn⟩ := ih
    obtain ⟨u, hu, hn'⟩ := discoverBus_empty n h hn
    exact ⟨u, by rw [List.range_succ, discoverBuses_concat, ht]; exact hu, hn'⟩

/-- Settles O46: one reset without presence a bus, and nothing to check. -/
theorem discoverOfEmptyBuses : Obligations.DiscoverOfEmptyBuses := by
  intro s hdev hor hpull hn
  have hempty : ((s.start 0x16).setCount 0).env.Empty s.params := ⟨hdev, hor, hpull⟩
  obtain ⟨t, ht, hf⟩ := discoverBuses_empty (s := (s.start 0x16).setCount 0) s.regs.nbus.toNat hempty
  have hcount : t.registry.count = 0 := by rw [hf.registry]; rfl
  have hrule : ruleOf .discover (s.start 0x16) = .ok () t :=
    discover_ok hn ht fun j hj => by rw [hcount] at hj; exact absurd hj (Nat.not_lt_zero j)
  refine ⟨t.finish .ok, exec_of_rule hrule, rfl, hcount, ?_, hf.last⟩
  exact (congrArg BusEnv.wire hf.env).trans (BusEnv.replay_wire _ _ _)

end Sys2Proof.Machine

/-! Family 44_rom_search, 4: what the events of a pass are to ideal responders that share a line, and what its reads
are there (20_memory R76, R78, R84). -/

namespace Sys2Proof.Machine

/-- The devices `ds`, all on line `l`, are the only ones on the bus `e`; the line has its pull-up and is not
unconstrained. Each is as it was, apart from what the end of a conversion chosen for it changes, in the mode `f`. -/
structure BusEnv.Shared (p : Params) (l : Nat) (ds : List Device) (f : Device → DeviceMode) (e : BusEnv) : Prop where
  line : l < p.nLines
  pullup : e.pullup.testBit l = true
  ideal : e.oracle.testBit l = false
  lines : ∀ d, d ∈ ds → d.line = l
  devices : ∃ now : Device → Device, e.devices = ds.map now ∧ ∀ d, d ∈ ds → (now d).Like { d with mode := f d }

theorem BusEnv.replay_cons (p : Params) (e : BusEnv) (x : WireEvent) (tr : List WireEvent) :
    e.replay p (x :: tr) = (e.hear p x).replay p tr := rfl

/-- The event of the slot `x` on line `l`. -/
def lineEvent (l : Nat) (x : Slot) : WireEvent := { mask := 2 ^ l, slot := x }

section
variable {p : Params} {l : Nat} {ds : List Device} {f g : Device → DeviceMode} {e : BusEnv}

/-- A slot whose reaction needs no more of a device than its mode and its address. -/
theorem BusEnv.Shared.hear (h : e.Shared p l ds f) (x : Slot)
    (hx : ∀ d, d ∈ ds → ∀ y : Device, y.Like { d with mode := f d } → y.react p x = { y with mode := g d }) :
    (e.hear p (lineEvent l x)).Shared p l ds g := by
  obtain ⟨now, hnow, hlike⟩ := h.devices
  refine ⟨h.line, h.pullup, h.ideal, h.lines, fun d => (now d).hear p x, ?_, fun d hd => ?_⟩
  · rw [BusEnv.hear_devices, hnow, List.map_map]
    refine List.map_congr_left fun d hd => if_pos ?_
    have hl : (now d).line = l := (hlike d hd).line.trans (h.lines d hd)
    simp [BusEnv.hears, lineEvent, hl, h.pullup]
  · exact (hlike d hd).hear (by rw [hx d hd _ (hlike d hd)]) (hx d hd _ (.refl _))

theorem BusEnv.Shared.congr (h : e.Shared p l ds f) (hfg : ∀ d, d ∈ ds → f d = g d) : e.Shared p l ds g := by
  obtain ⟨now, hnow, hlike⟩ := h.devices
  exact { h with devices := ⟨now, hnow, fun d hd => hfg d hd ▸ hlike d hd⟩ }

/-- A sample of the line is 1 exactly when no device pulls it low (20_memory R72, R73). -/
theorem BusEnv.Shared.sample_iff (h : e.Shared p l ds f) (k : SampleKind) : e.sample p k (2 ^ l) = true ↔
    ∀ d, d ∈ e.devices → d.pulls k (Config.drawPull e.samples l) = false := by
  have hlevel : e.level .rel k l = !e.pulled k l := by
    cases hp : e.pulled k l <;> simp [BusEnv.level, hp, h.pullup]
  have hline : ∀ d, d ∈ e.devices → d.line = l := by
    obtain ⟨now, hnow, hlike⟩ := h.devices
    rw [hnow]
    exact List.forall_mem_map.mpr fun d hd => (hlike d hd).line.trans (h.lines d hd)
  have hpulled : e.pulled k l = false ↔ ∀ d, d ∈ e.devices → d.pulls k (Config.drawPull e.samples l) = false := by
    rw [BusEnv.pulled, h.ideal, if_neg Bool.false_ne_true, List.any_eq_false]
    exact forall₂_congr fun d hd => by simp [hline d hd, h.pullup]
  rw [BusEnv.sample_iff, ← hpulled, ← Bool.not_eq_true', ← hlevel]
  constructor
  · exact fun ha => ha l h.line (by simp)
  · intro ha l' _ hl'
    obtain rfl : l = l' := by simpa [Nat.testBit_two_pow] using hl'
    exact ha

/-- A bus reset on the line finds presence where there is a device (20_memory R75). -/
theorem BusEnv.Shared.presence (h : e.Shared p l ds f) (hne : ds ≠ []) : e.sample p .presence (2 ^ l) = false := by
  rw [← Bool.not_eq_true, h.sample_iff]
  obtain ⟨now, hnow, -⟩ := h.devices
  obtain ⟨d, hd⟩ := List.exists_mem_of_ne_nil ds hne
  rw [hnow]
  exact fun ha => absurd (ha (now d) (List.mem_map_of_mem hd)) Bool.true_eq_false.mp

/-- A read slot on the line samples the AND of the bits the devices send (20_memory R76). -/
theorem BusEnv.Shared.read_iff (h : e.Shared p l ds f) (hc : ∀ d, d ∈ ds → f d ≠ .convert) :
    e.sample p .slot (2 ^ l) = true ↔ ∀ d, d ∈ ds → ({ d with mode := f d } : Device).sends = true := by
  obtain ⟨now, hnow, hlike⟩ := h.devices
  rw [h.sample_iff, hnow, List.forall_mem_map]
  refine forall₂_congr fun d hd => ?_
  rw [← (hlike d hd).sends (hc d hd), Device.pulls, Bool.not_eq_false']

/-! The reset and the search command (20_memory R75, R77, R84). -/

theorem BusEnv.Shared.reset (h : e.Shared p l ds f) (presence : Bool) :
    (e.hear p (resetEvent (2 ^ l) presence)).Shared p l ds fun _ => .romCmd 0 0 :=
  h.hear (.rst presence) fun _ _ _ _ => rfl

/-- The low `n` bits of a byte, gathered bit 0 first. -/
def gatheredBits (b : Byte) (n : Nat) : Byte := (List.range n).foldl (fun v k => setBit v k (b.getLsbD k)) 0

theorem gatheredBits_succ (b : Byte) (n : Nat) :
    gatheredBits b (n + 1) = setBit (gatheredBits b n) n (b.getLsbD n) := by
  rw [gatheredBits, List.range_succ, List.foldl_append]
  rfl

/-- The first bits of a ROM command. -/
theorem BusEnv.Shared.romBits (h : e.Shared p l ds fun _ => .romCmd 0 0) (b : Byte) {n : Nat} (hn : n ≤ 7) :
    (e.replay p ((List.range n).map fun k => lineEvent l (.w (b.getLsbD k)))).Shared p l ds
      fun _ => .romCmd n (gatheredBits b n) := by
  induction n with
  | zero => exact h
  | succ n ih =>
    rw [List.range_succ, List.map_append, BusEnv.replay_append]
    refine (ih (by omega)).hear (.w (b.getLsbD n)) fun d _ y hy => ?_
    have hmode : y.mode = .romCmd n (gatheredBits b n) := hy.mode
    simp [Device.react, Device.onWrite, hmode, gatheredBits_succ, show n ≠ 7 by omega]

/-- A ROM command byte puts each device into the mode of its ROM function (20_memory R84). -/
theorem BusEnv.Shared.romByte (h : e.Shared p l ds fun _ => .romCmd 0 0) (b : Byte) :
    (e.replay p (writtenByte (2 ^ l) b)).Shared p l ds fun d => d.romFunction p b := by
  have hsplit : writtenByte (2 ^ l) b =
      ((List.range 7).map fun k => lineEvent l (.w (b.getLsbD k))) ++ [lineEvent l (.w (b.getLsbD 7))] := rfl
  rw [hsplit, BusEnv.replay_append]
  refine (h.romBits b (Nat.le_refl 7)).hear (.w (b.getLsbD 7)) fun d _ y hy => ?_
  have hmode : y.mode = .romCmd 7 (gatheredBits b 7) := hy.mode
  have haddr : y.addr = d.addr := hy.addr
  have hbyte : setBit (gatheredBits b 7) 7 (b.getLsbD 7) = b := gather_byte b
  simp only [Device.react, Device.onWrite, hmode, if_true, hbyte, Device.romFunction, haddr]

/-! The triplets (20_memory R78, R84). -/

/-- The first `n` bits of an address are those of `y`. -/
abbrev Agrees (a : DeviceAddress) (y : Nat → Bool) (n : Nat) : Prop := ∀ q, q < n → a.getLsbD q = y q

/-- The mode of a device at position `n` of a pass that wrote the bits `y`: searching while it agrees with them. -/
def searchMode (y : Nat → Bool) (n phase : Nat) (d : Device) : DeviceMode :=
  if n < 64 ∧ Agrees d.addr y n then .search n phase else .off

theorem searchMode_of_agrees {y : Nat → Bool} {n : Nat} {d : Device} (hn : n < 64) (h : Agrees d.addr y n)
    (phase : Nat) : searchMode y n phase d = .search n phase := if_pos ⟨hn, h⟩

theorem searchMode_of_not_agrees {y : Nat → Bool} {n : Nat} {d : Device} (h : ¬Agrees d.addr y n) (phase : Nat) :
    searchMode y n phase d = .off := if_neg fun ha => h ha.2

/-- A silent device hears nothing it reacts to but a reset. -/
theorem Device.onRead_off {x : Device} (h : x.mode = .off) : x.onRead = { x with mode := .off } := by
  cases x
  simp_all [Device.onRead]

theorem Device.onWrite_off {x : Device} (h : x.mode = .off) (p : Params) (b : Bool) :
    x.onWrite p b = { x with mode := .off } := by
  cases x
  simp_all [Device.onWrite]

/-- A read slot of a pass: each device that still searches sends its bit in the first, its complement in the second. -/
theorem BusEnv.Shared.searchRead {y : Nat → Bool} {n phase : Nat} (h : e.Shared p l ds (searchMode y n phase))
    (hn : n < 64) (hphase : phase < 2) (b : Bool) :
    (e.sample p .slot (2 ^ l) = true ↔
      ∀ d, d ∈ ds → Agrees d.addr y n → d.addr.getLsbD n = decide (phase = 0)) ∧
      (e.hear p (lineEvent l (.r b))).Shared p l ds (searchMode y n (phase + 1)) := by
  constructor
  · have hconv : ∀ d, d ∈ ds → searchMode y n phase d ≠ .convert := fun d _ => by unfold searchMode; split <;> simp
    rw [h.read_iff hconv]
    refine forall₂_congr fun d hd => ?_
    by_cases ha : Agrees d.addr y n
    · rw [searchMode_of_agrees hn ha, forall_prop_of_true ha, Device.sends]
      obtain rfl | rfl : phase = 0 ∨ phase = 1 := by omega
      · rfl
      · show (!d.addr.getLsbD n) = true ↔ d.addr.getLsbD n = false
        rw [Bool.not_eq_true']
    · rw [searchMode_of_not_agrees ha, Device.sends]
      exact iff_of_true rfl fun ha' => absurd ha' ha
  · refine h.hear (.r b) fun d _ x hx => ?_
    have hmode : x.mode = searchMode y n phase d := hx.mode
    by_cases ha : Agrees d.addr y n
    · rw [searchMode_of_agrees hn ha] at hmode ⊢
      simp only [Device.react, Device.onRead, hmode, hphase, if_true]
    · rw [searchMode_of_not_agrees ha] at hmode ⊢
      exact Device.onRead_off hmode

/-- The write of a triplet: the devices whose bit it is go on to the next position, and none after the last. -/
theorem BusEnv.Shared.searchWrite {y : Nat → Bool} {n : Nat} (h : e.Shared p l ds (searchMode y n 2)) (hn : n < 64) :
    (e.hear p (lineEvent l (.w (y n)))).Shared p l ds (searchMode y (n + 1) 0) := by
  refine h.hear (.w (y n)) fun d _ x hx => ?_
  have hmode : x.mode = searchMode y n 2 d := hx.mode
  have haddr : x.addr = d.addr := hx.addr
  have hsucc : Agrees d.addr y (n + 1) ↔ Agrees d.addr y n ∧ d.addr.getLsbD n = y n := Nat.forall_lt_succ_right
  by_cases ha : Agrees d.addr y n
  · rw [searchMode_of_agrees hn ha] at hmode
    have hgoes : (2 = 2 ∧ y n = d.addr.getLsbD n ∧ n < 63) ↔ n + 1 < 64 ∧ Agrees d.addr y (n + 1) := by
      rw [hsucc, eq_self, true_and, and_comm, eq_comm (a := y n), and_iff_right ha, Nat.succ_lt_succ_iff]
    simp only [Device.react, Device.onWrite, hmode, haddr, searchMode, ← hgoes]
    split <;> rfl
  · rw [searchMode_of_not_agrees ha] at hmode
    rw [searchMode_of_not_agrees (mt (fun h => (hsucc.mp h).left) ha)]
    exact Device.onWrite_off hmode p (y n)

/-- The reads `b` and `c` of a triplet at position `n` among the addresses `as`, once the bits `y` were written: the AND
of the bits of those that agree so far, and of their complements (20_memory R78). -/
structure TripletReads (as : List DeviceAddress) (y : Nat → Bool) (n : Nat) (b c : Bool) : Prop where
  first : b = true ↔ ∀ a, a ∈ as → Agrees a y n → a.getLsbD n = true
  second : c = true ↔ ∀ a, a ∈ as → Agrees a y n → a.getLsbD n = false

/-- The two reads of a triplet. -/
theorem BusEnv.Shared.searchReads {y : Nat → Bool} {n : Nat} {b c : Bool} (h : e.Shared p l ds (searchMode y n 0))
    (hn : n < 64) (hg : e.givesAll p [lineEvent l (.r b), lineEvent l (.r c)]) :
    TripletReads (ds.map fun d => d.addr) y n b c ∧
      (e.replay p [lineEvent l (.r b), lineEvent l (.r c)]).Shared p l ds (searchMode y n 2) := by
  obtain ⟨hb, hc, -⟩ := hg
  obtain ⟨hfirst, h1⟩ := h.searchRead hn (by decide) b
  obtain ⟨hsecond, h2⟩ := h1.searchRead hn (by decide) c
  refine ⟨⟨?_, ?_⟩, h2⟩
  · rw [List.forall_mem_map]
    exact (iff_of_eq (congrArg (· = true) hb)).trans hfirst
  · rw [List.forall_mem_map]
    exact (iff_of_eq (congrArg (· = true) hc)).trans hsecond

/-- The triplets of a pass up to position `m`: their reads, and where they leave the devices. -/
theorem BusEnv.Shared.triplets (ld : SearchState) (b c : Nat → Bool) {y : Nat → Bool}
    (h : e.Shared p l ds (searchMode y 0 0)) {m : Nat} (hm : m ≤ 64)
    (hy : ∀ q, q < m → y q = tripletBit ld q (b q) (c q))
    (hg : e.givesAll p ((List.range m).flatMap (tripletEvents ld (2 ^ l) b c))) :
    (∀ q, q < m → TripletReads (ds.map fun d => d.addr) y q (b q) (c q)) ∧
      (e.replay p ((List.range m).flatMap (tripletEvents ld (2 ^ l) b c))).Shared p l ds (searchMode y m 0) := by
  induction m with
  | zero => exact ⟨fun q hq => absurd hq (Nat.not_lt_zero q), h⟩
  | succ m ih =>
    have hlast : [m].flatMap (tripletEvents ld (2 ^ l) b c) =
        [lineEvent l (.r (b m)), lineEvent l (.r (c m))] ++ [lineEvent l (.w (y m))] := by rw [hy m (by omega)]; rfl
    rw [List.range_succ, List.flatMap_append, hlast, BusEnv.givesAll_append, BusEnv.givesAll_append] at hg
    rw [List.range_succ, List.flatMap_append, hlast, BusEnv.replay_append]
    obtain ⟨hbefore, hpair, -⟩ := hg
    obtain ⟨hreads, hs⟩ := ih (by omega) (fun q hq => hy q (by omega)) hbefore
    obtain ⟨hread, h2⟩ := hs.searchReads (by omega) hpair
    refine ⟨fun q hq => ?_, by rw [BusEnv.replay_append]; exact h2.searchWrite (by omega)⟩
    rcases Nat.lt_succ_iff_lt_or_eq.mp hq with hq | rfl
    · exact hreads q hq
    · exact hread

end

end Sys2Proof.Machine

/-! Family 44_rom_search, 5: the order in which the passes find addresses: that of their bits, bit 0 first, 0 before 1
(44 R205, R206). -/

namespace Sys2Proof.Machine

/-! The order (30_encoding R112). -/

/-- An address as the search orders it: by its bits, bit 0 first. -/
def searchKey (a : DeviceAddress) : Lex (Fin 64 → Bool) := toLex fun i => a.getLsbD i

/-- `b` takes the branch 1 at position `q` where `a` takes 0, and they agree before. -/
structure BranchesAt (a b : DeviceAddress) (q : Nat) : Prop where
  agrees : Agrees b a.getLsbD q
  zero : a.getLsbD q = false
  one : b.getLsbD q = true

theorem searchKey_lt_iff {a b : DeviceAddress} : searchKey a < searchKey b ↔ ∃ q, q < 64 ∧ BranchesAt a b q := by
  constructor
  · rintro ⟨i, hagree, hlt⟩
    obtain ⟨hzero, hone⟩ := Bool.lt_iff.mp hlt
    exact ⟨i, i.isLt, fun q hq => (hagree ⟨q, by omega⟩ hq).symm, hzero, hone⟩
  · rintro ⟨q, hq, hagree, hzero, hone⟩
    exact ⟨⟨q, hq⟩, fun j hj => (hagree j hj).symm, Bool.lt_iff.mpr ⟨hzero, hone⟩⟩

theorem searchKey_injective : Function.Injective searchKey := by
  intro a b h
  exact BitVec.eq_of_getLsbD_eq fun i hi => congrFun (toLex_inj.mp h) ⟨i, hi⟩

/-! One triplet (44 R202, R203). -/

section
variable {as : List DeviceAddress} {ld : SearchState} {y : Nat → Bool} {n : Nat} {b c : Bool}

/-- An address still in the search whose bit is not the one written is at a collision, and the choice was made. -/
theorem TripletReads.collision (h : TripletReads as y n b c) (hy : y n = tripletBit ld n b c) {a : DeviceAddress}
    (ha : a ∈ as) (hagree : Agrees a y n) (hne : a.getLsbD n ≠ y n) :
    b = false ∧ c = false ∧ y n = searchChoice ld n := by
  cases b <;> cases c
  · exact ⟨rfl, rfl, hy⟩
  · exact absurd ((h.second.mp rfl a ha hagree).trans hy.symm) hne
  · exact absurd ((h.first.mp rfl a ha hagree).trans hy.symm) hne
  · exact absurd ((h.first.mp rfl a ha hagree).symm.trans (h.second.mp rfl a ha hagree)) (by decide)

/-- While some address is in the search, not both reads are 1. -/
theorem TripletReads.not_both (h : TripletReads as y n b c) (ha : ∃ a, a ∈ as ∧ Agrees a y n) :
    ¬(b = true ∧ c = true) := by
  rintro ⟨hb, hc⟩
  obtain ⟨a, ha, hagree⟩ := ha
  exact absurd ((h.first.mp hb a ha hagree).symm.trans (h.second.mp hc a ha hagree)) (by decide)

/-- Some address stays in the search: its bit is the one written. -/
theorem TripletReads.exists_agrees_succ (h : TripletReads as y n b c) (hy : y n = tripletBit ld n b c)
    (ha : ∃ a, a ∈ as ∧ Agrees a y n) : ∃ a, a ∈ as ∧ Agrees a y (n + 1) := by
  obtain ⟨a, ha, hagree⟩ := ha
  by_cases hbit : a.getLsbD n = y n
  · exact ⟨a, ha, Nat.forall_lt_succ_right.mpr ⟨hagree, hbit⟩⟩
  · obtain ⟨rfl, rfl, -⟩ := h.collision hy ha hagree hbit
    have hother : ∃ a', a' ∈ as ∧ Agrees a' y n ∧ a'.getLsbD n = y n := by
      cases hyn : y n
      · have hzero := mt h.first.mpr Bool.false_ne_true
        push Not at hzero
        simpa using hzero
      · have hone := mt h.second.mpr Bool.false_ne_true
        push Not at hone
        simpa using hone
    obtain ⟨a', ha', hagree', hbit'⟩ := hother
    exact ⟨a', ha', Nat.forall_lt_succ_right.mpr ⟨hagree', hbit'⟩⟩

end

/-! One pass (44 R203). -/

section
variable {as : List DeviceAddress} {ld : SearchState} {b c : Nat → Bool}

/-- At every position of a pass some address is still in the search. -/
theorem exists_agrees {y : Nat → Bool} (hne : as ≠ []) {m : Nat} (hy : ∀ q, q < m → y q = tripletBit ld q (b q) (c q))
    (hreads : ∀ q, q < m → TripletReads as y q (b q) (c q)) : ∃ a, a ∈ as ∧ Agrees a y m := by
  induction m with
  | zero =>
    obtain ⟨a, ha⟩ := List.exists_mem_of_ne_nil as hne
    exact ⟨a, ha, fun q hq => absurd hq (Nat.not_lt_zero q)⟩
  | succ m ih =>
    exact (hreads m (by omega)).exists_agrees_succ (hy m (by omega))
      (ih (fun q hq => hy q (by omega)) fun q hq => hreads q (by omega))

/-- `cand` is the last position below `n` at which some address branches off from `id`, if there is one. -/
def LastBranch (as : List DeviceAddress) (id : DeviceAddress) (n : Nat) : Option Nat → Prop
  | none => ∀ a, a ∈ as → ∀ q, q < n → ¬BranchesAt id a q
  | some p => p < n ∧ (∃ a, a ∈ as ∧ BranchesAt id a p) ∧ ∀ a, a ∈ as → ∀ q, q < n → BranchesAt id a q → q ≤ p

theorem LastBranch.succ_of_branch {id : DeviceAddress} {n : Nat} (h : ∃ a, a ∈ as ∧ BranchesAt id a n) :
    LastBranch as id (n + 1) (some n) :=
  ⟨Nat.lt_succ_self n, h, fun _ _ _ hq _ => Nat.le_of_lt_succ hq⟩

theorem LastBranch.succ_of_none {id : DeviceAddress} {n : Nat} {cand : Option Nat} (h : LastBranch as id n cand)
    (hno : ¬∃ a, a ∈ as ∧ BranchesAt id a n) : LastBranch as id (n + 1) cand := by
  have hbelow : ∀ a, a ∈ as → ∀ q, q < n + 1 → BranchesAt id a q → q < n := fun a ha q hq hbranch =>
    (Nat.lt_succ_iff_lt_or_eq.mp hq).resolve_right fun hqn => hno ⟨a, ha, hqn ▸ hbranch⟩
  cases cand with
  | none => exact fun a ha q hq hbranch => h a ha q (hbelow a ha q hq hbranch) hbranch
  | some p =>
    obtain ⟨hp, hbranch, hlast⟩ := h
    exact ⟨by omega, hbranch, fun a ha q hq hbranch => hlast a ha q (hbelow a ha q hq hbranch) hbranch⟩

/-- The candidate a pass records is the last position at which some address branches off (44 R202). -/
theorem candAfter_lastBranch {id : DeviceAddress} {m : Nat}
    (hy : ∀ q, q < m → id.getLsbD q = tripletBit ld q (b q) (c q))
    (hreads : ∀ q, q < m → TripletReads as id.getLsbD q (b q) (c q)) :
    LastBranch as id m (candAfter ld b c (List.range m) none) := by
  induction m with
  | zero => exact fun a _ q hq => absurd hq (Nat.not_lt_zero q)
  | succ m ih =>
    have hm := hreads m (by omega)
    have hym := hy m (by omega)
    have hcand : candAfter ld b c (List.range (m + 1)) none =
        tripletCand ld m (b m) (c m) (candAfter ld b c (List.range m) none) := by
      rw [candAfter, List.range_succ, List.foldl_append]
      rfl
    rw [hcand, tripletCand]
    split
    · rename_i hcoll
      obtain ⟨hb, hc, hchoice⟩ := hcoll
      have hone := mt hm.second.mpr (by simp [hc])
      push Not at hone
      obtain ⟨a, ha, hagree, hbit⟩ := hone
      exact .succ_of_branch ⟨a, ha, hagree, by rw [hym, hb, hc, tripletBit_collision, hchoice], by simpa using hbit⟩
    · rename_i hno
      refine (ih (fun q hq => hy q (by omega)) fun q hq => hreads q (by omega)).succ_of_none ?_
      rintro ⟨a, ha, hagree, hzero, hone⟩
      obtain ⟨hb, hc, hchoice⟩ := hm.collision hym ha hagree (by rw [hzero, hone]; decide)
      exact hno ⟨hb, hc, hchoice.symm.trans hzero⟩

/-- A pass from the search state `ld` among the addresses `as` found `id` and recorded `cand`. -/
structure SearchFinds (ld : SearchState) (as : List DeviceAddress) (id : DeviceAddress) (cand : Option Nat) : Prop where
  mem : id ∈ as
  choice : ∀ q, q < 64 → ∀ a, a ∈ as → Agrees a id.getLsbD q → a.getLsbD q ≠ id.getLsbD q →
    id.getLsbD q = searchChoice ld q
  last : LastBranch as id 64 cand

theorem searchFinds_of_reads {id : DeviceAddress} (hne : as ≠ [])
    (hy : ∀ q, q < 64 → id.getLsbD q = tripletBit ld q (b q) (c q))
    (hreads : ∀ q, q < 64 → TripletReads as id.getLsbD q (b q) (c q)) :
    SearchFinds ld as id (candAfter ld b c (List.range 64) none) where
  mem := by
    obtain ⟨a, ha, hagree⟩ := exists_agrees hne hy hreads
    rwa [← BitVec.eq_of_getLsbD_eq hagree]
  choice := fun q hq a ha hagree hbit =>
    have ⟨_, _, hchoice⟩ := (hreads q hq).collision (hy q hq) ha hagree hbit
    hchoice
  last := candAfter_lastBranch hy hreads

end

/-! Passes after one another (44 R205, R206). -/

section
variable {as : List DeviceAddress} {ld ld' : SearchState} {x y : DeviceAddress} {cand : Option Nat} {p : Nat}

/-- With no discrepancy to resume a pass finds the first address. -/
theorem SearchFinds.first (h : SearchFinds ld as y cand) (hv : ld.valid = false) {a : DeviceAddress} (ha : a ∈ as) :
    searchKey y ≤ searchKey a := by
  refine le_of_not_gt fun hlt => ?_
  obtain ⟨q, hq, hagree, hzero, hone⟩ := searchKey_lt_iff.mp hlt
  have hchoice := h.choice q hq a ha (fun r hr => (hagree r hr).symm) (by rw [hzero, hone]; decide)
  rw [hone, searchChoice_after (Or.inl hv)] at hchoice
  exact absurd hchoice (by decide)

/-- The search state after a pass that found `x` and recorded `p`. -/
def resumeAt (p : Nat) (x : DeviceAddress) : SearchState := { ldisc := ldiscOf (some p), prevId := x }

/-- A pass that resumes at `p` after `x` takes the branch 1 there. -/
theorem SearchFinds.branches (hx : SearchFinds ld' as x (some p)) (h : SearchFinds (resumeAt p x) as y cand) :
    BranchesAt x y p := by
  obtain ⟨hp, ⟨w, hw, hagree, hzero, hone⟩, -⟩ := hx.last
  have hv : (resumeAt p x).valid = true := valid_ldiscOf _ x
  have hpos : (resumeAt p x).discPos = p := discPos_ldiscOf hp x
  have hreplay : ∀ q, q ≤ p → Agrees x y.getLsbD q := by
    intro q
    induction q with
    | zero => exact fun _ r hr => absurd hr (Nat.not_lt_zero r)
    | succ q ih =>
      intro hq
      refine Nat.forall_lt_succ_right.mpr ⟨ih (by omega), by_contra fun hne => hne ?_⟩
      rw [h.choice q (by omega) x hx.mem (ih (by omega)) hne, searchChoice_before hv (by omega)]
      rfl
  have hyx : Agrees y x.getLsbD p := fun q hq => (hreplay p (Nat.le_refl p) q hq).symm
  refine ⟨hyx, hzero, by_contra fun hy => hy ?_⟩
  rw [h.choice p hp w hw (fun q hq => (hagree q hq).trans (hyx q hq).symm) (by rw [hone]; exact Ne.symm hy),
    searchChoice_at hv hpos.symm]

/-- A pass that resumes after `x` finds the next address. -/
theorem SearchFinds.next (hx : SearchFinds ld' as x (some p)) (h : SearchFinds (resumeAt p x) as y cand)
    {a : DeviceAddress} (ha : a ∈ as) (hlt : searchKey x < searchKey a) : searchKey y ≤ searchKey a := by
  refine le_of_not_gt fun hgt => ?_
  obtain ⟨q, hq, hxa⟩ := searchKey_lt_iff.mp hlt
  obtain ⟨r, hr, hay⟩ := searchKey_lt_iff.mp hgt
  have hxy := hx.branches h
  obtain ⟨hp, -, hlast⟩ := hx.last
  have hqp : q ≤ p := hlast a ha q hq hxa
  have hchoice := h.choice r hr a ha (fun k hk => (hay.agrees k hk).symm) (by rw [hay.zero, hay.one]; decide)
  have hrp : r ≤ p := by
    refine Nat.le_of_not_lt fun hpr => ?_
    rw [hay.one, searchChoice_after (Or.inr (by rwa [resumeAt, discPos_ldiscOf hp]))] at hchoice
    exact absurd hchoice (by decide)
  rcases Nat.lt_trichotomy q r with hqr | rfl | hrq
  · have hbits : a.getLsbD q = x.getLsbD q := (hay.agrees q hqr).symm.trans (hxy.agrees q (by omega))
    exact absurd (hxa.one.symm.trans (hbits.trans hxa.zero)) (by decide)
  · exact absurd (hxa.one.symm.trans hay.zero) (by decide)
  · have hbits : y.getLsbD r = a.getLsbD r := (hxy.agrees r (by omega)).trans (hxa.agrees r hrq).symm
    exact absurd (hay.one.symm.trans (hbits.trans hay.zero)) (by decide)

open Classical in
/-- The addresses after `x` in the order of the search. -/
noncomputable def addressesAfter (as : List DeviceAddress) (x : DeviceAddress) : List DeviceAddress :=
  as.filter fun a => decide (searchKey x < searchKey a)

theorem mem_addressesAfter {a : DeviceAddress} : a ∈ addressesAfter as x ↔ a ∈ as ∧ searchKey x < searchKey a := by
  simp [addressesAfter]

/-- Where no discrepancy was recorded no address is left. -/
theorem SearchFinds.none_after (h : SearchFinds ld as y none) : addressesAfter as y = [] := by
  refine List.eq_nil_iff_forall_not_mem.mpr fun a ha => ?_
  obtain ⟨ha, hlt⟩ := mem_addressesAfter.mp ha
  obtain ⟨q, hq, hbranch⟩ := searchKey_lt_iff.mp hlt
  exact h.last a ha q hq hbranch

/-- From the search state `ld` the passes find the addresses `todo`: the one the next pass finds, and those after it. -/
def Awaits (as : List DeviceAddress) (ld : SearchState) (todo : List DeviceAddress) : Prop :=
  ∀ y cand, SearchFinds ld as y cand → (y :: addressesAfter as y).Perm todo

/-- An address and those after it, where it is the least of those sought. -/
theorem cons_addressesAfter_perm {todo : List DeviceAddress} (hnd : as.Nodup) (htodo : todo.Nodup)
    (hmem : ∀ a, a ∈ todo ↔ a ∈ as ∧ searchKey y ≤ searchKey a) (hy : y ∈ as) :
    (y :: addressesAfter as y).Perm todo := by
  have hnot : y ∉ addressesAfter as y := fun h => lt_irrefl _ (mem_addressesAfter.mp h).2
  refine (List.perm_ext_iff_of_nodup (List.nodup_cons.mpr ⟨hnot, hnd.filter _⟩) htodo).mpr fun a => ?_
  rw [List.mem_cons, mem_addressesAfter, hmem, le_iff_lt_or_eq, searchKey_injective.eq_iff]
  constructor
  · rintro (rfl | ⟨ha, hlt⟩)
    · exact ⟨hy, Or.inr rfl⟩
    · exact ⟨ha, Or.inl hlt⟩
  · rintro ⟨ha, hlt | rfl⟩
    · exact Or.inr ⟨ha, hlt⟩
    · exact Or.inl rfl

/-- With no discrepancy to resume the passes find every address. -/
theorem awaits_all (hnd : as.Nodup) (hv : ld.valid = false) : Awaits as ld as := fun _ _ h =>
  cons_addressesAfter_perm hnd hnd (fun _ => ⟨fun ha => ⟨ha, h.first hv ha⟩, fun ha => ha.1⟩) h.mem

/-- After `x` the passes find the addresses after it. -/
theorem SearchFinds.awaits_after (hx : SearchFinds ld' as x (some p)) (hnd : as.Nodup) :
    Awaits as (resumeAt p x) (addressesAfter as x) := fun y _ h => by
  refine cons_addressesAfter_perm hnd (hnd.filter _) (fun a => ?_) h.mem
  have hxy : searchKey x < searchKey y := searchKey_lt_iff.mpr ⟨p, hx.last.1, hx.branches h⟩
  rw [mem_addressesAfter]
  exact ⟨fun ⟨ha, hlt⟩ => ⟨ha, hx.next h ha hlt⟩, fun ⟨ha, hle⟩ => ⟨ha, hxy.trans_le hle⟩⟩

end

end Sys2Proof.Machine

/-! Family 44_rom_search, 6: a pass over a line shared by ideal responders, and the discovery of all of them (44 R203 to
R206, R212). -/

namespace Sys2Proof.Machine

/-- The devices `ds` share the one selected line `l`, and the search command puts each of them into a search
(44 R203, R204, 20_memory R84). -/
structure State.Searchable (l : Nat) (ds : List Device) (f : Device → DeviceMode) (s : State) : Prop where
  shared : s.env.Shared s.params l ds f
  selected : s.regs.bussel = 2 ^ l
  sends : s.params.searchSendsCommand = true
  searches : ∀ d, d ∈ ds → d.romFunction s.params s.params.cmdSearchRom = .search 0 0

section
variable {l : Nat} {ds : List Device} {f : Device → DeviceMode} {s : State}

theorem State.Searchable.presence (h : s.Searchable l ds f) (hne : ds ≠ []) : s.presence = true := by
  rw [State.presence, h.selected, h.shared.presence hne]
  rfl

/-- After the reset and the search command every device awaits the first triplet. -/
theorem State.Searchable.searching (h : s.Searchable l ds f) (y : Nat → Bool) :
    (s.env.replay s.params (resetEvent (2 ^ l) true :: searchCommandEvents s.params (2 ^ l))).Shared s.params l ds
      (searchMode y 0 0) := by
  have hcmd : searchCommandEvents s.params (2 ^ l) = writtenByte (2 ^ l) s.params.cmdSearchRom := if_pos h.sends
  have hbyte := (h.shared.reset true).romByte s.params.cmdSearchRom
  rw [hcmd, BusEnv.replay_cons]
  exact hbyte.congr fun d hd => by
    rw [h.searches d hd, searchMode_of_agrees (by decide) fun q hq => absurd hq (Nat.not_lt_zero q)]

/-- A pass over the line: it finds one of the devices, ends Ok and leaves all of them silent (44 R203). -/
theorem State.Searchable.pass (h : s.Searchable l ds f) (hne : ds ≠ []) : ∃ id cand t tr,
    searchPass s = .ok () (searchDone { id := id, cand := cand } t) ∧
      (s.setPres true).Slots (resetEvent (2 ^ l) true :: tr) t ∧ t.env.Shared s.params l ds (fun _ => .off) ∧
      SearchFinds s.search (ds.map fun d => d.addr) id cand := by
  have hads : ds.map (fun d => d.addr) ≠ [] := by simpa using hne
  have hpres := h.presence hne
  rcases searchPass_spec s with ⟨t, ht, hno, -⟩ | ⟨n, b, c, t, ht, -, hn, -, hs⟩ |
    ⟨b, c, t, id, ht, -, -, hs, hid⟩
  · rw [hpres] at hno
    exact absurd hno (by decide)
  · rw [h.selected, List.append_assoc, ← List.cons_append] at hs
    have hgives : s.env.givesAll s.params _ := hs.gives
    obtain ⟨-, hg⟩ := (BusEnv.givesAll_append ..).mp hgives
    obtain ⟨hg, hlast⟩ := (BusEnv.givesAll_append ..).mp hg
    obtain ⟨hreads, hend⟩ := (h.searching _).triplets s.search b c (Nat.le_of_lt hn) (fun _ _ => rfl) hg
    obtain ⟨hboth, -⟩ := hend.searchReads hn hlast
    exact absurd ⟨rfl, rfl⟩ (hboth.not_both (exists_agrees hads (fun _ _ => rfl) hreads))
  · rw [h.selected, ← List.cons_append] at hs
    have hgives : s.env.givesAll s.params _ := hs.gives
    obtain ⟨-, hg⟩ := (BusEnv.givesAll_append ..).mp hgives
    obtain ⟨hreads, hend⟩ := (h.searching id.getLsbD).triplets s.search b c (Nat.le_refl 64) hid hg
    refine ⟨id, _, t, _, ht, hs, ?_, searchFinds_of_reads hads hid hreads⟩
    have henv : t.env = s.env.replay s.params _ := hs.env
    rw [henv, BusEnv.replay_append]
    exact hend.congr fun d _ => if_neg fun hlt => absurd hlt.1 (by decide)

end

/-- All devices there are, on one line that is selected (20_memory R84). -/
theorem State.searchable {s : State} {l : Nat} (hl : l < s.params.nLines) (hideal : s.env.oracle.testBit l = false)
    (hpullup : s.env.pullup.testBit l = true) (hsel : s.regs.bussel = 2 ^ l)
    (hsends : s.params.searchSendsCommand = true)
    (hds : ∀ d, d ∈ s.env.devices → d.line = l ∧ d.romFunction s.params s.params.cmdSearchRom = .search 0 0) :
    s.Searchable l s.env.devices Device.mode where
  shared := ⟨hl, hpullup, hideal, fun d hd => (hds d hd).1, fun d => d, (List.map_id _).symm, fun d _ => .refl d⟩
  selected := hsel
  sends := hsends
  searches := fun d hd => (hds d hd).2

/-- Among one address a pass finds it and records no discrepancy (44 R205). -/
theorem SearchFinds.lone {ld : SearchState} {a id : DeviceAddress} {cand : Option Nat}
    (h : SearchFinds ld [a] id cand) :
    id = a ∧ cand = none := by
  obtain rfl := List.mem_singleton.mp h.mem
  refine ⟨rfl, ?_⟩
  cases cand with
  | none => rfl
  | some p =>
    obtain ⟨-, ⟨a, ha, -, hzero, hone⟩, -⟩ := h.last
    rw [List.mem_singleton.mp ha, hzero] at hone
    exact absurd hone (by decide)

/-- Settles O41: the pass over a shared line, with one device on it. -/
theorem loneDevicePass : Obligations.LoneDevicePass := by
  intro s d halone hsel hsends hrom
  have hsearch : (s.start 0x15).Searchable d.line s.env.devices Device.mode :=
    State.searchable (s := s.start 0x15) halone.line halone.ideal halone.pullup hsel hsends
      (by rw [State.start_env, halone.devices]; exact List.forall_mem_singleton.mpr ⟨rfl, hrom⟩)
  rw [halone.devices] at hsearch
  obtain ⟨id, cand, t, tr, ht, hs, hshared, hfinds⟩ := hsearch.pass (List.cons_ne_nil d [])
  obtain ⟨rfl, rfl⟩ := hfinds.lone
  obtain ⟨now, hnow, hlike⟩ := hshared.devices
  have hx := hlike d List.mem_cons_self
  refine ⟨_, now d, exec_of_rule (i := .searchPass) ht, rfl, ?_, ?_, hs.regs, hs.buf, hs.registry, hs.buslist, hs.lines,
    hnow, hx.line, hx.addr, hx.mode, hx.still⟩
  · simp [Run.close, hs.status, ErrCode.code]
  · exact congrArg Seq.ended hs.op

/-! Registrations (44 R212). -/

/-- The registry `r'` is `r` with the addresses `found`, all on the lines `m`, registered after its entries. -/
structure Registry.Gains (r r' : Registry) (m : BusLine) (found : List DeviceAddress) : Prop where
  linesWf : r'.lines.wf = true
  addrsWf : r'.addrs.wf = true
  count : r'.count.toNat = r.count.toNat + found.length
  entries : ∀ k (hk : k < found.length), r'.lineOf (r.count.toNat + k) = m ∧
    ∀ i, i < 8 → r'.addrByte (r.count.toNat + k) i = byteAt found[k] i
  others : ∀ j, j < r.count.toNat ∨ r'.count.toNat ≤ j → r.SameEntry r' j

theorem register_gains {s : State} (hcount : s.registry.count.toNat < 255) (hl : s.registry.lines.wf = true)
    (ha : s.registry.addrs.wf = true) :
    s.registry.Gains (register s).registry s.regs.bussel [s.search.prevId] := by
  obtain ⟨hlw, haw⟩ := s.registry.writeEntry_wf s.registry.count.toNat s.regs.bussel s.search.prevId hl ha
  have hline : ∀ j, (register s).registry.lineOf j =
      if j = s.registry.count.toNat then s.regs.bussel else s.registry.lineOf j :=
    s.registry.writeEntry_lines _ _ s.search.prevId hl
  have hbyte : ∀ j i, (register s).registry.addrByte j i =
      if 8 * s.registry.count.toNat ≤ 8 * j + i ∧ 8 * j + i < 8 * s.registry.count.toNat + 8 then
        byteAt s.search.prevId (8 * j + i - 8 * s.registry.count.toNat) else s.registry.addrByte j i :=
    fun j i => s.registry.writeEntry_addrs _ s.regs.bussel _ ha (8 * j + i)
  have hn : (register s).registry.count.toNat = s.registry.count.toNat + 1 := by
    have h1 : (1 : Byte).toNat = 1 := rfl
    exact BitVec.toNat_add_of_lt (by omega)
  refine ⟨hlw, haw, hn, fun k hk => ?_, fun j hj => ⟨?_, fun i hi => ?_⟩⟩
  · obtain rfl : k = 0 := by simpa using hk
    refine ⟨(hline _).trans (if_pos rfl), fun i hi => ?_⟩
    rw [hbyte, if_pos (by omega)]
    simp
  · exact (hline j).trans (if_neg (by omega))
  · exact (hbyte j i).trans (if_neg (by omega))

theorem Registry.Gains.cons {r r' r'' : Registry} {m : BusLine} {a : DeviceAddress} {found : List DeviceAddress}
    (h : r.Gains r' m [a]) (k : r'.Gains r'' m found) : r.Gains r'' m (a :: found) := by
  have hc : r'.count.toNat = r.count.toNat + 1 := h.count
  have hc' := k.count
  refine ⟨k.linesWf, k.addrsWf, by rw [hc', hc, List.length_cons]; omega, fun n hn => ?_, fun j hj => ?_⟩
  · cases n with
    | zero =>
      obtain ⟨hline, hbytes⟩ := h.entries 0 (by simp)
      obtain ⟨hline', hbytes'⟩ := k.others r.count.toNat (Or.inl (by omega))
      exact ⟨hline'.trans hline, fun i hi => (hbytes' i hi).trans (hbytes i hi)⟩
    | succ n =>
      obtain ⟨hline, hbytes⟩ := k.entries n (by simpa using hn)
      rw [hc, Nat.add_assoc, Nat.add_comm 1] at hline hbytes
      exact ⟨hline, hbytes⟩
  · obtain ⟨hline, hbytes⟩ := h.others j (by omega)
    obtain ⟨hline', hbytes'⟩ := k.others j (by omega)
    exact ⟨hline'.trans hline, fun i hi => (hbytes' i hi).trans (hbytes i hi)⟩

/-- Every registered entry is one of the addresses. -/
theorem entryClean_of_gains {r r' : Registry} {m : BusLine} {found : List DeviceAddress} {init : Byte}
    (h : r.Gains r' m found) (h0 : r.count = 0)
    (hclean : ∀ a, a ∈ found → crc8 init (addrBytes a 7) = byteAt a 7) {j : Nat} (hj : j < r'.count.toNat) :
    r'.entryClean init j = true := by
  have hlen : j < found.length := by
    have hc := h.count
    rw [h0] at hc
    simpa [hc] using hj
  obtain ⟨-, hbytes⟩ := h.entries j hlen
  simp only [h0, BitVec.ofNat_eq_ofNat, BitVec.toNat_ofNat, Nat.zero_mod, Nat.zero_add] at hbytes
  have hbs : r'.addrBytes j 7 = addrBytes found[j] 7 :=
    List.map_congr_left fun i hi => hbytes i (by have := List.mem_range.mp hi; omega)
  rw [Registry.entryClean, hbs, hbytes 7 (by decide)]
  exact decide_eq_true (hclean _ (List.getElem_mem hlen))

end Sys2Proof.Machine

/-! Family 44_rom_search, 7: DISCOVER of one line that carries every device there is (44 R205, R206, R212). -/

namespace Sys2Proof.Machine

section
variable {l : Nat} {ds : List Device}

/-- A registration after a pass leaves the devices as the pass left them, ready for the next. -/
theorem State.Searchable.registered {f : Device → DeviceMode} {s t : State} (h : s.Searchable l ds f)
    (hp : t.params = s.params) (hg : t.regs = s.regs) (hshared : t.env.Shared s.params l ds fun _ => .off)
    (w : SearchWork) : (register (searchDone w t)).Searchable l ds fun _ => .off where
  shared := by rw [← hp] at hshared; exact hshared
  selected := (congrArg Regs.bussel hg).trans h.selected
  sends := (congrArg Params.searchSendsCommand hp).trans h.sends
  searches := by rw [register_params, searchDone_params, hp]; exact h.searches

/-- `t` comes from `s` by passes that registered the addresses `todo` and left no discrepancy (44 R205, R206). -/
structure State.FoundAll (s : State) (todo : List DeviceAddress) (t : State) : Prop where
  params : t.params = s.params
  regs : t.regs = s.regs
  ldisc : t.search.ldisc = 0
  found : ∃ found, found.Perm todo ∧ s.registry.Gains t.registry s.regs.bussel found ∧ t.search.prevId ∈ found

/-- The pass loop of the line registers the addresses the search state still awaits (44 R206). -/
theorem State.Searchable.enumerate (hne : ds ≠ []) (hnd : (ds.map fun d => d.addr).Nodup) (room : Nat) :
    ∀ (s : State) (f : Device → DeviceMode) (todo : List DeviceAddress), s.Searchable l ds f →
      Awaits (ds.map fun d => d.addr) s.search todo → todo.length ≤ room → s.registry.count.toNat + room ≤ 255 →
      s.registry.lines.wf = true → s.registry.addrs.wf = true →
      ∃ t, enumerateBus room s = .ok () t ∧ s.FoundAll todo t := by
  induction room with
  | zero =>
    intro s f todo h hawaits hroom
    obtain ⟨id, cand, t, tr, -, -, -, hfinds⟩ := h.pass hne
    have hlen := (hawaits id cand hfinds).length_eq
    rw [List.length_cons] at hlen
    omega
  | succ room ih =>
    intro s f todo h hawaits hroom hcount hlw haw
    obtain ⟨id, cand, t, tr, ht, hs, hshared, hfinds⟩ := h.pass hne
    have hperm := hawaits id cand hfinds
    obtain ⟨u, hu⟩ : ∃ u, register (searchDone { id := id, cand := cand } t) = u := ⟨_, rfl⟩
    have hreg : t.registry = s.registry := hs.registry
    have hgains : s.registry.Gains u.registry s.regs.bussel [id] := by
      have := register_gains (s := searchDone { id := id, cand := cand } t)
      rw [hu, searchDone_registry, searchDone_regs, hreg, hs.regs] at this
      exact this (by omega) hlw haw
    have hp : u.params = s.params := by rw [← hu]; exact hs.params
    have hregs : u.regs = s.regs := by rw [← hu]; exact hs.regs
    have hnext : u.Searchable l ds fun _ => .off := hu ▸ h.registered hs.params hs.regs hshared _
    have hsearch : u.search = { ldisc := ldiscOf cand, prevId := id } := by rw [← hu]; rfl
    have hstep : enumerateBus (room + 1) s = if cand.isSome then enumerateBus room u else .ok () u := by
      rw [← valid_ldiscOf cand id, ← hsearch, enumerateBus, ht, ← hu]
    cases cand with
    | none =>
      rw [hfinds.none_after] at hperm
      exact ⟨u, hstep, hp, hregs, by rw [hsearch]; rfl, [id], hperm, hgains, by rw [hsearch]; exact List.mem_cons_self⟩
    | some p =>
      have hlen := hperm.length_eq
      have hcount' : u.registry.count.toNat = s.registry.count.toNat + 1 := hgains.count
      rw [List.length_cons] at hlen
      have hawaits' : Awaits (ds.map fun d => d.addr) u.search (addressesAfter (ds.map fun d => d.addr) id) := by
        rw [hsearch]
        exact hfinds.awaits_after hnd
      obtain ⟨v, hv, hp', hregs', hldisc, found, hfound, hgains', hprev⟩ := ih u _ _ hnext hawaits' (by omega)
        (by omega) hgains.linesWf hgains.addrsWf
      refine ⟨v, hstep.trans hv, hp'.trans hp, hregs'.trans hregs, hldisc, id :: found, (hfound.cons id).trans hperm,
        ?_, List.mem_cons_of_mem id hprev⟩
      rw [hregs] at hgains'
      exact hgains.cons hgains'

end

theorem Params.one_le_capacity_of_wf {p : Params} (h : p.wf = true) : 1 ≤ p.registryCapacity := by
  simp only [Params.wf, Params.sizesWf, Bool.and_eq_true, decide_eq_true_eq] at h
  omega

theorem Params.one_le_maxBuses_of_wf {p : Params} (h : p.wf = true) : 1 ≤ p.maxBuses := by
  simp only [Params.wf, Params.sizesWf, Bool.and_eq_true, decide_eq_true_eq] at h
  omega

/-- One listed bus, the line `l` with its pull-up, that carries every device there is; they are ideal responders of
distinct, CRC-clean addresses, at least one and no more than the registry holds (44 R206). -/
structure State.OneBus (s : State) (l : Nat) : Prop where
  line : l < s.params.nLines
  ideal : s.env.oracle.testBit l = false
  pullup : s.env.pullup.testBit l = true
  nbus : s.regs.nbus = 1
  bus : s.buslist.read 0 = 2 ^ l
  sends : s.params.searchSendsCommand = true
  nonempty : s.env.devices ≠ []
  room : s.env.devices.length ≤ s.params.registryCapacity
  distinct : (s.env.devices.map fun d => d.addr).Nodup
  devices : ∀ d, d ∈ s.env.devices → d.line = l ∧
    d.romFunction s.params s.params.cmdSearchRom = .search 0 0 ∧
      crc8 s.params.crcInit (addrBytes d.addr 7) = byteAt d.addr 7

/-- The bus selected, its devices await the first pass. -/
theorem State.OneBus.searchable {s : State} {l : Nat} (h : s.OneBus l) :
    (((s.start 0x16).setCount 0).selectBus 0).Searchable l s.env.devices Device.mode :=
  State.searchable (s := ((s.start 0x16).setCount 0).selectBus 0) h.line h.ideal h.pullup h.bus h.sends fun d hd =>
    have ⟨hline, hrom, _⟩ := h.devices d hd
    ⟨hline, hrom⟩

/-- The entries of the devices' addresses pass the check of step 5 (44 R214). -/
theorem State.OneBus.entryClean {s : State} {l : Nat} (h : s.OneBus l) {r : Registry} {found : List DeviceAddress}
    (hgains : Registry.Gains { s.registry with count := 0 } r (2 ^ l) found)
    (hfound : found.Perm (s.env.devices.map fun d => d.addr)) (j : Nat) (hj : j < r.count.toNat) :
    r.entryClean s.params.crcInit j = true := by
  refine entryClean_of_gains hgains rfl (fun a ha => ?_) hj
  obtain ⟨d, hd, rfl⟩ := List.mem_map.mp (hfound.mem_iff.mp ha)
  obtain ⟨-, -, hclean⟩ := h.devices d hd
  exact hclean

/-- A list of one bus is that bus. -/
theorem discoverBuses_one {s t : State} (h : discoverBus 0 s = .ok () t) :
    discoverBuses (List.range 1) s = .ok () t := by
  show (discoverBus 0 s).bind _ = _
  rw [h]
  rfl

/-- DISCOVER of one bus: Ok, and its devices are what is registered. -/
theorem State.OneBus.discover {s : State} {l : Nat} (h : s.OneBus l) (hinv : s.Inv) : ∃ t found,
    exec .discover s = .next t ∧ t.status.err = 0 ∧ t.regs.bussel = 2 ^ l ∧
      found.Perm (s.env.devices.map fun d => d.addr) ∧
      Registry.Gains { s.registry with count := 0 } t.registry (2 ^ l) found ∧
      t.search.ldisc = 0 ∧ t.search.prevId ∈ found := by
  have hsearch := h.searchable
  obtain ⟨u, hu⟩ : ∃ u, ((s.start 0x16).setCount 0).selectBus 0 = u := ⟨_, rfl⟩
  have hreg : u.registry = { s.registry with count := 0 } := by rw [← hu]; rfl
  have hpar : u.params = s.params := by rw [← hu]; rfl
  have hvalid : u.search.valid = false := by rw [← hu]; exact valid_ldiscOf none 0
  rw [hu] at hsearch
  have hcap := Params.capacity_le_of_wf hinv.params
  have hcount : u.registry.count.toNat = 0 := by rw [hreg]; rfl
  obtain ⟨t, ht, hp, hregs, hldisc, found, hfound, hgains, hprev⟩ := hsearch.enumerate h.nonempty h.distinct
    s.params.registryCapacity u _ _ (awaits_all h.distinct hvalid) (by rw [List.length_map]; exact h.room) (by omega)
    (by rw [hreg]; exact hinv.linesWf) (by rw [hreg]; exact hinv.addrsWf)
  rw [hreg, hsearch.selected] at hgains
  have hone : s.regs.nbus.toNat = 1 := by rw [h.nbus]; rfl
  have hbus : discoverBus 0 ((s.start 0x16).setCount 0) = .ok () t := by rw [discoverBus_eq, hu]; exact ht
  have hrule : ruleOf .discover (s.start 0x16) = .ok () t :=
    discover_ok (hone.trans_le (Params.one_le_maxBuses_of_wf hinv.params))
      (by rw [State.start_regs, hone]; exact discoverBuses_one hbus)
      (by rw [hp, hpar]; exact h.entryClean hgains hfound)
  exact ⟨t.finish .ok, found, exec_of_rule hrule, rfl, (congrArg Regs.bussel hregs).trans hsearch.selected, hfound,
    hgains, hldisc, hprev⟩

/-- Settles O48: what is registered is a rearrangement of the devices' addresses. -/
theorem discoverFindsEveryDevice : Obligations.DiscoverFindsEveryDevice := by
  intro s l hinv hl hideal hpullup hnbus hbus hsends hne hroom hdistinct hdevices
  have hone : s.OneBus l := ⟨hl, hideal, hpullup, hnbus, hbus, hsends, hne, hroom, hdistinct, hdevices⟩
  obtain ⟨t, found, hexec, herr, -, hfound, hgains, -⟩ := hone.discover hinv
  have hcount : t.registry.count.toNat = found.length := hgains.count.trans (Nat.zero_add _)
  refine ⟨t, hexec, herr, by rw [hcount, hfound.length_eq, List.length_map], fun d hd => ?_⟩
  obtain ⟨j, hj, hjd⟩ := List.getElem_of_mem (hfound.mem_iff.mpr (List.mem_map_of_mem hd))
  obtain ⟨hline, hbytes⟩ := hgains.entries j hj
  have h0 : (0 : Byte).toNat + j = j := Nat.zero_add j
  rw [h0] at hline hbytes
  exact ⟨j, by rw [hcount]; exact hj, hline, fun i hi => by rw [hbytes i hi, hjd]⟩

/-- Settles O47: with one device what is registered is its address. -/
theorem loneDeviceDiscovery : Obligations.LoneDeviceDiscovery := by
  intro s d hinv halone hnbus hbus hsends hrom hcrc
  have hone : s.OneBus d.line :=
    { line := halone.line, ideal := halone.ideal, pullup := halone.pullup, nbus := hnbus, bus := hbus, sends := hsends,
      nonempty := by rw [halone.devices]; exact List.cons_ne_nil d []
      room := by rw [halone.devices]; exact Params.one_le_capacity_of_wf hinv.params
      distinct := by rw [halone.devices]; exact List.nodup_singleton _
      devices := by rw [halone.devices]; exact List.forall_mem_singleton.mpr ⟨rfl, hrom, hcrc⟩ }
  obtain ⟨t, found, hexec, herr, hsel, hfound, hgains, hldisc, hprev⟩ := hone.discover hinv
  rw [halone.devices] at hfound
  obtain rfl : found = [d.addr] := List.perm_singleton.mp hfound
  have hcount : t.registry.count = 1 := BitVec.eq_of_toNat_eq hgains.count
  obtain ⟨hline, hbytes⟩ := hgains.entries 0 (by simp)
  refine ⟨t, hexec, herr, hcount, hline, hbytes, fun j hj => hgains.others j (Or.inr (by rw [hcount]; exact hj)), hsel,
    ?_⟩
  rw [← List.mem_singleton.mp hprev, ← hldisc]

end Sys2Proof.Machine

/-! Family 45_sensor_protocol, 1: the sensor commands that send bytes and read none, and every sensor command without
presence (45 R230, R232, R240, R242, 60 R272). -/

namespace Sys2Proof.Machine

/-- `Address(A)` and the bytes sent after it, with presence: the commands of 45 R232, R240 and R242 differ in these
bytes only. -/
theorem address_writeBytes (a : Addressing) {s : State} (h : s.presence = true) :
    ∃ t, address a s = .ok () t ∧ t.params = s.params ∧ t.regs = s.regs ∧ ∀ bs, bs ≠ [] →
      (s.setPres true).Slots (resetEvent s.regs.bussel true :: writtenBytes s.regs.bussel (addressBytes a s ++ bs))
        (writeBytes bs t) := by
  obtain ⟨t, ht, hs⟩ := address_ok a s h
  refine ⟨t, ht, hs.params, hs.regs, fun bs hbs => ?_⟩
  have hbytes := writeBytes_slots bs t hbs
  rw [hs.regs] at hbytes
  simpa [writtenBytes] using hs.trans hbytes

theorem Run.bind_of_ok {α β : Type} {r : Run α} {a : α} {t : State} (h : r = .ok a t) (f : α → State → Run β) :
    r.bind f = f a t := by rw [h, Run.bind]

theorem Run.bind_of_raised {α β : Type} {r : Run α} {e : ErrCode} {t : State} (h : r = .raised e t)
    (f : α → State → Run β) : r.bind f = .raised e t := by rw [h, Run.bind]

/-- Settles O49: the one byte after the addressing is the start-conversion byte. -/
theorem convertTransaction : Obligations.ConvertTransaction := by
  intro a s hpres
  obtain ⟨t, ht, hparams, -, hsent⟩ := address_writeBytes a (s := s.start 0x18) hpres
  have hs := hsent [t.params.cmdConvertT] (List.cons_ne_nil _ _)
  rw [hparams] at hs
  refine ⟨_, exec_of_rule (i := .convert a) (Run.bind_of_ok ht _), ?_⟩
  rw [hparams]
  cases a <;> exact hs.busResult rfl .ok

/-- Settles O50: the command byte and the three arguments follow the addressing. -/
theorem writeScratchpadTransaction : Obligations.WriteScratchpadTransaction := by
  intro a s hpres
  obtain ⟨t, ht, hparams, hregs, hsent⟩ := address_writeBytes a (s := s.start 0x1A) hpres
  have hs := hsent [t.params.cmdWriteScratchpad, t.regs.argTh, t.regs.argTl, t.regs.argCfg] (List.cons_ne_nil _ _)
  refine ⟨_, exec_of_rule (i := .writeScratchpad a) (Run.bind_of_ok ht _), ?_⟩
  rw [hparams, hregs] at hs ⊢
  exact hs.busResult rfl .ok

/-- Releasing and then driving high leaves what driving high leaves. -/
theorem Lines.drive_rel_high (ln : Lines) (m : BusLine) : (ln.drive m .rel).drive m .high = ln.drive m .high := by
  simp only [Lines.drive, Lines.mk.injEq, Nat.or_assoc, Nat.or_self, true_and]
  refine Nat.eq_of_testBit_eq fun l => ?_
  cases hm : m.testBit l <;> simp [hm]

/-- `LineDrive` after the slots of a command changes no more of its result than the latches. -/
theorem State.busResult.lineDrive {s u : State} {op : BitVec 5} {e : ErrCode} {pres : Bool} {regs : Regs}
    {lines : Lines} {buf : Memory} {tr : List WireEvent} (h : s.busResult (u.finish e) op e pres regs lines buf tr)
    (m : BusLine) (d : Drive) :
    s.busResult ((u.lineDrive m d).finish e) op e pres regs (lines.drive m d) buf tr := by
  obtain ⟨hstate, hgives⟩ := h
  exact ⟨congrArg (State.lineDrive m d) hstate, hgives⟩

/-- Presence is sampled on some selected line: the empty selection has none (42 R160). -/
theorem State.exists_selected_of_presence {s : State} (h : s.presence = true) :
    ∃ l, s.regs.bussel.testBit l = true := by
  by_contra hnone
  have hhigh : s.env.sample s.params .presence s.regs.bussel = true :=
    (BusEnv.sample_iff ..).mpr fun l _ hl => absurd ⟨l, hl⟩ hnone
  simp [State.presence, hhigh] at h

/-- Settles O51: the copy byte follows the addressing, then the selected lines, of which presence needs one, are driven
high. -/
theorem copyScratchpadHoldsTheLinesHigh : Obligations.CopyScratchpadHoldsTheLinesHigh := by
  intro a s hpres
  obtain ⟨t, ht, hparams, hregs, hsent⟩ := address_writeBytes a (s := s.start 0x1B) hpres
  have hs := hsent [t.params.cmdCopyScratchpad] (List.cons_ne_nil _ _)
  have hreleased := State.Slots.busResult (s := s) (pres := true) (regs := s.regs) (buf := s.buf) hs rfl .ok
  have hhigh := hreleased.lineDrive t.regs.bussel .high
  rw [hparams, hregs] at hhigh
  have hlines : s.linesReleased.drive s.regs.bussel .high = s.lines.drive s.regs.bussel .high :=
    s.lines.drive_rel_high s.regs.bussel
  rw [State.start_regs, hlines] at hhigh
  refine ⟨_, exec_of_rule (i := .copyScratchpad a) (Run.bind_of_ok ht _), ?_⟩
  rw [hparams, hregs]
  have hdriven := fun l hl => (congrArg (Lines.drv · l) (congrArg State.lines hhigh.1)).trans
    ((s.lines.drv_drive s.regs.bussel .high l).trans (if_pos hl))
  obtain ⟨-, -, hspu, -⟩ := State.statusByte_testBit _
  obtain ⟨l, hl⟩ := State.exists_selected_of_presence hpres
  exact ⟨hhigh, hdriven, hspu.trans ((State.spu_iff _).mpr ⟨l, hdriven l hl⟩)⟩

/-- Every sensor command that begins with a reset stops there without presence (45 R230, 60 R272). -/
theorem sensorRule_raised {i : Instr} {a : Addressing} (hi : i = .convert a ∨ i = .readScratchpad a ∨
    i = .writeScratchpad a ∨ i = .copyScratchpad a ∨ i = .readRom ∨ i = .readTemperature a) {s : State}
    (h : s.presence = false) : ∃ t, ruleOf i s = .raised .noPresence t ∧
      (s.setPres false).Slots [resetEvent s.regs.bussel false] t := by
  obtain ⟨t, ht, hs⟩ := address_raised a s h
  obtain ⟨u, hu, hsu⟩ := busReset_raised s h
  rcases hi with rfl | rfl | rfl | rfl | rfl | rfl
  · exact ⟨t, Run.bind_of_raised ht _, hs⟩
  · exact ⟨t, Run.bind_of_raised ht _, hs⟩
  · exact ⟨t, Run.bind_of_raised ht _, hs⟩
  · exact ⟨t, Run.bind_of_raised ht _, hs⟩
  · exact ⟨u, Run.bind_of_raised hu _, hsu⟩
  · exact ⟨t, Run.bind_of_raised (Run.bind_of_raised ht _) _, hs⟩

/-- Settles O52: the `raise` of the reset propagates out of each of them. -/
theorem absentDeviceShortCircuits : Obligations.AbsentDeviceShortCircuits := by
  intro i s a hpres hi
  obtain ⟨t, ht, hs⟩ := sensorRule_raised hi (s := s.start (opcodeOf i)) hpres
  exact ⟨_, exec_of_rule ht, hs.busResult rfl .noPresence⟩

/-- The two's complement value of two bytes (45 R248). -/
theorem toInt_append_bytes (hi lo : Byte) : (hi ++ lo).toInt =
    hi.toNat * 256 + lo.toNat - if hi.getLsbD 7 then 65536 else 0 := by
  rw [BitVec.toInt_append, if_neg (by decide), BitVec.toInt_eq_msb_cond, BitVec.msb_eq_getLsbD_last]
  split <;> omega

/-- Settles O55: TEMP is the two cells side by side, high byte first. -/
theorem decodeTemperatureValue : Obligations.DecodeTemperatureValue := fun s =>
  ⟨_, rfl, rfl, toInt_append_bytes (s.buf.read 1) (s.buf.read 0)⟩

end Sys2Proof.Machine

/-! Family 45_sensor_protocol, 2: the commands that read bytes into BUF, and their checks (45 R236, R238, R244, R250). -/

namespace Sys2Proof.Machine

/-- The end of a rule that only chooses its outcome in the state it reached. -/
def Run.ending : ErrCode → State → Run Unit
  | .ok, t => .ok () t
  | e, t => .raised e t

theorem Run.close_ending (e : ErrCode) (t : State) : (Run.ending e t).close = t.finish e := by
  cases e <;> rfl

/-- What follows an operation runs only when that ended Ok (60 R283). -/
theorem Run.close_ending_bind (e : ErrCode) (t : State) (f : State → State) :
    ((Run.ending e t).bind fun _ s => .ok () (f s)).close = (if e = .ok then f t else t).finish e := by
  cases e <;> rfl

/-- The outcome of the two checks on the nine bytes of a scratchpad, in their order (45 R236, R238). -/
def scratchpadOutcome (init : Byte) (bs : List Byte) : ErrCode :=
  if bs = List.replicate 9 0 then .pullupMissing
  else if crc8 init (bs.take 8) = bs.getD 8 0 then .ok else .crcError

/-- The outcome of the check on the eight bytes of an address (45 R244). -/
def romOutcome (init : Byte) (bs : List Byte) : ErrCode :=
  if crc8 init (bs.take 7) = bs.getD 7 0 then .ok else .crcError

section
variable {u t : State} {bs : List Byte}

/-- A cell that a reception stored. -/
theorem State.Received.read_eq (h : u.Received 0 bs t) (hwf : u.buf.wf = true) {i : Nat} (hi : i < bs.length) :
    t.buf.read i = bs.getD i 0 := by
  rw [h.stored hwf, if_pos (by omega), Nat.sub_zero]

/-- The cells a reception stored, and those it left. -/
theorem State.Received.read_if (h : u.Received 0 bs t) (hwf : u.buf.wf = true) (i : Nat) :
    t.buf.read i = if i < bs.length then bs.getD i 0 else u.buf.read i := by
  simp [h.stored hwf]

/-- The checks look at the bytes received alone. -/
theorem State.Received.checkScratchpad (h : u.Received 0 bs t) (hwf : u.buf.wf = true) (hlen : bs.length = 9) :
    checkScratchpad t = Run.ending (scratchpadOutcome t.params.crcInit bs) t := by
  have hall : t.bufWindow 9 = bs := (h.window hwf 9 (by omega)).trans (List.take_of_length_le (by omega))
  have hzero : t.bufAllZero = true ↔ bs = List.replicate 9 0 := by
    rw [State.bufAllZero, hall, List.all_eq_true, List.eq_replicate_iff, and_iff_right hlen]
    simp only [decide_eq_true_eq]
  unfold Machine.checkScratchpad scratchpadOutcome
  rw [h.window hwf 8 (by omega), h.read_eq hwf (by omega)]
  simp only [hzero]
  split_ifs <;> rfl

/-- READ_ROM zeroes the cells it stored unless the check finds the address clean. -/
theorem State.Received.checkRom (h : u.Received 0 bs t) (hwf : u.buf.wf = true) (hlen : bs.length = 8) :
    checkRom t = Run.ending (romOutcome t.params.crcInit bs)
      (if crc8 t.params.crcInit (bs.take 7) = bs.getD 7 0 then t else t.zeroRom) := by
  unfold Machine.checkRom romOutcome
  rw [h.window hwf 7 (by omega), h.read_eq hwf (by omega)]
  split_ifs <;> rfl

end

/-- Settles O53: the bytes received, and the outcome the checks choose. -/
theorem readScratchpadOutcome : Obligations.ReadScratchpadOutcome := by
  intro a s hpres hwf
  obtain ⟨bs, u, t, hrule, hlen, hubuf, hreceived, hs⟩ := readScratchpad_ok a (s.start 0x19) hpres
  have huwf : u.buf.wf = true := hubuf ▸ hwf
  rw [hreceived.checkScratchpad huwf hlen] at hrule
  refine ⟨t.finish _, bs, ?_, hlen, hs.busResult rfl _, fun i => ?_⟩
  · rw [exec_of_rule (i := .readScratchpad a) hrule, Run.close_ending, hs.params]
    rfl
  · rw [State.finish_buf, hreceived.read_if huwf, hlen, hubuf]
    rfl

/-- BUF is outside what slots read or change. -/
theorem State.Slots.withBuf {s t : State} {tr : List WireEvent} (h : s.Slots tr t) (m : Memory) :
    ({ s with buf := m }).Slots tr { t with buf := m } :=
  { h with buf := rfl }

/-- Settles O54: the bytes received, zeroed where the check says so. -/
theorem readRomOutcome : Obligations.ReadRomOutcome := by
  intro s hpres hwf
  obtain ⟨bs, u, t, hrule, hlen, hubuf, hreceived, hs⟩ := readRom_ok (s.start 0x1C) hpres
  have huwf : u.buf.wf = true := hubuf ▸ hwf
  have hparams : t.params = s.params := hs.params
  have hread := hreceived.read_if huwf
  rw [hlen, hubuf] at hread
  rw [hreceived.checkRom huwf hlen, hparams] at hrule
  refine ⟨_, bs, (exec_of_rule (i := .readRom) hrule).trans (congrArg _ (Run.close_ending ..)), hlen, ?_⟩
  by_cases hclean : crc8 s.params.crcInit (bs.take 7) = bs.getD 7 0
  · simp only [romOutcome, if_pos hclean]
    exact ⟨hs.busResult rfl .ok, hread⟩
  · obtain ⟨m, hzero, hm⟩ := zeroRom_spec t
    obtain ⟨-, hcells⟩ := hm (hreceived.bufWf huwf)
    simp only [romOutcome, if_neg hclean, hzero]
    refine ⟨(hs.withBuf m).busResult rfl .crcError, fun i => ?_⟩
    rw [State.finish_buf, hcells, hread]
    split <;> rfl

/-- The decoding of BUF is outside what slots read or change. -/
theorem State.Slots.decodeTemperature {s t : State} {tr : List WireEvent} (h : s.Slots tr t) :
    ({ s with regs := { s.regs with temp := t.buf.read 1 ++ t.buf.read 0 } }).Slots tr t.decodeTemperature :=
  { h with regs := by rw [State.decodeTemperature, h.regs] }

/-- Settles O56: READ_SCRATCHPAD, and the decoding of the cells it stored when the checks let it go on. -/
theorem readTemperatureOutcome : Obligations.ReadTemperatureOutcome := by
  intro a s hpres hwf
  obtain ⟨bs, u, t, hrule, hlen, hubuf, hreceived, hs⟩ := readScratchpad_ok a (s.start 0x1E) hpres
  have huwf : u.buf.wf = true := hubuf ▸ hwf
  have hparams : t.params = s.params := hs.params
  rw [hreceived.checkScratchpad huwf hlen, hparams] at hrule
  have hdecoded : ruleOf (.readTemperature a) (s.start 0x1E) = _ :=
    congrArg (Run.bind · fun _ v => .ok () v.decodeTemperature) hrule
  have hend := Run.close_ending_bind (scratchpadOutcome s.params.crcInit bs) t State.decodeTemperature
  refine ⟨_, bs, scratchpadOutcome s.params.crcInit bs, (exec_of_rule hdecoded).trans (congrArg _ hend), hlen, rfl, ?_,
    fun i => ?_⟩
  · by_cases hok : scratchpadOutcome s.params.crcInit bs = .ok
    · have htemp : t.buf.read 1 ++ t.buf.read 0 = bs.getD 1 0 ++ bs.getD 0 0 := by
        rw [hreceived.read_eq huwf (by omega), hreceived.read_eq huwf (by omega)]
      rw [if_pos hok, if_pos hok, ← htemp]
      exact hs.decodeTemperature.busResult rfl _
    · rw [if_neg hok, if_neg hok]
      exact hs.busResult rfl _
  · rw [State.finish_buf, apply_ite State.buf, State.decodeTemperature_buf, ite_self, hreceived.read_if huwf, hlen,
      hubuf]
    rfl

end Sys2Proof.Machine

/-! Family 45_sensor_protocol, 3: bytes on the wire as one stream of bits, and what a stream is to ideal responders that
share a line (20_memory R65, R77, R82, R84). -/

namespace Sys2Proof.Machine

/-! The bits of bytes in wire order (20_memory R65). -/

/-- Bit `q` of bytes sent one after another, bit 0 first. -/
def streamBit (bs : List Byte) (q : Nat) : Bool := (bs.getD (q / 8) 0).getLsbD (q % 8)

theorem getLsbD_byteAt {w : Nat} (v : BitVec w) (i : Nat) {k : Nat} (hk : k < 8) :
    (byteAt v i).getLsbD k = v.getLsbD (8 * i + k) := by
  simp [byteAt, hk]

/-- Events that carry the bits of bytes, byte by byte, are those of the stream. -/
theorem flatMap_bits_eq_stream {α : Type} (event : Bool → α) (bs : List Byte) :
    (bs.flatMap fun b => (List.range 8).map fun k => event (b.getLsbD k)) =
      (List.range (8 * bs.length)).map fun q => event (streamBit bs q) := by
  induction bs with
  | nil => rfl
  | cons b bs ih =>
    have hfirst : ∀ k ∈ List.range 8, event (streamBit (b :: bs) k) = event (b.getLsbD k) := fun k hk => by
      have hlt := List.mem_range.mp hk
      rw [streamBit, Nat.div_eq_of_lt hlt, Nat.mod_eq_of_lt hlt, List.getD_cons_zero]
    have hrest : ∀ q, streamBit (b :: bs) (8 + q) = streamBit bs q := fun q => by
      rw [streamBit, Nat.add_div_left q (by decide), Nat.add_mod_left, List.getD_cons_succ, streamBit]
    rw [List.flatMap_cons, ih, List.length_cons, Nat.mul_succ, Nat.add_comm, List.range_add, List.map_append,
      List.map_congr_left hfirst, List.map_map]
    simp only [Function.comp_def, hrest]

/-- The bytes that carry the bits of a value are its bytes. -/
theorem getD_eq_byteAt {w : Nat} {v : BitVec w} {bs : List Byte}
    (h : ∀ q, q < 8 * bs.length → streamBit bs q = v.getLsbD q) {i : Nat} (hi : i < bs.length) :
    bs.getD i 0 = byteAt v i := by
  refine BitVec.eq_of_getLsbD_eq fun k hk => ?_
  have hbit := h (8 * i + k) (by omega)
  rwa [streamBit, Nat.mul_add_div (by decide), Nat.div_eq_of_lt hk, Nat.add_zero, Nat.mul_add_mod,
    Nat.mod_eq_of_lt hk, ← getLsbD_byteAt v i hk] at hbit

theorem streamBit_addrBytes (a : DeviceAddress) {q : Nat} (hq : q < 64) :
    streamBit (addrBytes a 8) q = a.getLsbD q := by
  have hi : q / 8 < 8 := by omega
  rw [streamBit, addrBytes, List.getD_eq_getElem _ _ (by simpa using hi), List.getElem_map, List.getElem_range,
    getLsbD_byteAt _ _ (Nat.mod_lt q (by decide)), Nat.div_add_mod]

/-- The events that send an address: its bits in order (20_memory R77). -/
theorem writtenBytes_addrBytes (l : Nat) (a : DeviceAddress) : writtenBytes (2 ^ l) (addrBytes a 8) =
    (List.range 64).map fun q => lineEvent l (.w (a.getLsbD q)) := by
  refine (flatMap_bits_eq_stream (fun b => lineEvent l (.w b)) (addrBytes a 8)).trans ?_
  exact List.map_congr_left fun q hq => by rw [streamBit_addrBytes a (List.mem_range.mp hq)]

theorem receivedBytes_eq_stream (l : Nat) (bs : List Byte) : receivedBytes (2 ^ l) bs =
    (List.range (8 * bs.length)).map fun q => lineEvent l (.r (streamBit bs q)) :=
  flatMap_bits_eq_stream (fun b => lineEvent l (.r b)) bs

/-! The devices (20_memory R84). -/

section
variable {p : Params} {l : Nat} {ds : List Device} {e : BusEnv}

/-- The bits of an address match a device that has it, one after the other. -/
theorem BusEnv.Shared.matchBits (h : e.Shared p l ds fun _ => .matchRom 0) {a : DeviceAddress}
    (ha : ∀ d, d ∈ ds → d.addr = a) {n : Nat} (hn : n ≤ 63) :
    (e.replay p ((List.range n).map fun q => lineEvent l (.w (a.getLsbD q)))).Shared p l ds fun _ => .matchRom n := by
  induction n with
  | zero => exact h
  | succ n ih =>
    rw [List.range_succ, List.map_append, BusEnv.replay_append]
    refine (ih (by omega)).hear (.w (a.getLsbD n)) fun d hd y hy => ?_
    have hmode : y.mode = .matchRom n := hy.mode
    have haddr : y.addr = a := hy.addr.trans (ha d hd)
    simp [Device.react, Device.onWrite, hmode, haddr, show n ≠ 63 by omega]

/-- A device addressed by all its bits awaits a function command. -/
theorem BusEnv.Shared.matchAddr (h : e.Shared p l ds fun _ => .matchRom 0) {a : DeviceAddress}
    (ha : ∀ d, d ∈ ds → d.addr = a) :
    (e.replay p (writtenBytes (2 ^ l) (addrBytes a 8))).Shared p l ds fun _ => .funcCmd 0 0 := by
  have hsplit : writtenBytes (2 ^ l) (addrBytes a 8) =
      ((List.range 63).map fun q => lineEvent l (.w (a.getLsbD q))) ++ [lineEvent l (.w (a.getLsbD 63))] := by
    rw [writtenBytes_addrBytes, List.range_succ, List.map_append]
    rfl
  rw [hsplit, BusEnv.replay_append]
  refine (h.matchBits ha (Nat.le_refl 63)).hear (.w (a.getLsbD 63)) fun d hd y hy => ?_
  have hmode : y.mode = .matchRom 63 := hy.mode
  have haddr : y.addr = a := hy.addr.trans (ha d hd)
  simp [Device.react, Device.onWrite, hmode, haddr]

/-- The first bits of a function command. -/
theorem BusEnv.Shared.funcBits (h : e.Shared p l ds fun _ => .funcCmd 0 0) (b : Byte) {n : Nat} (hn : n ≤ 7) :
    (e.replay p ((List.range n).map fun k => lineEvent l (.w (b.getLsbD k)))).Shared p l ds
      fun _ => .funcCmd n (gatheredBits b n) := by
  induction n with
  | zero => exact h
  | succ n ih =>
    rw [List.range_succ, List.map_append, BusEnv.replay_append]
    refine (ih (by omega)).hear (.w (b.getLsbD n)) fun d _ y hy => ?_
    have hmode : y.mode = .funcCmd n (gatheredBits b n) := hy.mode
    simp [Device.react, Device.onWrite, hmode, gatheredBits_succ, show n ≠ 7 by omega]

/-- The read command makes each device for whose conversion no end is chosen send its scratchpad (20_memory R82). -/
theorem BusEnv.Shared.readCommand (h : e.Shared p l ds fun _ => .funcCmd 0 0)
    (hstill : ∀ d, d ∈ ds → d.busy = true → d.due = []) (hc : p.cmdReadScratchpad ≠ p.cmdConvertT) :
    (e.replay p (writtenByte (2 ^ l) p.cmdReadScratchpad)).Shared p l ds fun d => .send d.sp 72 := by
  have hsplit : ∀ b, writtenByte (2 ^ l) b =
      ((List.range 7).map fun k => lineEvent l (.w (b.getLsbD k))) ++ [lineEvent l (.w (b.getLsbD 7))] := fun _ => rfl
  rw [hsplit, BusEnv.replay_append]
  refine (h.funcBits _ (Nat.le_refl 7)).hear _ fun d hd y hy => ?_
  obtain rfl := hy.still (hstill d hd)
  have hbyte : setBit (gatheredBits p.cmdReadScratchpad 7) 7 (p.cmdReadScratchpad.getLsbD 7) = p.cmdReadScratchpad :=
    gather_byte _
  simp only [Device.react, Device.onWrite, if_true, hbyte, Device.function, if_neg hc]

/-- One read slot: the next bit the devices send, all of them the same (20_memory R82). -/
theorem BusEnv.Shared.sendBit {bits : BitVec 72} {left : Nat} (h : e.Shared p l ds fun _ => .send bits left)
    (hne : ds ≠ []) (hleft : 0 < left) (b : Bool) : e.sample p .slot (2 ^ l) = bits.getLsbD 0 ∧
      (e.hear p (lineEvent l (.r b))).Shared p l ds fun _ => .send (bits >>> 1) (left - 1) := by
  have hsends : ∀ d : Device, ({ d with mode := .send bits left } : Device).sends = bits.getLsbD 0 := fun d => by
    simp only [Device.sends, decide_eq_false (Nat.pos_iff_ne_zero.mp hleft), Bool.false_or]
  constructor
  · obtain ⟨d, hd⟩ := List.exists_mem_of_ne_nil ds hne
    rw [Bool.eq_iff_iff, h.read_iff fun _ _ => DeviceMode.noConfusion]
    exact ⟨fun ha => hsends d ▸ ha d hd, fun ha d _ => (hsends d).trans ha⟩
  · refine h.hear (.r b) fun d _ y hy => ?_
    have hmode : y.mode = .send bits left := hy.mode
    simp only [Device.react, Device.onRead, hmode]

/-- Read slots in a row sample the bits the devices send, in order. -/
theorem BusEnv.Shared.sendBits {bits : BitVec 72} {left : Nat} (h : e.Shared p l ds fun _ => .send bits left)
    (hne : ds ≠ []) (x : Nat → Bool) {n : Nat} (hn : n ≤ left)
    (hg : e.givesAll p ((List.range n).map fun q => lineEvent l (.r (x q)))) :
    (∀ q, q < n → x q = bits.getLsbD q) ∧
      (e.replay p ((List.range n).map fun q => lineEvent l (.r (x q)))).Shared p l ds
        fun _ => .send (bits >>> n) (left - n) := by
  induction n with
  | zero => exact ⟨fun q hq => absurd hq (Nat.not_lt_zero q), by simpa using h⟩
  | succ n ih =>
    rw [List.range_succ, List.map_append, BusEnv.givesAll_append] at hg
    obtain ⟨hbefore, hlast, -⟩ := hg
    obtain ⟨hbits, hs⟩ := ih (by omega) hbefore
    obtain ⟨hsample, hnext⟩ := hs.sendBit hne (by omega) (x n)
    refine ⟨fun q hq => ?_, ?_⟩
    · rcases Nat.lt_succ_iff_lt_or_eq.mp hq with hq | rfl
      · exact hbits q hq
      · exact (hlast.trans hsample).trans (by simp)
    · rw [List.range_succ, List.map_append, BusEnv.replay_append, BitVec.shiftRight_add, Nat.sub_add_eq]
      exact hnext

/-- What is read from devices that send a value is that value, byte by byte. -/
theorem BusEnv.Shared.receivedBytes {bits : BitVec 72} {left : Nat} (h : e.Shared p l ds fun _ => .send bits left)
    (hne : ds ≠ []) {bs : List Byte} (hlen : 8 * bs.length ≤ left) (hg : e.givesAll p (receivedBytes (2 ^ l) bs))
    {i : Nat} (hi : i < bs.length) : bs.getD i 0 = byteAt bits i := by
  rw [receivedBytes_eq_stream] at hg
  exact getD_eq_byteAt (h.sendBits hne _ hlen hg).1 hi

end

end Sys2Proof.Machine

/-! Family 45_sensor_protocol, 4: the commands that read, with one ideal responder alone on the selected line (45 R244,
R250 under 20_memory R82, R84). -/

namespace Sys2Proof.Machine

/-- A device alone shares its line with no other. -/
theorem State.Alone.shared {s : State} {d : Device} (h : s.Alone d) :
    s.env.Shared s.params d.line [d] Device.mode where
  line := h.line
  pullup := h.pullup
  ideal := h.ideal
  lines := List.forall_mem_singleton.mpr rfl
  devices := ⟨id, h.devices, fun d _ => .refl d⟩

/-- A bus reset finds a device on the selected line (20_memory R75). -/
theorem State.Alone.presence {s : State} {d : Device} (h : s.Alone d) (hsel : s.regs.bussel = 2 ^ d.line) :
    s.presence = true := by
  rw [State.presence, hsel, h.shared.presence (List.cons_ne_nil d [])]
  rfl

/-- The bytes of `Address(A)` bring devices that have the address, where it is sent, to the function commands
(20_memory R77, R84). -/
theorem BusEnv.Shared.addressed {p : Params} {l : Nat} {ds : List Device} {e : BusEnv} {s : State}
    (h : e.Shared p l ds fun _ => .romCmd 0 0) (a : Addressing) (hp : s.params = p)
    (ha : a = .matched → (∀ d, d ∈ ds → d.addr = s.regs.addr) ∧ p.cmdMatchRom ≠ p.cmdSkipRom) :
    (e.replay p (writtenBytes (2 ^ l) (addressBytes a s))).Shared p l ds fun _ => .funcCmd 0 0 := by
  cases a with
  | skip =>
    have hbytes : writtenBytes (2 ^ l) (addressBytes .skip s) = writtenByte (2 ^ l) p.cmdSkipRom := by
      rw [← hp]
      exact List.append_nil _
    rw [hbytes]
    exact (h.romByte p.cmdSkipRom).congr fun d _ => if_pos rfl
  | matched =>
    obtain ⟨haddr, hne⟩ := ha rfl
    have hbytes : writtenBytes (2 ^ l) (addressBytes .matched s) =
        writtenByte (2 ^ l) p.cmdMatchRom ++ writtenBytes (2 ^ l) (addrBytes s.regs.addr 8) := by
      rw [← hp]
      rfl
    rw [hbytes, BusEnv.replay_append]
    refine BusEnv.Shared.matchAddr ((h.romByte p.cmdMatchRom).congr fun d _ => ?_) haddr
    simp only [Device.romFunction, if_neg hne, if_true]

/-- Bytes that are those of a value, as a list. -/
theorem take_eq_map_byteAt {w : Nat} {v : BitVec w} {bs : List Byte}
    (h : ∀ i, i < bs.length → bs.getD i 0 = byteAt v i) {n : Nat} (hn : n ≤ bs.length) :
    bs.take n = (List.range n).map (byteAt v) := by
  refine List.ext_getElem (by simpa using hn) fun i hi _ => ?_
  rw [List.length_take, Nat.lt_min] at hi
  rw [List.getElem_take, List.getElem_map, List.getElem_range, ← h i hi.2, List.getD_eq_getElem]

/-- A value whose nine bytes are 0 is 0. -/
theorem eq_zero_of_bytes {v : Scratchpad} (h : ∀ i, i < 9 → byteAt v i = 0) : v = 0 := by
  refine BitVec.eq_of_getLsbD_eq fun q hq => ?_
  have hbyte := congrArg (BitVec.getLsbD · (q % 8)) (h (q / 8) (by omega))
  simpa [getLsbD_byteAt _ _ (Nat.mod_lt q (by decide)), Nat.div_add_mod] using hbyte

/-- A scratchpad that is clean and not all zero passes both checks (45 R236, R238). -/
theorem scratchpadOutcome_of_clean {init : Byte} {sp : Scratchpad} {bs : List Byte} (hlen : bs.length = 9)
    (hbs : ∀ i, i < bs.length → bs.getD i 0 = byteAt sp i) (hclean : scratchpadCrc init sp = byteAt sp 8)
    (hne : sp ≠ 0) : scratchpadOutcome init bs = .ok := by
  have hzero : bs ≠ List.replicate 9 0 := fun hz => hne (eq_zero_of_bytes fun i hi => by
    rw [← hbs i (by omega), hz, List.getD_replicate _ hi])
  have hcrc : crc8 init (bs.take 8) = bs.getD 8 0 := by
    rw [take_eq_map_byteAt hbs (by omega), hbs 8 (by omega)]
    exact hclean
  rw [scratchpadOutcome, if_neg hzero, if_pos hcrc]

/-- The read slots of a transaction meet the bus that has heard its reset and its bytes. -/
theorem BusEnv.givesAll.received {p : Params} {e : BusEnv} {m : BusLine} {presence : Bool} {sent bs : List Byte}
    {cmd : Byte} (h : e.givesAll p
      (resetEvent m presence :: (writtenBytes m (sent ++ [cmd]) ++ receivedBytes m bs))) :
    (((e.hear p (resetEvent m presence)).replay p (writtenBytes m sent)).replay p (writtenByte m cmd)).givesAll p
      (receivedBytes m bs) := by
  obtain ⟨-, hbytes⟩ := h
  have hsplit : writtenBytes m (sent ++ [cmd]) = writtenBytes m sent ++ writtenByte m cmd := by simp [writtenBytes]
  rw [hsplit, BusEnv.givesAll_append, BusEnv.replay_append] at hbytes
  exact hbytes.2

/-- Settles O57: the trace of O56 tells what the device sent, and with it the outcome. -/
theorem loneDeviceTemperature : Obligations.LoneDeviceTemperature := by
  intro a s d hwf halone hstill hsel hconv haddr hclean hne
  obtain ⟨t, bs, e, hexec, hlen, he, ⟨hstate, hgives⟩, hbuf⟩ :=
    readTemperatureOutcome a s (halone.presence hsel) hwf
  have haddressed := (halone.shared.reset true).addressed a rfl fun hm =>
    ⟨List.forall_mem_singleton.mpr (haddr hm).1.symm, (haddr hm).2⟩
  have hsends := (haddressed.readCommand (List.forall_mem_singleton.mpr hstill) hconv).congr
    (g := fun _ => .send d.sp 72) (List.forall_mem_singleton.mpr rfl)
  rw [hsel] at hgives
  have hbytes : ∀ i, i < bs.length → bs.getD i 0 = byteAt d.sp i := fun i hi =>
    hsends.receivedBytes (List.cons_ne_nil d []) (by omega) hgives.received hi
  obtain rfl : e = .ok := he.trans (scratchpadOutcome_of_clean hlen hbytes hclean hne)
  refine ⟨t, hexec, congrArg State.status hstate, ?_, fun i hi => ?_, fun i hi => ?_⟩
  · rw [← hbytes 1 (by omega), ← hbytes 0 (by omega)]
    exact congrArg State.regs hstate
  · rw [hbuf, if_pos hi, hbytes i (by omega)]
  · rw [hbuf, if_neg (by omega)]

/-- Settles O58: the trace of O54 tells what the device sent. -/
theorem loneDeviceRom : Obligations.LoneDeviceRom := by
  intro s d hwf halone hsel hrom hclean
  obtain ⟨t, bs, hexec, hlen, ⟨hstate, hgives⟩, hbuf⟩ := readRomOutcome s (halone.presence hsel) hwf
  have hsends := ((halone.shared.reset true).romByte s.params.cmdReadRom).congr
    (g := fun _ => .send (d.addr.setWidth 72) 64) (List.forall_mem_singleton.mpr hrom)
  rw [hsel] at hgives
  have hbytes : ∀ i, i < bs.length → bs.getD i 0 = byteAt d.addr i := fun i hi => by
    rw [hsends.receivedBytes (List.cons_ne_nil d []) (by omega) (hgives.received (sent := [])) hi]
    refine BitVec.eq_of_getLsbD_eq fun k hk => ?_
    rw [getLsbD_byteAt _ _ hk, getLsbD_byteAt _ _ hk, BitVec.getLsbD_setWidth, decide_eq_true (by omega), Bool.true_and]
  have hcrc : crc8 s.params.crcInit (bs.take 7) = bs.getD 7 0 := by
    rw [take_eq_map_byteAt hbytes (by omega), hbytes 7 (by omega)]
    exact hclean
  rw [if_pos hcrc] at hstate
  have hregs := congrArg State.regs hstate
  refine ⟨t, hexec, congrArg State.status hstate, hregs, fun i hi => ?_, fun i hi => ?_⟩
  · rw [hbuf, if_pos hi, if_pos hcrc, hbytes i (by omega)]
  · rw [hbuf, if_neg (by omega)]

end Sys2Proof.Machine

/-! Family 46_common_semantics, 1: what the row of a command in the opcode map lets its rule change, and the outcomes
it has (46 R350, 60 R271). -/

namespace Sys2Proof.Machine

/-- The outcome a rule ended with, normally or by `raise` (60 R276). -/
def Run.outcome {α : Type} : Run α → ErrCode
  | .ok _ _ => .ok
  | .raised e _ => e

theorem Run.close_eq_finish_outcome (r : Run Unit) : r.close = r.state.finish r.outcome := by
  cases r <;> rfl

theorem exec_eq_finish_outcome (i : Instr) (s : State) : exec i s =
    .next ((ruleOf i (s.start (opcodeOf i))).state.finish (ruleOf i (s.start (opcodeOf i))).outcome) := by
  rw [exec_of_rule rfl, Run.close_eq_finish_outcome]

/-! The rows (30_encoding R104; 60 R271). -/

theorem ok_mem_outcomesOf (i : Instr) : .ok ∈ outcomesOf i := by
  cases i <;> exact List.mem_cons_self

/-- A command that runs slots names the lines and the guard's latch (41 R153, 46 R353). -/
theorem names_of_wire {i : Instr} (h : (resultsOf i).wire = true) :
    (resultsOf i).lines = true ∧ (resultsOf i).guard = true := by
  cases i with
  | writeBit | writeByte | readBit | readByte | reset | searchPass | discover | convert | readScratchpad
  | writeScratchpad | copyScratchpad | readRom | readTemperature => exact ⟨rfl, rfl⟩
  | _ => exact absurd h Bool.false_ne_true

/-- Only a bus reset writes PRES. -/
theorem wire_of_pres {i : Instr} (h : (resultsOf i).pres = true) : (resultsOf i).wire = true := by
  cases i with
  | reset | searchPass | discover | convert | readScratchpad | writeScratchpad | copyScratchpad | readRom
  | readTemperature => rfl
  | _ => exact absurd h Bool.false_ne_true

/-! What the row lets a rule change. -/

/-- `t` comes from `s` inside a command whose row is that of `i`: what the row does not name is unchanged, and the bus
has heard the events of slots alone if the row has any, else none (46 R350). -/
structure State.Frame (i : Instr) (s t : State) : Prop where
  params : t.params = s.params
  op : t.seq.op = s.seq.op
  buslist : t.buslist = s.buslist
  pullup : t.env.pullup = s.env.pullup
  host : t.host = { s.host with ie := t.host.ie }
  regs : t.regs = { s.regs with rxd := t.regs.rxd, temp := t.regs.temp, bussel := t.regs.bussel }
  rxd : (resultsOf i).rxd = true ∨ t.regs.rxd = s.regs.rxd
  temp : (resultsOf i).temp = true ∨ t.regs.temp = s.regs.temp
  buf : (resultsOf i).buf = true ∨ t.buf = s.buf
  search : (resultsOf i).search = true ∨ t.search = s.search ∧ t.status.last = s.status.last
  registry : (resultsOf i).registry = true ∨ t.registry = s.registry ∧ t.regs.bussel = s.regs.bussel
  lines : (resultsOf i).lines = true ∨ t.lines = s.lines
  pres : (resultsOf i).pres = true ∨ t.status.pres = s.status.pres
  guard : (resultsOf i).guard = true ∨ t.guard = s.guard ∧ t.host.ie = s.host.ie
  silent : (resultsOf i).wire = true ∨ t.env.wire = s.env.wire ∧ t.env.devices = s.env.devices
  heard : (resultsOf i).wire = false ∨ ∃ tr, t.env = s.env.replay s.params tr ∧ s.env.givesAll s.params tr

theorem or_eq_trans {p : Prop} {α : Type} {a b c : α} (h : p ∨ b = a) (k : p ∨ c = b) : p ∨ c = a :=
  h.elim .inl fun hba => k.imp_right fun hcb => hcb.trans hba

theorem or_eq_and_eq_trans {p : Prop} {α β : Type} {a b c : α} {x y z : β} (h : p ∨ b = a ∧ y = x)
    (k : p ∨ c = b ∧ z = y) : p ∨ c = a ∧ z = x :=
  h.elim .inl fun ⟨hba, hyx⟩ => k.imp_right fun ⟨hcb, hzy⟩ => ⟨hcb.trans hba, hzy.trans hyx⟩

section
variable {i : Instr} {s t u : State}

theorem State.Frame.refl (i : Instr) (s : State) : s.Frame i s where
  params := rfl
  op := rfl
  buslist := rfl
  pullup := rfl
  host := rfl
  regs := rfl
  rxd := .inr rfl
  temp := .inr rfl
  buf := .inr rfl
  search := .inr ⟨rfl, rfl⟩
  registry := .inr ⟨rfl, rfl⟩
  lines := .inr rfl
  pres := .inr rfl
  guard := .inr ⟨rfl, rfl⟩
  silent := .inr ⟨rfl, rfl⟩
  heard := .inr ⟨[], rfl, trivial⟩

theorem State.Frame.trans (h : s.Frame i t) (k : t.Frame i u) : s.Frame i u where
  params := k.params.trans h.params
  op := k.op.trans h.op
  buslist := k.buslist.trans h.buslist
  pullup := k.pullup.trans h.pullup
  host := by rw [k.host, h.host]
  regs := by rw [k.regs, h.regs]
  rxd := or_eq_trans h.rxd k.rxd
  temp := or_eq_trans h.temp k.temp
  buf := or_eq_trans h.buf k.buf
  search := or_eq_and_eq_trans h.search k.search
  registry := or_eq_and_eq_trans h.registry k.registry
  lines := or_eq_trans h.lines k.lines
  pres := or_eq_trans h.pres k.pres
  guard := or_eq_and_eq_trans h.guard k.guard
  silent := or_eq_and_eq_trans h.silent k.silent
  heard := by
    refine h.heard.elim .inl fun ⟨x, henv, hgives⟩ => k.heard.imp_right fun ⟨y, kenv, kgives⟩ => ⟨x ++ y, ?_, ?_⟩
    · rw [kenv, henv, h.params, BusEnv.replay_append]
    · rw [BusEnv.givesAll_append, ← henv, ← h.params]
      exact ⟨h.params ▸ hgives, kgives⟩

/-! The operations. -/

theorem setRxd_frame (h : (resultsOf i).rxd = true) (s : State) (v : Byte) : s.Frame i (s.setRxd v) :=
  { State.Frame.refl i s with regs := rfl, rxd := .inl h }

theorem withBuf_frame (h : (resultsOf i).buf = true) (s : State) (m : Memory) : s.Frame i { s with buf := m } :=
  { State.Frame.refl i s with buf := .inl h }

theorem setPres_frame (h : (resultsOf i).pres = true) (s : State) (b : Bool) : s.Frame i (s.setPres b) :=
  { State.Frame.refl i s with pres := .inl h }

theorem searchInit_frame (h : (resultsOf i).search = true) (s : State) : s.Frame i s.searchInit :=
  { State.Frame.refl i s with search := .inl h }

theorem lineDrive_frame (h : (resultsOf i).lines = true) (s : State) (m : BusLine) (d : Drive) :
    s.Frame i (s.lineDrive m d) :=
  { State.Frame.refl i s with lines := .inl h }

theorem decodeTemperature_frame (h : (resultsOf i).temp = true) (s : State) : s.Frame i s.decodeTemperature :=
  { State.Frame.refl i s with regs := rfl, temp := .inl h }

theorem guardEnter_frame (h : (resultsOf i).guard = true) (s : State) : s.Frame i s.guardEnter :=
  { State.Frame.refl i s with host := rfl, guard := .inl h }

theorem guardExit_frame (h : (resultsOf i).guard = true) (s : State) : s.Frame i s.guardExit :=
  { State.Frame.refl i s with host := rfl, guard := .inl h }

/-- A raw line command may disturb the devices' environment, and calls no primitive (41 R143 to R148; log 10). -/
theorem setLatches_frame (h : (resultsOf i).lines = true) (hw : (resultsOf i).wire = false) (s : State) (ln : Lines) :
    s.Frame i (s.setLatches ln) :=
  { State.Frame.refl i s with lines := .inl h, heard := .inl hw }

/-- READ_LEVEL counts a sample outside the wire's events (41 R146; log 7). -/
theorem readLevel_frame (h : (resultsOf i).rxd = true) (hw : (resultsOf i).wire = false) (s : State) :
    s.Frame i s.readLevel :=
  { State.Frame.refl i s with regs := rfl, rxd := .inl h, heard := .inl hw }

/-- What passes, registrations and changes of BUSSEL leave, in the frame of a row that names what they write. -/
theorem State.Walked.frame (h : s.Walked t) (hp : (resultsOf i).pres = true)
    (hs : (resultsOf i).search = true ∨ t.search = s.search ∧ t.status.last = s.status.last)
    (hr : (resultsOf i).registry = true ∨ t.registry = s.registry ∧ t.regs.bussel = s.regs.bussel) : s.Frame i t :=
  have hw := wire_of_pres hp
  { params := h.params
    op := h.op
    buslist := h.buslist
    pullup := h.env.1
    host := (HostSide.mk.injEq ..).mpr ⟨rfl, h.inputs, h.rdata⟩
    regs := by rw [h.regs]
    rxd := .inr (by rw [h.regs])
    temp := .inr (by rw [h.regs])
    buf := .inr h.buf
    search := hs
    registry := hr
    lines := .inl (names_of_wire hw).1
    pres := .inl hp
    guard := .inl (names_of_wire hw).2
    silent := .inl hw
    heard := .inr (h.bus.imp fun _ ⟨henv, hgives, _⟩ => ⟨henv, hgives⟩) }

theorem State.Slots.frame {tr : List WireEvent} (h : s.Slots tr t) (hw : (resultsOf i).wire = true) : s.Frame i t where
  params := h.params
  op := h.op
  buslist := h.buslist
  pullup := by rw [h.env, BusEnv.replay_pullup]
  host := (HostSide.mk.injEq ..).mpr ⟨rfl, h.inputs, h.rdata⟩
  regs := by rw [h.regs]
  rxd := .inr (congrArg Regs.rxd h.regs)
  temp := .inr (congrArg Regs.temp h.regs)
  buf := .inr h.buf
  search := .inr ⟨h.search, congrArg StatusBits.last h.status⟩
  registry := .inr ⟨h.registry, congrArg Regs.bussel h.regs⟩
  lines := .inl (names_of_wire hw).1
  pres := .inr (congrArg StatusBits.pres h.status)
  guard := .inl (names_of_wire hw).2
  silent := .inl hw
  heard := .inr ⟨tr, h.env, h.gives⟩

/-! Rules. -/

/-- A rule whose row is that of `i` ends within its frame and with an outcome it has. -/
structure Run.Ends {α : Type} (i : Instr) (s : State) (r : Run α) : Prop where
  frame : s.Frame i r.state
  outcome : r.outcome ∈ outcomesOf i

theorem State.Frame.ends {α : Type} (h : s.Frame i t) (a : α) : Run.Ends i s (.ok a t) :=
  ⟨h, ok_mem_outcomesOf i⟩

theorem State.Frame.raises {α : Type} (h : s.Frame i t) {e : ErrCode} (he : e ∈ outcomesOf i) :
    Run.Ends i s (.raised e t : Run α) :=
  ⟨h, he⟩

theorem State.Frame.andThen {α : Type} {r : Run α} (h : s.Frame i t) (k : r.Ends i t) : r.Ends i s :=
  ⟨h.trans k.frame, k.outcome⟩

theorem Run.Ends.bind {α β : Type} {r : Run α} {f : α → State → Run β} (h : r.Ends i s)
    (hf : ∀ (a : α) (t : State), (f a t).Ends i t) : (r.bind f).Ends i s := by
  cases r with
  | ok a t => exact h.frame.andThen (hf a t)
  | raised e t => exact ⟨h.frame, h.outcome⟩

theorem Run.Ends.bind_ok {α : Type} {r : Run α} {g : State → State} (h : r.Ends i s)
    (hg : ∀ t : State, t.Frame i (g t)) : (r.bind fun _ t => .ok () (g t)).Ends i s :=
  h.bind fun _ t => (hg t).ends ()

/-- A check that ends with `e` where it fails, in the state it met. -/
theorem ends_ite {p : Prop} [Decidable p] {r : Run Unit} {e : ErrCode} (he : e ∈ outcomesOf i) (h : r.Ends i s) :
    (if p then .raised e s else r).Ends i s := by
  split
  · exact (State.Frame.refl i s).raises he
  · exact h

theorem busReset_ends (hp : (resultsOf i).pres = true) (he : .noPresence ∈ outcomesOf i) (s : State) :
    (busReset s).Ends i s := by
  obtain ⟨t, hslots, heq⟩ := busReset_slots s
  have hframe : s.Frame i t := (setPres_frame hp s _).trans (hslots.frame (wire_of_pres hp))
  rw [heq]
  split
  · exact hframe.ends ()
  · exact hframe.raises he

theorem address_ends (hp : (resultsOf i).pres = true) (he : .noPresence ∈ outcomesOf i) (a : Addressing) (s : State) :
    (address a s).Ends i s := by
  have hw := wire_of_pres hp
  refine (busReset_ends hp he s).bind_ok fun t => ?_
  split
  · exact (writeByte_slots _ t).frame hw
  · exact ((writeByte_slots _ t).frame hw).trans ((sendAddr_slots _).frame hw)

/-- A command byte and the bytes that answer it (45 R236, R244). -/
theorem readReply_frame (hw : (resultsOf i).wire = true) (hb : (resultsOf i).buf = true) (cmd : Byte) (n : Nat)
    (hn : 0 < n) (s : State) : s.Frame i (readBytes n (writeByte cmd s)) := by
  obtain ⟨bs, -, hreceived⟩ := readBytes_spec n (writeByte cmd s) hn
  exact ((writeByte_slots cmd s).frame hw).trans { hreceived.slots.frame hw with buf := .inl hb }

theorem checkScratchpad_ends (he : [.pullupMissing, .crcError] ⊆ outcomesOf i) (s : State) :
    (checkScratchpad s).Ends i s := by
  have hsame := State.Frame.refl i s
  refine ends_ite (he (by simp)) ?_
  split
  · exact hsame.ends ()
  · exact hsame.raises (he (by simp))

theorem readScratchpad_ends (hp : (resultsOf i).pres = true) (hb : (resultsOf i).buf = true)
    (hn : .noPresence ∈ outcomesOf i) (he : [.pullupMissing, .crcError] ⊆ outcomesOf i) (a : Addressing) (s : State) :
    (readScratchpad a s).Ends i s :=
  (address_ends hp hn a s).bind fun _ t =>
    (readReply_frame (wire_of_pres hp) hb _ 9 (by decide) t).andThen (checkScratchpad_ends he _)

theorem checkRom_ends (s : State) : (checkRom s).Ends .readRom s := by
  obtain ⟨m, hzero, -⟩ := zeroRom_spec s
  unfold checkRom
  split
  · exact (State.Frame.refl _ s).ends ()
  · rw [hzero]
    exact (withBuf_frame rfl s m).raises (by decide)

theorem readRom_ends (s : State) : (readRom s).Ends .readRom s :=
  (busReset_ends rfl (by decide) s).bind fun _ t =>
    (readReply_frame rfl rfl _ 8 (by decide) t).andThen (checkRom_ends _)

theorem searchPass_ends (s : State) : (searchPass s).Ends .searchPass s := by
  rcases searchPass_walked s _ rfl with ⟨e, t, ht, he, hw, hreg, hregs, -⟩ | ⟨t, ht, hw, hreg, hregs, -⟩ <;>
    rw [ht]
  · refine (hw.frame rfl (.inl rfl) (.inr ⟨hreg, by rw [hregs]⟩)).raises ?_
    rcases he with rfl | rfl <;> decide
  · exact (hw.frame rfl (.inl rfl) (.inr ⟨hreg, by rw [hregs]⟩)).ends ()

end

/-! DISCOVER, whose loops have their frame as `Walked` and end a pass without presence themselves (44 R212). -/

theorem State.Walked.discover_frame {s t : State} (h : s.Walked t) : s.Frame .discover t :=
  h.frame rfl (.inl rfl) (.inl rfl)

theorem enumerateBus_ends (room : Nat) (s : State) : (enumerateBus room s).Ends .discover s := by
  induction room generalizing s with
  | zero =>
    rcases searchPass_walked s _ rfl with ⟨e, t, ht, rfl | rfl, hw, -⟩ | ⟨t, ht, hw, -⟩ <;> rw [enumerateBus, ht]
    · exact hw.discover_frame.ends ()
    · exact (hw.trans (walked_setCount t 0)).discover_frame.raises (by decide)
    · exact (hw.trans (walked_setCount t 0)).discover_frame.raises (by decide)
  | succ room ih =>
    rcases searchPass_walked s _ rfl with ⟨e, t, ht, rfl | rfl, hw, -⟩ | ⟨t, ht, hw, -⟩ <;> rw [enumerateBus, ht]
    · exact hw.discover_frame.ends ()
    · exact (hw.trans (walked_setCount t 0)).discover_frame.raises (by decide)
    · have hregistered := (hw.trans (walked_register t)).discover_frame
      dsimp only
      split
      · exact hregistered.andThen (ih _)
      · exact hregistered.ends ()

theorem discoverBus_ends (i : Nat) (s : State) : (discoverBus i s).Ends .discover s :=
  have hselected : s.Walked (s.selectBus i) := { State.Walked.refl s with regs := rfl }
  hselected.discover_frame.andThen (enumerateBus_ends _ _)

theorem discoverBuses_ends (is : List Nat) (s : State) : (discoverBuses is s).Ends .discover s := by
  induction is generalizing s with
  | nil => exact (State.Frame.refl _ s).ends ()
  | cons i is ih => exact (discoverBus_ends i s).bind fun _ t => ih t

theorem discoverCheck_ends (s : State) : (discoverCheck s).Ends .discover s := by
  rcases discoverCheck_cases s with ⟨h, -⟩ | h <;> rw [h]
  · exact (State.Frame.refl _ s).ends ()
  · exact (walked_setCount s 0).discover_frame.raises (by decide)

theorem discover_ends (s : State) : (discover s).Ends .discover s :=
  ends_ite (by decide) ((walked_setCount s 0).discover_frame.andThen
    ((discoverBuses_ends _ _).bind fun _ t => discoverCheck_ends t))

/-- The rule of every command. -/
theorem ruleOf_ends (i : Instr) (s : State) : (ruleOf i s).Ends i s := by
  cases i with
  | configureOutput | driveLow | releaseHigh | configureInput | driveHigh =>
    exact (setLatches_frame rfl rfl s _).ends ()
  | readLevel => exact (readLevel_frame rfl rfl s).ends ()
  | guardEnter => exact ends_ite (by decide) ((guardEnter_frame rfl s).ends ())
  | guardExit => exact ends_ite (by decide) ((guardExit_frame rfl s).ends ())
  | reset => exact busReset_ends rfl (by decide) s
  | writeBit => exact ((writeSlot_slots _ s).frame rfl).ends ()
  | readBit => exact (((readSlot_slots s).frame rfl).trans (setRxd_frame rfl _ _)).ends ()
  | writeByte => exact ((writeByte_slots _ s).frame rfl).ends ()
  | readByte => exact (((readByte_slots s).frame rfl).trans (setRxd_frame rfl _ _)).ends ()
  | crc8 | validate => exact ends_ite (by decide) ((setRxd_frame rfl s _).ends ())
  | searchInit => exact (searchInit_frame rfl s).ends ()
  | searchPass => exact searchPass_ends s
  | discover => exact discover_ends s
  | convert a => exact (address_ends rfl (by simp [outcomesOf]) a s).bind_ok fun t => (writeByte_slots _ t).frame rfl
  | readScratchpad a => exact readScratchpad_ends rfl rfl (by simp [outcomesOf]) (by simp [outcomesOf]) a s
  | writeScratchpad a =>
    exact (address_ends rfl (by simp [outcomesOf]) a s).bind_ok fun t =>
      (writeBytes_slots _ t (List.cons_ne_nil _ _)).frame rfl
  | copyScratchpad a =>
    exact (address_ends rfl (by simp [outcomesOf]) a s).bind_ok fun t =>
      ((writeByte_slots _ t).frame rfl).trans (lineDrive_frame rfl _ _ _)
  | readRom => exact readRom_ends s
  | decodeTemperature => exact (decodeTemperature_frame rfl s).ends ()
  | readTemperature a =>
    exact (readScratchpad_ends rfl rfl (by simp [outcomesOf]) (by simp [outcomesOf]) a s).bind_ok
      (decodeTemperature_frame rfl)

/-- Settles O60: `Frame` is the statement, row by row; what comes before the rule and after it touches SEQ and ERR
alone. -/
theorem commandFrame : Obligations.CommandFrame := by
  intro i s t h
  obtain rfl := Host.Outcome.next.inj ((exec_eq_finish_outcome i s).symm.trans h)
  have hf := (ruleOf_ends i (s.start (opcodeOf i))).frame
  have unnamed : ∀ {b : Bool} {p : Prop}, b = true ∨ p → b = false → p := fun h hb =>
    h.resolve_left (Bool.eq_false_iff.mp hb)
  exact ⟨hf.params, hf.buslist, hf.pullup, hf.host, hf.regs, unnamed hf.rxd, unnamed hf.temp,
    fun hb c => congrArg (Store.read · c) (unnamed hf.buf hb), unnamed hf.search, unnamed hf.registry,
    unnamed hf.lines, unnamed hf.pres, unnamed hf.guard, unnamed hf.silent,
    fun hw => hf.heard.resolve_left (ne_false_of_eq_true hw)⟩

/-- Settles O59: the rule keeps the opcode that the start wrote, and its end writes the outcome's code. -/
theorem everyCommandCompletes : Obligations.EveryCommandCompletes := by
  intro i s
  have hends := ruleOf_ends i (s.start (opcodeOf i))
  exact ⟨_, _, exec_eq_finish_outcome i s, congrArg Seq.ended hends.frame.op, hends.outcome, rfl⟩

/-- Settles O40: the reset, the search command and the triplets, counted. -/
theorem searchPassSlotCounts : Obligations.SearchPassSlotCounts := by
  intro s t hexec herr
  obtain ⟨u, hu, -, -, -, -, hok, -⟩ := searchPassOutcomes s
  obtain rfl := Host.Outcome.next.inj (hu.symm.trans hexec)
  obtain ⟨b, c, hwire, -⟩ := hok herr
  refine ⟨_, hwire, ?_⟩
  rw [← List.singleton_append, slotCounts_append, slotCounts_append, slotCounts_searchCommand, slotCounts_triplets]
  cases s.params.searchSendsCommand <;> rfl

end Sys2Proof.Machine

/-! Family 46_common_semantics, 2: the register space as the host writes and reads it (46 R356, 10_state R41). -/

namespace Sys2Proof.Machine

/-! Bytes of a value, and bits of STATUS. -/

/-- Bit `q` of a value with byte `i` replaced. -/
theorem getLsbD_setByte {w : Nat} (v : BitVec w) (i : Nat) (b : Byte) {q : Nat} (hq : q < w) :
    (setByte v i b).getLsbD q = if 8 * i ≤ q ∧ q < 8 * i + 8 then b.getLsbD (q - 8 * i) else v.getLsbD q := by
  have hones : (0xFF : Byte).getLsbD (q - 8 * i) = decide (q - 8 * i < 8) := by
    rw [← BitVec.getLsbD_allOnes]
    rfl
  have hlow : q - 8 * i < w := by omega
  simp only [setByte, BitVec.getLsbD_or, BitVec.getLsbD_and, BitVec.getLsbD_not, BitVec.getLsbD_shiftLeft,
    BitVec.getLsbD_setWidth, hones, hq, hlow, decide_true, Bool.true_and]
  by_cases hbelow : q < 8 * i
  · simp [hbelow, Nat.not_le.mpr hbelow]
  by_cases habove : q - 8 * i < 8
  · simp [hbelow, habove, show 8 * i ≤ q ∧ q < 8 * i + 8 by omega]
  · have hbeyond : b.getLsbD (q - 8 * i) = false := BitVec.getLsbD_of_ge b _ (Nat.not_lt.mp habove)
    simp [hbelow, habove, hbeyond, show ¬q < 8 * i + 8 by omega]

/-- Byte `j` of a value with byte `i` replaced. -/
theorem byteAt_setByte {w : Nat} (v : BitVec w) (b : Byte) {i : Nat} (hi : 8 * i + 8 ≤ w) {j : Nat}
    (hj : 8 * j + 8 ≤ w) : byteAt (setByte v i b) j = if j = i then b else byteAt v j := by
  refine BitVec.eq_of_getLsbD_eq fun k hk => ?_
  rw [getLsbD_byteAt _ _ hk, getLsbD_setByte _ _ _ (by omega)]
  by_cases h : j = i
  · subst h
    simp [hk]
  · rw [if_neg h, if_neg (by omega), getLsbD_byteAt _ _ hk]

/-- STATUS but for bit 4 does not depend on LAST. -/
theorem State.statusByte_withLast (s : State) (b : Bool) {k : Nat} (hk : k ≠ 4) :
    ({ s with status := { s.status with last := b } } : State).statusByte.getLsbD k = s.statusByte.getLsbD k := by
  simp only [State.statusByte, BitVec.getLsbD_append, BitVec.getLsbD_ofBool]
  rcases Nat.lt_or_gt_of_ne hk with hbelow | habove
  · have hpres : k - 3 < 1 := by omega
    simp only [if_pos hpres]
  · have hlast : ¬k - 3 - 1 < 1 := by omega
    simp only [if_neg hlast]
    rfl

/-! The locations above the single registers: the registry window, ADDR, PREV_ID, BUF and BUSLIST (10_state R41). -/

theorem State.readReg_of_gt (s : State) {n : Nat} (hn : 0x13 < n) : s.readReg n =
    if 0x18 ≤ n ∧ n ≤ 0x1F then
      if s.regs.regidx.toNat < s.params.registryCapacity then
        (s.registry.addrByte s.regs.regidx.toNat (n - 0x18)).toNat else 0
    else if 0x20 ≤ n ∧ n ≤ 0x27 then (byteAt s.regs.addr (n - 0x20)).toNat
    else if 0x28 ≤ n ∧ n ≤ 0x2F then (byteAt s.search.prevId (n - 0x28)).toNat
    else if 0x30 ≤ n ∧ n ≤ 0x38 then (s.buf.read (n - 0x30)).toNat
    else if 0x40 ≤ n ∧ n < 0x40 + s.params.maxBuses then s.buslist.read (n - 0x40)
    else 0 := by
  unfold State.readReg
  split
  case h_21 => rfl
  all_goals omega

theorem State.writeReg_of_gt (s : State) {n : Nat} (v : Nat) (hn : 0x12 < n) : s.writeReg n v =
    if 0x20 ≤ n ∧ n ≤ 0x27 then
      { s with regs := { s.regs with addr := setByte s.regs.addr (n - 0x20) (BitVec.ofNat 8 v) } }
    else if 0x28 ≤ n ∧ n ≤ 0x2F then
      { s with search := { s.search with prevId := setByte s.search.prevId (n - 0x28) (BitVec.ofNat 8 v) } }
    else if 0x30 ≤ n ∧ n ≤ 0x38 then s.setBuf (n - 0x30) (BitVec.ofNat 8 v)
    else if 0x40 ≤ n ∧ n < 0x40 + s.params.maxBuses then
      { s with buslist := s.buslist.write (n - 0x40) (v &&& s.params.lineMask) }
    else s := by
  unfold State.writeReg
  split
  case h_10 => rfl
  all_goals omega

theorem keptBits_byte (p : Params) (v : Nat) {n : Nat} (hlo : 0x20 ≤ n) (hhi : n < 0x40) :
    keptBits p n v = v % 2 ^ 8 := by
  rw [keptBits, if_neg (by omega), if_neg (by omega), if_neg (by omega)]

theorem keptBits_buslist (p : Params) (v : Nat) {n : Nat} (hn : 0x40 ≤ n) : keptBits p n v = v &&& p.lineMask :=
  if_pos (.inr hn)

theorem writableRegister_iff {p : Params} {n : Nat} : writableRegister p n = true ↔
    n ∈ [0x02, 0x03, 0x05, 0x06, 0x07, 0x08, 0x0C, 0x0D, 0x12] ∨ (0x20 ≤ n ∧ n ≤ 0x38) ∨
      (0x40 ≤ n ∧ n < 0x40 + p.maxBuses ∧ n < 0x80) := by
  simp [writableRegister, or_assoc]

/-- A writable location reads back what it keeps of a write (46 R356). -/
theorem State.readReg_writeReg (s : State) {n : Nat} (v : Nat) (hbuf : s.buf.wf = true)
    (hbuslist : s.buslist.wf = true) (hw : writableRegister s.params n = true) :
    (s.writeReg n v).readReg n = keptBits s.params n v := by
  rcases writableRegister_iff.mp hw with hsingle | hbytes | ⟨hlo, hhi, -⟩
  · simp only [List.mem_cons, List.not_mem_nil, or_false] at hsingle
    rcases hsingle with rfl | rfl | rfl | rfl | rfl | rfl | rfl | rfl | rfl <;> rfl
  · rw [State.writeReg_of_gt _ _ (by omega), State.readReg_of_gt _ (by omega), if_neg (by omega),
      keptBits_byte _ _ hbytes.1 (by omega)]
    by_cases haddr : 0x20 ≤ n ∧ n ≤ 0x27
    · rw [if_pos haddr, if_pos haddr, byteAt_setByte _ _ (by omega) (by omega), if_pos rfl]
      rfl
    by_cases hprevId : 0x28 ≤ n ∧ n ≤ 0x2F
    · rw [if_neg haddr, if_neg haddr, if_pos hprevId, if_pos hprevId, byteAt_setByte _ _ (by omega) (by omega),
        if_pos rfl]
      rfl
    have hcell : 0x30 ≤ n ∧ n ≤ 0x38 := by omega
    rw [if_neg haddr, if_neg haddr, if_neg hprevId, if_neg hprevId, if_pos hcell, if_pos hcell, State.setBuf_buf,
      Store.read_write _ _ _ _ hbuf, if_pos rfl]
    rfl
  · rw [State.writeReg_of_gt _ _ (by omega), State.readReg_of_gt _ (by omega), keptBits_buslist _ _ hlo]
    simp only [if_neg (show ¬(0x18 ≤ n ∧ n ≤ 0x1F) by omega), if_neg (show ¬(0x20 ≤ n ∧ n ≤ 0x27) by omega),
      if_neg (show ¬(0x28 ≤ n ∧ n ≤ 0x2F) by omega), if_neg (show ¬(0x30 ≤ n ∧ n ≤ 0x38) by omega),
      if_pos (And.intro hlo hhi)]
    rw [Store.read_write _ _ _ _ hbuslist, if_pos rfl]

/-! An access and its step (46 R356). -/

theorem State.writeReg_host (s : State) (n v : Nat) : (s.writeReg n v).host = s.host := by
  unfold State.writeReg
  split
  case h_10 => split_ifs <;> rfl
  all_goals rfl

theorem ne_zero_and_lt_of_writable {p : Params} {n : Nat} (h : writableRegister p n = true) : n ≠ 0 ∧ n < 0x80 := by
  rcases writableRegister_iff.mp h with hsingle | hbytes | ⟨hlo, -, hhi⟩
  · have hlist : ∀ k ∈ [0x02, 0x03, 0x05, 0x06, 0x07, 0x08, 0x0C, 0x0D, 0x12], k ≠ 0 ∧ k < 0x80 := by decide
    exact hlist n hsingle
  · omega
  · omega

/-- The host's read of a location that exists answers it. -/
theorem step_readReg {s : State} {n : Byte} {rest : List Input} (hidle : s.seq.idle = true)
    (hin : s.host.inputs = .access (.read n) :: rest) (hlt : n.toNat < 0x80) :
    step s = .next { s with host := { s.host with inputs := rest, rdata := s.readReg n.toNat } } := by
  rw [step_of_idle hidle hin]
  exact if_pos hlt

/-- Settles O10: the write's step and the read's, each of an idle block. -/
theorem registerWriteThenRead : Obligations.RegisterWriteThenRead := by
  intro s n v rest hinv hw hin
  obtain ⟨hne, hlt⟩ := ne_zero_and_lt_of_writable hw
  have hn : n ≠ 0 := fun h => hne (by rw [h]; rfl)
  have htaken : (s.takeInput (.access (.read n) :: rest)).Inv := { hinv with }
  have hwritten := htaken.writeReg n.toNat v
  have hreadIn := congrArg HostSide.inputs ((s.takeInput (.access (.read n) :: rest)).writeReg_host n.toNat v)
  exact ⟨_, _, step_writeReg hinv.idle.1 hin hn hlt, step_readReg hwritten.idle.1 hreadIn hlt,
    State.readReg_writeReg _ v htaken.bufWf htaken.buslistWf hw⟩

/-- Settles O13: the number is checked before anything else is done with the access. -/
theorem registersAbove7FDoNotExist : Obligations.RegistersAbove7FDoNotExist := by
  refine fun s n v rest hidle => ⟨fun hin => ⟨fun hge => ?_, step_readReg hidle hin⟩, fun hin hge => ?_⟩ <;>
    rw [step_of_idle hidle hin]
  · exact if_neg (Nat.not_lt.mpr hge)
  · have hn : n ≠ 0 := fun h => by simp [h] at hge
    exact (if_neg hn).trans (if_neg (Nat.not_lt.mpr hge))

/-! A write and the reading of another location. -/

/-- What the reading of location `m` depends on is the same in `s` and `t` (10_state R41). What a write never touches
need not be shown for it. -/
structure State.ReadsAlike (m : Nat) (s t : State) : Prop where
  params : t.params = s.params := by rfl
  registry : t.registry = s.registry := by rfl
  lines : t.lines = s.lines := by rfl
  guard : t.guard = s.guard := by rfl
  rxd : t.regs.rxd = s.regs.rxd := by rfl
  temp : t.regs.temp = s.regs.temp := by rfl
  status : m = 0x01 → t.statusByte = s.statusByte := by exact fun _ => rfl
  bussel : m = 0x02 → t.regs.bussel = s.regs.bussel := by exact fun _ => rfl
  txd : m = 0x03 → t.regs.txd = s.regs.txd := by exact fun _ => rfl
  len : m = 0x05 → t.regs.len = s.regs.len := by exact fun _ => rfl
  argTh : m = 0x06 → t.regs.argTh = s.regs.argTh := by exact fun _ => rfl
  argTl : m = 0x07 → t.regs.argTl = s.regs.argTl := by exact fun _ => rfl
  argCfg : m = 0x08 → t.regs.argCfg = s.regs.argCfg := by exact fun _ => rfl
  nbus : m = 0x0C → t.regs.nbus = s.regs.nbus := by exact fun _ => rfl
  ldisc : m = 0x0D → t.search.ldisc = s.search.ldisc := by exact fun _ => rfl
  regidx : m = 0x12 ∨ m = 0x13 ∨ 0x18 ≤ m ∧ m ≤ 0x1F → t.regs.regidx = s.regs.regidx := by exact fun _ => rfl
  addr : 0x20 ≤ m ∧ m ≤ 0x27 → byteAt t.regs.addr (m - 0x20) = byteAt s.regs.addr (m - 0x20) := by exact fun _ => rfl
  prevId : 0x28 ≤ m ∧ m ≤ 0x2F → byteAt t.search.prevId (m - 0x28) = byteAt s.search.prevId (m - 0x28) := by
    exact fun _ => rfl
  buf : 0x30 ≤ m ∧ m ≤ 0x38 → t.buf.read (m - 0x30) = s.buf.read (m - 0x30) := by exact fun _ => rfl
  buslist : 0x40 ≤ m → t.buslist.read (m - 0x40) = s.buslist.read (m - 0x40) := by exact fun _ => rfl

theorem State.ReadsAlike.readReg {m : Nat} {s t : State} (h : s.ReadsAlike m t) : t.readReg m = s.readReg m := by
  rcases Nat.lt_or_ge 0x13 m with hm | hm
  · rw [State.readReg_of_gt _ hm, State.readReg_of_gt _ hm, h.params, h.registry]
    refine ite_congr rfl (fun hwindow => ?_) fun _ => ite_congr rfl (fun haddr => ?_) fun _ =>
      ite_congr rfl (fun hprevId => ?_) fun _ => ite_congr rfl (fun hbuf => ?_) fun _ =>
      ite_congr rfl (fun hbus => ?_) fun _ => rfl
    · rw [h.regidx (.inr (.inr hwindow))]
    · rw [h.addr haddr]
    · rw [h.prevId hprevId]
    · rw [h.buf hbuf]
    · rw [h.buslist hbus.1]
  · interval_cases m
    · rfl
    · exact congrArg BitVec.toNat (h.status rfl)
    · exact h.bussel rfl
    · exact congrArg BitVec.toNat (h.txd rfl)
    · exact congrArg BitVec.toNat h.rxd
    · exact congrArg BitVec.toNat (h.len rfl)
    · exact congrArg BitVec.toNat (h.argTh rfl)
    · exact congrArg BitVec.toNat (h.argTl rfl)
    · exact congrArg BitVec.toNat (h.argCfg rfl)
    · exact congrArg (fun x => (byteAt x 0).toNat) h.temp
    · exact congrArg (fun x => (byteAt x 1).toNat) h.temp
    · exact congrArg (fun x => x.count.toNat) h.registry
    · exact congrArg BitVec.toNat (h.nbus rfl)
    · exact congrArg BitVec.toNat (h.ldisc rfl)
    · exact congrArg Lines.dir h.lines
    · exact congrArg Lines.out h.lines
    · exact congrArg Lines.strong h.lines
    · simp only [State.readReg, State.guardByte, h.guard]
    · exact congrArg BitVec.toNat (h.regidx (.inl rfl))
    · rw [State.readReg_windowLine, State.readReg_windowLine, h.regidx (.inr (.inl rfl)), h.params, h.registry]

/-- A write reaches the readings of no other location but STATUS and the registry window (46 R356). -/
theorem State.writeReg_readsAlike {s : State} {n m : Nat} (v : Nat) (hbuf : s.buf.wf = true)
    (hbuslist : s.buslist.wf = true) (hne : m ≠ n) (hwindow : ¬(n = 0x12 ∧ (m = 0x13 ∨ (0x18 ≤ m ∧ m ≤ 0x1F))))
    (hlast : ¬(n = 0x0D ∧ m = 0x01)) : s.ReadsAlike m (s.writeReg n v) := by
  have hother : ∀ {k : Nat}, k ≤ m → k ≤ n → m - k ≠ n - k := fun hm hn h => hne ((tsub_left_inj hm hn).mp h)
  unfold State.writeReg
  split
  case h_1 => exact { bussel := fun h => absurd h hne }
  case h_2 => exact { txd := fun h => absurd h hne }
  case h_3 => exact { len := fun h => absurd h hne }
  case h_4 => exact { argTh := fun h => absurd h hne }
  case h_5 => exact { argTl := fun h => absurd h hne }
  case h_6 => exact { argCfg := fun h => absurd h hne }
  case h_7 => exact { nbus := fun h => absurd h hne }
  case h_8 => exact { ldisc := fun h => absurd h hne, status := fun h => absurd ⟨rfl, h⟩ hlast }
  case h_9 => exact { regidx := fun h => absurd ⟨rfl, h.resolve_left hne⟩ hwindow }
  case h_10 =>
    clear hwindow hlast
    split_ifs with haddr hprevId hcell hbus
    · exact { addr := fun hm => by rw [byteAt_setByte _ _ (by omega) (by omega), if_neg (hother hm.1 haddr.1)] }
    · exact { prevId := fun hm => by rw [byteAt_setByte _ _ (by omega) (by omega), if_neg (hother hm.1 hprevId.1)] }
    · exact { buf := fun hm => by rw [State.setBuf_buf, Store.read_write _ _ _ _ hbuf, if_neg (hother hm.1 hcell.1)] }
    · exact { buslist := fun hm => by rw [Store.read_write _ _ _ _ hbuslist, if_neg (hother hm hbus.1)] }
    · exact {}

/-- Settles O11: what a reading depends on is written at its own location, but for LAST in STATUS and REGIDX in the
window. -/
theorem registerWriteTouchesOneCell : Obligations.RegisterWriteTouchesOneCell := by
  intro s n m v hinv _ hne _ _ hwindow
  refine ⟨fun hlast => (State.writeReg_readsAlike v hinv.bufWf hinv.buslistWf hne hwindow hlast).readReg, ?_⟩
  rintro rfl rfl k hk
  exact State.statusByte_withLast s (!v.testBit 6) hk

end Sys2Proof.Machine

/-! Family 70_reset_and_hazards, 1: a step with no input, and the durations of slots and transactions (70 R313, R330
to R332). -/

namespace Sys2Proof.Machine

/-- Settles O5: the step takes its input from the host's list, which is empty. -/
theorem nothingRunsWithoutInput : Obligations.NothingRunsWithoutInput := by
  intro s hin
  simp only [step, nextInput, hin]

/-! Phases and slots (70 R331). -/

theorem phaseTime_append (x y : List Phase) : phaseTime (x ++ y) = phaseTime x + phaseTime y := by
  simp [phaseTime]

@[simp] theorem phaseTime_recovery (p : Params) : phaseTime (recoveryPhases p) = p.tRec := rfl

section
variable {p : Params}

/-- The low phase fits the slot, so the phase after it is the rest of the slot. -/
theorem phaseTime_writeSlot (h : p.tW1l ≤ p.tSlotW) (b : Bool) : phaseTime (writeSlotPhases p b) = p.tSlotW := by
  cases b
  · simp [phaseTime, writeSlotPhases]
  · simp [phaseTime, writeSlotPhases, Nat.add_sub_cancel' h]

/-- The phases up to the sample fit the slot, so the phase after it is the rest of the slot. -/
theorem phaseTime_readSlot (h : p.tRl + p.tRs ≤ p.tSlotR) : phaseTime (readSlotPhases p) = p.tSlotR := by
  simp only [phaseTime, readSlotPhases, List.map_cons, List.map_nil, List.sum_cons, List.sum_nil]
  omega

/-- The phases of both slots fit them (70 R330). -/
theorem Params.slots_fit (h : p.timesWf = true) : p.tW1l ≤ p.tSlotW ∧ p.tRl + p.tRs ≤ p.tSlotR := by
  simp only [Params.timesWf, Bool.and_eq_true, decide_eq_true_eq] at h
  omega

theorem slotTime_write (h : p.timesWf = true) (b : Bool) : slotTime p (.w b) = p.tSlotW + p.tRec := by
  rw [slotTime, phaseTime_append, phaseTime_writeSlot (Params.slots_fit h).1, phaseTime_recovery]

theorem slotTime_read (h : p.timesWf = true) (b : Bool) : slotTime p (.r b) = p.tSlotR + p.tRec := by
  rw [slotTime, phaseTime_append, phaseTime_readSlot (Params.slots_fit h).2, phaseTime_recovery]

/-- An event takes at least the time of its kind, and a primitive cut short none. -/
theorem slotTime_eq_slotCounts (h : p.timesWf = true) (x : WireEvent) : slotTime p x.slot =
    (slotCounts [x]).1 * phaseTime (resetPhases p) + (slotCounts [x]).2.1 * (p.tSlotW + p.tRec) +
      (slotCounts [x]).2.2 * (p.tSlotR + p.tRec) := by
  obtain ⟨m, slot⟩ := x
  cases slot with
  | rst _ => simp [slotCounts, Slot.isRst, Slot.isW, Slot.isR, slotTime]
  | w b => simp [slotCounts, Slot.isRst, Slot.isW, Slot.isR, slotTime_write h]
  | r b => simp [slotCounts, Slot.isRst, Slot.isW, Slot.isR, slotTime_read h]
  | cut => simp [slotCounts, Slot.isRst, Slot.isW, Slot.isR, slotTime]

/-- What a trace takes at least depends on how many events of each kind it has (70 R332). -/
theorem traceTime_eq_slotCounts (h : p.timesWf = true) (tr : List WireEvent) : traceTime p tr =
    (slotCounts tr).1 * phaseTime (resetPhases p) + (slotCounts tr).2.1 * (p.tSlotW + p.tRec) +
      (slotCounts tr).2.2 * (p.tSlotR + p.tRec) := by
  induction tr with
  | nil => simp [traceTime, slotCounts]
  | cons x tr ih =>
    have hcons : traceTime p (x :: tr) = slotTime p x.slot + traceTime p tr := List.sum_cons
    have hcounts : slotCounts (x :: tr) = _ := slotCounts_append [x] tr
    rw [hcons, slotTime_eq_slotCounts h, ih, hcounts]
    ring

end

/-- Settles O31: the slots' phases, and the recovery gap beside them. -/
theorem slotPhasesSumToTheSlot : Obligations.SlotPhasesSumToTheSlot := by
  intro p h
  obtain ⟨hwrite, hread⟩ := Params.slots_fit h
  exact ⟨fun b => ⟨phaseTime_writeSlot hwrite b, slotTime_write h b⟩, phaseTime_readSlot hread, slotTime_read h⟩

/-! Transactions with the default parameters (70 R332). -/

/-- A trace of `r` bus resets, `w` write slots and `v` read slots at the default times: 960 µs, 61 µs and 46 µs each. -/
theorem traceTime_default {tr : List WireEvent} {r w v : Nat} (h : slotCounts tr = (r, w, v)) :
    traceTime Params.default tr = r * 960 + w * 61 + v * 46 := by
  rw [traceTime_eq_slotCounts (by decide), h]
  rfl

/-- One bus reset, then bytes written. -/
theorem slotCounts_command (m : BusLine) (presence : Bool) (sent : List Byte) :
    slotCounts (resetEvent m presence :: writtenBytes m sent) = (1, 8 * sent.length, 0) := by
  rw [← List.singleton_append, slotCounts_append, slotCounts_writtenBytes]
  simp [slotCounts, resetEvent, Slot.isRst, Slot.isW, Slot.isR]

theorem State.busResult.wire {s t : State} {op : BitVec 5} {e : ErrCode} {pres : Bool} {regs : Regs} {lines : Lines}
    {buf : Memory} {tr : List WireEvent} (h : s.busResult t op e pres regs lines buf tr) :
    t.env.wire = s.env.wire ++ tr :=
  (congrArg (fun t => t.env.wire) h.1).trans (BusEnv.replay_wire ..)

/-- CONVERT sends its addressing, of one byte or of nine, and its command byte (45 R232). -/
theorem traceTime_convert (a : Addressing) {s : State} (hpres : s.presence = true) :
    ∃ t tr, exec (.convert a) s = .next t ∧ t.env.wire = s.env.wire ++ tr ∧
      traceTime Params.default tr = match a with | .skip => 1936 | .matched => 5840 := by
  obtain ⟨t, ht, hresult⟩ := convertTransaction a s hpres
  refine ⟨t, _, ht, hresult.wire, (traceTime_default (slotCounts_command ..)).trans ?_⟩
  cases a <;> simp [addrBytes]

/-- READ_SCRATCHPAD sends two bytes without an address and receives nine, whatever its checks then say (45 R236). -/
theorem traceTime_readScratchpad {s : State} (hpres : s.presence = true) :
    ∃ t tr, exec (.readScratchpad .skip) s = .next t ∧ t.env.wire = s.env.wire ++ tr ∧
      traceTime Params.default tr = 5248 := by
  obtain ⟨bs, -, t, hrule, hlen, -, -, hs⟩ := readScratchpad_ok .skip (s.start 0x19) hpres
  have hexec := exec_of_rule (i := .readScratchpad .skip) hrule
  rw [Run.close_eq_finish_outcome, checkScratchpad_state] at hexec
  refine ⟨_, _, hexec, hs.wire, ?_⟩
  rw [← List.cons_append]
  refine (traceTime_default (r := 1) (w := 16) (v := 72) ?_).trans rfl
  rw [slotCounts_append, slotCounts_command, slotCounts_receivedBytes, hlen]
  rfl

/-- The trace of SEARCH_PASS, which has the slots of 46 R355 when the pass completed. -/
theorem traceTime_searchPass {s : State} (hparams : s.params = Params.default) :
    ∃ t tr, exec .searchPass s = .next t ∧ t.env.wire = s.env.wire ++ tr ∧
      (t.status.err = 0 → traceTime Params.default tr = 11240) := by
  obtain ⟨t, ht⟩ := exec_next .searchPass s
  obtain ⟨tr, hwire, -⟩ := (exec_ran (by decide) (by decide) ht).guard
  refine ⟨t, tr, ht, hwire, fun herr => ?_⟩
  obtain ⟨tr', hwire', hcounts⟩ := searchPassSlotCounts s t ht herr
  obtain rfl : tr = tr' := List.append_cancel_left (hwire.symm.trans hwire')
  rw [hparams] at hcounts
  exact (traceTime_default hcounts).trans rfl

/-- Settles O32: the slots of each transaction at the default times. -/
theorem durationsOfTransactions : Obligations.DurationsOfTransactions := fun _ hparams hpres =>
  ⟨fun a => traceTime_convert a hpres, traceTime_readScratchpad hpres, traceTime_searchPass hparams⟩

end Sys2Proof.Machine

/-! Family 70_reset_and_hazards, 2: how many bus resets DISCOVER puts on the wire (70 R327, 44 R212). -/

namespace Sys2Proof.Machine

/-- `t` comes from `s` by events of which at most `n` are bus resets. -/
def State.Resets (s : State) (n : Nat) (t : State) : Prop :=
  ∃ tr, t.env.wire = s.env.wire ++ tr ∧ (slotCounts tr).1 ≤ n

section
variable {s t u : State} {m n : Nat}

theorem State.Resets.refl (s : State) (n : Nat) : s.Resets n s :=
  ⟨[], (List.append_nil _).symm, Nat.zero_le n⟩

theorem State.Resets.trans (h : s.Resets m t) (k : t.Resets n u) : s.Resets (m + n) u := by
  obtain ⟨x, hx, hm⟩ := h
  obtain ⟨y, hy, hn⟩ := k
  refine ⟨x ++ y, by rw [hy, hx, List.append_assoc], ?_⟩
  rw [slotCounts_append]
  exact Nat.add_le_add hm hn

theorem State.Resets.mono (h : s.Resets m t) (hmn : m ≤ n) : s.Resets n t :=
  h.imp fun _ => .imp_right (Nat.le_trans · hmn)

theorem Run.bind_resets {α β : Type} {r : Run α} {f : α → State → Run β} (hr : s.Resets m r.state)
    (hf : ∀ a t, r = .ok a t → t.Resets n (f a t).state) : s.Resets (m + n) (r.bind f).state := by
  cases r with
  | ok a t => exact hr.trans (hf a t rfl)
  | raised e t => exact hr.mono (Nat.le_add_right m n)

end

/-- The reset at the start of a pass is the only one among the events up to any of its positions (44 R203). -/
theorem slotCounts_passEvents (p : Params) (ld : SearchState) (m : BusLine) (b c : Nat → Bool) (n : Nat) :
    (slotCounts (resetEvent m true ::
      (searchCommandEvents p m ++ (List.range n).flatMap (tripletEvents ld m b c)))).1 = 1 := by
  rw [← List.singleton_append, slotCounts_append, slotCounts_append, slotCounts_searchCommand, slotCounts_triplets]
  rfl

/-- A pass puts one bus reset on the wire, whatever its outcome (44 R203). -/
theorem searchPass_resets (s : State) : s.Resets 1 (searchPass s).state := by
  rcases searchPass_spec s with ⟨t, ht, -, hs⟩ | ⟨n, b, c, t, ht, -, -, -, hs⟩ | ⟨b, c, t, id, ht, -, -, hs, -⟩ <;>
    rw [ht] <;>
    refine ⟨_, hs.wire, ?_⟩
  · exact Nat.le_refl 1
  · rw [← List.cons_append, slotCounts_append, slotCounts_passEvents]
    exact Nat.le_refl 1
  · exact (slotCounts_passEvents ..).le

/-- The pass loop of a bus is one pass, and after it the loop again only where the registry had room for what the pass
found (44 R212). -/
theorem enumerateBus_cases (room : Nat) (s : State) :
    (enumerateBus room s).state.env = (searchPass s).state.env ∨
      ∃ left t, room = left + 1 ∧ searchPass s = .ok () t ∧ enumerateBus room s = enumerateBus left (register t) := by
  cases hpass : searchPass s with
  | raised e t => left; cases room <;> cases e <;> rw [enumerateBus, hpass] <;> rfl
  | ok _ t =>
    cases room with
    | zero => left; rw [enumerateBus, hpass]; rfl
    | succ left =>
      rw [enumerateBus, hpass]
      dsimp only
      split
      · exact .inr ⟨left, t, rfl, rfl, rfl⟩
      · exact .inl rfl

/-- No more than one pass an entry there is room for, and one more (44 R212). -/
theorem enumerateBus_resets (room : Nat) (s : State) : s.Resets (room + 1) (enumerateBus room s).state := by
  have hpass := searchPass_resets s
  rcases enumerateBus_cases room s with henv | ⟨left, t, rfl, ht, heq⟩
  · rw [State.Resets, henv]
    exact hpass.mono (Nat.le_add_left 1 room)
  · rw [ht] at hpass
    rw [heq, Nat.add_comm]
    exact State.Resets.trans (t := register t) hpass (enumerateBus_resets left (register t))
termination_by room

theorem discoverBus_resets (i : Nat) (s : State) :
    s.Resets (s.params.registryCapacity + 1) (discoverBus i s).state :=
  State.Resets.mono (s := s) (enumerateBus_resets _ (s.selectBus i)) (Nat.succ_le_succ (Nat.sub_le _ _))

/-- The bound of a bus, for each bus of the list. -/
theorem discoverBuses_resets (is : List Nat) (s : State) :
    s.Resets (is.length * (s.params.registryCapacity + 1)) (discoverBuses is s).state := by
  induction is generalizing s with
  | nil => exact .refl s _
  | cons i is ih =>
    rw [List.length_cons, Nat.succ_mul, Nat.add_comm]
    refine Run.bind_resets (discoverBus_resets i s) fun _ t ht => ?_
    have hparams := (discoverBus_walked s i).params
    rw [ht] at hparams
    exact (congrArg Params.registryCapacity hparams) ▸ ih t

/-- The check of step 5 touches no bus (44 R212). -/
theorem discoverCheck_resets (s : State) : s.Resets 0 (discoverCheck s).state := by
  rcases discoverCheck_cases s with ⟨h, -⟩ | h <;> rw [h] <;> exact .refl s 0

theorem discover_resets (s : State) :
    s.Resets (s.regs.nbus.toNat * (s.params.registryCapacity + 1)) (discover s).state := by
  by_cases hn : s.regs.nbus.toNat ≤ s.params.maxBuses
  · have hbuses := discoverBuses_resets (List.range s.regs.nbus.toNat) (s.setCount 0)
    rw [List.length_range] at hbuses
    rw [discover_of_le hn]
    exact (Run.bind_resets hbuses fun _ t _ => discoverCheck_resets t :)
  · rw [discover, if_pos (Nat.lt_of_not_le hn)]
    exact .refl s _

/-- Settles O45: every pass is one bus reset, and a bus has no more passes than there is room for entries, and one. -/
theorem discoverPassBound : Obligations.DiscoverPassBound := by
  intro s t hexec
  obtain ⟨e, rfl⟩ := exec_eq_finish hexec
  exact discover_resets (s.start 0x16)

end Sys2Proof.Machine
